-- ==== Sys2Proof/Word.lean ====
section
/-! DEFINITION. The word types of the block (spec/00_scope.md R11, R14): all unsigned, bit 0 the least significant. -/

namespace Sys2Proof

/-- A wire byte, buffer byte, length byte or status byte: 8 bits (R11). -/
abbrev Byte := BitVec 8

/-- A symbol: 2 bits (R11, spec/30_encoding.md R90). -/
abbrev Sym := BitVec 2

/-- The CRC register: 16 bits (R11). -/
abbrev Crc := BitVec 16

/-- A timestamp or an interval in microseconds: `TIME_BITS` = 32 bits, so its arithmetic is modulo `2^32` (R11, R45). -/
abbrev Time := BitVec 32

end Sys2Proof
end

