-- ==== Sys2Proof/Config.lean ====
section
/-! DEFINITION. The configuration of the block (spec/00_scope.md R9) and the free values the spec leaves open
(spec/93_implementation_defined.md section 2). The quantities derived from the configuration are in Machine/Params.lean. -/

namespace Sys2Proof

/-- The OPEN parameters of R9, fixed before reset is released and constant while the block runs. They reach the block
on its `configuration` port (spec/43_host_interface.md R210). -/
structure Config where
  /-- `PULSE_US`, written `T`: the nominal pulse width in microseconds. -/
  pulseUs : Nat
  /-- `MAX_PAYLOAD`: the most application payload bytes. -/
  maxPayload : Nat
  /-- `RESEND_COUNT`: emissions after the first. -/
  resendCount : Nat
  /-- `BACKOFF_MIN_US`. -/
  backoffMinUs : Nat
  /-- `BACKOFF_MAX_US`. -/
  backoffMaxUs : Nat
deriving DecidableEq, Repr

/-- The reference values that R9 gives and the vectors of spec/95_test_vectors.md use. -/
def Config.reference : Config :=
  { pulseUs := 100, maxPayload := 80, resendCount := 3, backoffMinUs := 1000, backoffMaxUs := 5000 }

/-- Free value: an unspecified byte after RESET (spec/10_state.md R56). Nothing is known of it. -/
opaque Config.freeByte : Nat → Byte

/-- Free value: what a byte of an array that nothing has written since draw number `k` reads as, by its index (R56,
spec/43_host_interface.md R215). -/
opaque Config.freeArrayByte : (k i : Nat) → Byte

/-- Free value: an unspecified CRC register after RESET (R56). -/
opaque Config.freeCrc : Nat → Crc

/-- Free value: an unspecified timestamp after RESET (R56). -/
opaque Config.freeTime : Nat → Time

/-- Free value behind `draw_backoff()` (spec/41_frame_transmitter.md R155): any natural number, brought into the backoff
range by `Machine.backoffInRange`. -/
opaque Config.freeBackoff : Nat → Nat

end Sys2Proof
end

