-- ==== Sys2Proof/Machine/Params.lean ====
section
/-! DEFINITION. The quantities of spec/00_scope.md R9 that follow from the configuration, its constants, and the
constraints of R10. -/

namespace Sys2Proof.Machine

/-- `QUIET_US`: the low time after the last pulse of a symbol. -/
def quietUs (c : Config) : Nat := 4 * c.pulseUs

/-- `DEBOUNCE_US`: the decoder's refractory interval. -/
def debounceUs (c : Config) : Nat := c.pulseUs / 2

/-- `GAP_US`: the quiet threshold that separates windows. -/
def gapUs (c : Config) : Nat := 2 * c.pulseUs

/-- `ABORT_US`: the silence after which a partial frame is abandoned. -/
def abortUs (c : Config) : Nat := 8 * c.pulseUs

/-- `MIN_FRAME`: the smallest legal length byte. -/
def minFrame : Nat := 6

/-- `MAX_FRAME`: the largest legal length byte. -/
def maxFrame (c : Config) : Nat := c.maxPayload + 6

/-- `TX_MIN`: the fewest bytes of a TX_SEND. -/
def txMin : Nat := minFrame - 2

/-- `TX_MAX`: the most bytes of a TX_SEND. -/
def txMax (c : Config) : Nat := maxFrame c - 2

/-- The size of TXBUF, RXACC and SLOT (spec/20_memory.md R70). -/
def bufSize (c : Config) : Nat := maxFrame c - 2

def sync0 : Byte := 0xE4
def sync1 : Byte := 0x1B
def sync2 : Byte := 0xD8

/-- `SYNC_WORD` (spec/42_frame_receiver.md R174): the preamble as the sync shift register holds it. -/
def syncWord : BitVec 24 := sync0 ++ sync1 ++ sync2

def crcPoly : Crc := 0x1021
def crcInit : Crc := 0xFFFF

/-- The constraints of R9 (decision D39): outside them no step is defined (R10). -/
def configValid (c : Config) : Bool :=
  decide (2 ≤ c.pulseUs) && decide (8 * c.pulseUs < 2 ^ 32) && decide (c.maxPayload ≤ 249) &&
    decide (c.resendCount ≤ 255) && decide (c.backoffMinUs ≤ c.backoffMaxUs) && decide (c.backoffMaxUs < 2 ^ 31)

/-- A natural number brought into the backoff range; every value of the range is the image of one (R155). -/
def backoffInRange (c : Config) (n : Nat) : Nat :=
  c.backoffMinUs + n % (c.backoffMaxUs - c.backoffMinUs + 1)

end Sys2Proof.Machine
end

