-- ==== Sys2Proof/Syntax.lean ====
section
/-! DEFINITION. The operations of the block: one constructor for each mnemonic of spec/opcode_table.json
(spec/30_encoding.md R97). The six RESERVED rows of the table are the six mask patterns of one operation (R216). -/

namespace Sys2Proof

/-- The reason of an abandoned frame with the value the model's trace records for it (spec/60_exceptions.md R231,
codes 1 to 6; spec/42_frame_receiver.md R172). -/
inductive AbortReason where
  /-- Code 1, records the edge count of the window. -/
  | badWindow (c : Nat)
  /-- Code 2, records the interval. -/
  | longGap (dt : Time)
  /-- Code 3, records the three copies. -/
  | lenMismatch (a b c : Byte)
  /-- Code 4, records the length byte. -/
  | lenRange (len : Byte)
  /-- Code 5, records the running CRC. -/
  | crcFail (crc : Crc)
  /-- Code 6, records nothing. -/
  | txMask
deriving DecidableEq, Repr

/-- The operations, with the operands their rules give them. -/
inductive Instr where
  /-- R112: symbol `00` played from `t0`. -/
  | sym0 (t0 : Time)
  /-- R113: symbol `01` played from `t0`. -/
  | sym1 (t0 : Time)
  /-- R114: symbol `10` played from `t0`. -/
  | sym2 (t0 : Time)
  /-- R115: symbol `11` played from `t0`. -/
  | sym3 (t0 : Time)
  /-- R119: one edge of the input line at `t`. -/
  | edge (t : Time)
  /-- R212, command 0x00. -/
  | nop
  /-- R213, command 0x01: the count byte `n` is `data.length`. -/
  | txSend (data : List Byte)
  /-- R214, command 0x02. -/
  | rxStatus
  /-- R215, command 0x03. -/
  | rxReceive
  /-- R216, commands 0x04 to 0xFF. -/
  | reserved (op : Byte)
  /-- R120: classify an edge count. -/
  | classify (c : Nat)
  /-- R141: one byte into the CRC register value `c`. -/
  | crc16Update (c : Crc) (b : Byte)
  /-- R151: start an emission at `ts`. -/
  | emitStart (ts : Time)
  /-- R152: end of an emission at `t`. -/
  | emitEnd (t : Time)
  /-- R153: end of a backoff at `t`. -/
  | backoffEnd (t : Time)
  /-- R156. -/
  | rxDisarm
  /-- R171: a decoded symbol. -/
  | rxSymbol (v : Sym)
  /-- R172: abandon the frame in progress. -/
  | rxAbort (r : AbortReason)
  /-- R173: a symbol in `Idle`. -/
  | idleSymbol (v : Sym)
  /-- R174: a symbol in `Syncing`. -/
  | syncSymbol (v : Sym)
  /-- R175: a symbol in `ReadingLength` or `ReadingBody`. -/
  | byteSymbol (v : Sym)
  /-- R176. -/
  | lengthCheckEqual
  /-- R177. -/
  | lengthCheckRange
  /-- R178. -/
  | lengthCheckAccept
  /-- R179: three copies of a logical byte are complete. -/
  | bodyByte
  /-- R180: the bitwise 2-of-3 majority of three copies. -/
  | maj3 (a b c : Byte)
  /-- R182. -/
  | completeAccept
  /-- R183. -/
  | completeDiscard
  /-- R260: the `rst` input. -/
  | reset
deriving DecidableEq, Repr

end Sys2Proof
end

