-- ==== Sys2Proof/Machine/State.lean ====
section
/-! DEFINITION. The state of the block: the tuple of spec/10_state.md R32, the ports of spec/43_host_interface.md R210,
the model's records (spec/60_exceptions.md R231, R236) and the model's own fields; and the state after reset (R56). -/

namespace Sys2Proof.Machine

/-- The three byte arrays (spec/20_memory.md R70). -/
inductive ArrayName where
  | txBuf | rxAcc | slot
deriving DecidableEq, Repr

/-- Why a step stops. -/
inductive Fault where
  /-- An array primitive with an index at or above the array's size; raised by the array accesses, as R71 asks. Safe. -/
  | arrayIndex (a : ArrayName) (i : Nat)
  /-- RX_SYMBOL in `Accepted`; raised by RX_SYMBOL, which R171 allows. Safe (log 19). -/
  | symbolInAccepted
deriving DecidableEq, Repr

/-- Why the model does not take a step. -/
inductive Refusal where
  /-- An instruction without a meaning: no arm of `exec` answers it. Safe. -/
  | notModelled (mnemonic : String)
  /-- The configuration breaks R10 (named `CONFIG` by spec/70_reset_and_hazards.md R263); raised by `step`. Safe (log 2). -/
  | config
deriving DecidableEq, Repr

/-- The receiver's states (R35). -/
inductive RxState where
  | idle | syncing | readingLength | readingBody | accepted
deriving DecidableEq, Repr

/-- The transmitter's phases (R46). -/
inductive TxPhase where
  | off | emitting | backoff
deriving DecidableEq, Repr

/-- The three raw copies of a logical byte (R38). -/
structure Copies where
  c0 : Byte
  c1 : Byte
  c2 : Byte
deriving DecidableEq, Repr

/-- A byte array: the bytes written since it was last unspecified, by index, strictly rising; and the number of the draw
that every other byte is read from, a free value (R56; log 5). -/
structure Memory where
  cells : List Host.Cell
  drawn : Nat
deriving DecidableEq, Repr

/-- One `emit(t, level)` of the output line (spec/00_scope.md R15), with its time on the model's clock (log 7). -/
structure Transition where
  time : Nat
  level : Bool
deriving DecidableEq, Repr

/-- A host-contract error with its recorded value (spec/60_exceptions.md R231, codes 16 to 18). -/
inductive ContractRecord where
  /-- Code 16: TX_SEND while `tx_busy = 1`; records `n`. -/
  | txBusy (n : Nat)
  /-- Code 17: TX_SEND with a bad count; records `n`. -/
  | txLen (n : Nat)
  /-- Code 18: a reserved command byte; records it. -/
  | reservedCmd (op : Byte)
deriving DecidableEq, Repr

/-- What a pure internal operation returned (log 14). -/
inductive OpResult where
  | none
  /-- CLASSIFY: a symbol, or `INVALID` as `none`. -/
  | symbol (v : Option Sym)
  /-- CRC16_UPDATE. -/
  | crc (c : Crc)
  /-- MAJ3. -/
  | byte (b : Byte)
deriving DecidableEq, Repr

/-- What the outside does at one turn: the Channel delivers an edge, the Host issues the next command of its port, the
`rst` input resets the block. -/
inductive Event where
  | edge | host | reset
deriving DecidableEq, Repr

/-- One coming turn of the outside (log 9). -/
structure Turn where
  /-- Microseconds from the step before it. -/
  wait : Nat
  /-- How many TxEngine steps due at the turn's own instant are applied before it (spec/00_scope.md R13). -/
  txFirst : Nat
  event : Event
deriving DecidableEq, Repr

/-- The whole state. The first group is the configuration port; then the elements of R32 in its order; then the ports,
records and own fields of the model. -/
structure State where
  cfg : Config
  decLast : Option Time
  decCount : Fin 10
  rxState : RxState
  syncSr : BitVec 24
  syncN : Fin 13
  symAcc : Byte
  symN : Fin 4
  copies : Copies
  copyN : Fin 3
  rxLen : Byte
  rxCrc : Crc
  rxIdx : Nat
  rxAcc : Memory
  ready : Bool
  slot : Memory
  slotLen : Byte
  txPhase : TxPhase
  txBusy : Bool
  txBuf : Memory
  txN : Byte
  txLeft : Byte
  txNextT : Time
  now : Time
  clock : Nat
  outTrace : List Transition
  trace : List AbortReason
  contract : List ContractRecord
  hostIn : List Byte
  hostOut : List Byte
  inputs : List Turn
  drawN : Nat
  result : OpResult
deriving DecidableEq, Repr

/-- The state right after reset (R56, R261). The registers the spec calls unspecified are zero (DESIGN CHOICE, log 3), the
array bytes free values, numbered 0 to 2 by array (log 5); the configuration is the reference one (DESIGN CHOICE, log 1). -/
def State.reset : State where
  cfg := Config.reference
  decLast := none
  decCount := 0
  rxState := .idle
  syncSr := 0
  syncN := 0
  symAcc := 0
  symN := 0
  copies := ⟨0, 0, 0⟩
  copyN := 0
  rxLen := 0
  rxCrc := 0
  rxIdx := 0
  rxAcc := ⟨[], 0⟩
  ready := false
  slot := ⟨[], 1⟩
  slotLen := 0
  txPhase := .off
  txBusy := false
  txBuf := ⟨[], 2⟩
  txN := 0
  txLeft := 0
  txNextT := 0
  now := 0
  clock := 0
  outTrace := []
  trace := []
  contract := []
  hostIn := []
  hostOut := []
  inputs := []
  drawN := 3
  result := .none

end Sys2Proof.Machine
end

