-- ==== Sys2Proof/Machine/Ops.lean ====
section
/-! DEFINITION. The named operations over the state that the meanings share: the array primitives (spec/20_memory.md R71),
the output line's trace (spec/10_state.md R44), time (R45), the records (spec/60_exceptions.md R231, R236) and the ports.
The block takes no exception and returns from none (R234, R235): what stands in that place is `RX_ABORT`, in
Machine/Receiver.lean, and the contract record, here. -/

namespace Sys2Proof.Machine

/-- The outcome of an operation that may fault. -/
def toOutcome : Except Fault State → Host.Outcome State Fault Refusal
  | .ok s => .next s
  | .error f => .fault f

/-! ### Byte arrays -/

/-- The listed byte at an index. -/
def readCells : List Host.Cell → Nat → Option Byte
  | [], _ => none
  | (a, v) :: m, i => if a = i then some v else readCells m i

/-- The list with one byte written; it stays strictly rising. -/
def writeCells : List Host.Cell → Nat → Byte → List Host.Cell
  | [], i, v => [(i, v)]
  | (a, w) :: m, i, v =>
    if i < a then (i, v) :: (a, w) :: m
    else if i = a then (i, v) :: m
    else (a, w) :: writeCells m i v

/-- An array of which every byte is unspecified, read from draw number `k` (spec/10_state.md R56; log 5). -/
def Memory.unspecified (k : Nat) : Memory := ⟨[], k⟩

/-- The byte at an index: the one written there, or the free value of the array's draw (log 5). -/
def Memory.read (m : Memory) (i : Nat) : Byte := (readCells m.cells i).getD (Config.freeArrayByte m.drawn i)

/-- The byte at an index has been written since the array was last unspecified. -/
def Memory.written (m : Memory) (i : Nat) : Bool := (readCells m.cells i).isSome

/-- The array with one byte written. -/
def Memory.write (m : Memory) (i : Nat) (v : Byte) : Memory := { m with cells := writeCells m.cells i v }

/-- The canonical form: the indices strictly rising. Whether a written byte equals the free value that would stand in its
place is not known, so every written byte is listed (log 5). -/
def Memory.wf (m : Memory) : Bool := decide (m.cells.Pairwise fun x y => x.1 < y.1)

/-- The array of a name. -/
def State.array (s : State) : ArrayName → Memory
  | .txBuf => s.txBuf
  | .rxAcc => s.rxAcc
  | .slot => s.slot

/-- The state with another content of one array. -/
def State.withArray (s : State) : ArrayName → Memory → State
  | .txBuf, m => { s with txBuf := m }
  | .rxAcc, m => { s with rxAcc := m }
  | .slot, m => { s with slot := m }

/-- `TxRead`, `AccRead`, `SlotRead` (R71): one byte, defined below the array's size only. -/
def arrayRead (a : ArrayName) (s : State) (i : Nat) : Except Fault Byte :=
  if i < bufSize s.cfg then .ok ((s.array a).read i) else .error (.arrayIndex a i)

/-- `TxWrite`, `AccWrite`, `SlotWrite` (R71): one byte, defined below the array's size only. -/
def arrayWrite (a : ArrayName) (s : State) (i : Nat) (v : Byte) : Except Fault State :=
  if i < bufSize s.cfg then .ok (s.withArray a ((s.array a).write i v))
  else .error (.arrayIndex a i)

/-- The bytes `i, i+1, …` of an array, `count` of them. -/
def readBytes (a : ArrayName) (s : State) : (i count : Nat) → Except Fault (List Byte)
  | _, 0 => .ok []
  | i, count + 1 =>
    match arrayRead a s i with
    | .error f => .error f
    | .ok b =>
      match readBytes a s (i + 1) count with
      | .error f => .error f
      | .ok bs => .ok (b :: bs)

/-- Write a byte sequence into an array from index `i` on. -/
def writeBytes (a : ArrayName) : State → (i : Nat) → List Byte → Except Fault State
  | s, _, [] => .ok s
  | s, i, b :: bs =>
    match arrayWrite a s i b with
    | .error f => .error f
    | .ok s' => writeBytes a s' (i + 1) bs

/-! ### Time and the output line -/

/-- Time passes by `d` microseconds: the time base wraps at `2^32` (R45), the model's clock does not (log 7). -/
def State.advance (s : State) (d : Nat) : State :=
  { s with now := s.now + BitVec.ofNat 32 d, clock := s.clock + d }

/-- The instant on the model's clock at which the time base reads `t` next (now, when `t` is `now`; log 7). -/
def State.instant (s : State) (t : Time) : Nat := s.clock + (t - s.now).toNat

/-- Append the transitions of a waveform to the output trace (R44, spec/41_frame_transmitter.md R150). -/
def State.emitAll (s : State) (w : List Transition) : State := { s with outTrace := s.outTrace ++ w }

/-- The level of the last transition of a trace at or before `t`; low when there is none (R44, R117). -/
def levelAt (w : List Transition) (t : Nat) : Bool :=
  w.foldl (fun l e => if e.time ≤ t then e.level else l) false

/-- `tx_out` (R44), computed from the output trace as R44 allows (log 6). -/
def State.txOut (s : State) : Bool := levelAt s.outTrace s.clock

/-! ### Free values, ports and records -/

/-- `draw_backoff()` (spec/41_frame_transmitter.md R155): the free value number `drawN` in the backoff range. -/
def State.drawBackoff (s : State) : Nat := backoffInRange s.cfg (Config.freeBackoff s.drawN)

/-- Response bytes on the host response port (spec/43_host_interface.md R211). -/
def State.respond (s : State) (bytes : List Byte) : State := { s with hostOut := s.hostOut ++ bytes }

/-- A host-contract error is recorded and never cleared (spec/60_exceptions.md R236); the block ignores the command and
goes on (log 12). -/
def State.recordContract (s : State) (r : ContractRecord) : State := { s with contract := s.contract ++ [r] }

/-- The value a pure internal operation returns (log 14). -/
def State.withResult (s : State) (r : OpResult) : State := { s with result := r }

end Sys2Proof.Machine
end

