-- ==== Sys2Proof/Machine/Flags.lean ====
section
/-! DEFINITION. The flags and the status byte (spec/10_state.md R42, R46, R50, R51). -/

namespace Sys2Proof.Machine

/-- The code of a receiver state in `STATUS.RXS` (R35). -/
def rxCode : RxState → Byte
  | .idle => 0
  | .syncing => 1
  | .readingLength => 2
  | .readingBody => 3
  | .accepted => 4

/-- A flag as a byte. -/
def flagByte (b : Bool) : Byte := if b then 1 else 0

/-- `STATUS` (R51, spec/43_host_interface.md R214). -/
def State.status (s : State) : Byte :=
  flagByte s.ready ||| (flagByte s.txBusy <<< 1) ||| (rxCode s.rxState <<< 2)

/-- The receive mask (R50): a function of `tx_phase`. -/
def State.receiveMask (s : State) : Bool := decide (s.txPhase = .emitting)

/-- The code of an abort reason (spec/60_exceptions.md R231). -/
def abortCode : AbortReason → Nat
  | .badWindow _ => 1
  | .longGap _ => 2
  | .lenMismatch _ _ _ => 3
  | .lenRange _ => 4
  | .crcFail _ => 5
  | .txMask => 6

/-- The code of a host-contract record (R231). -/
def contractCode : ContractRecord → Nat
  | .txBusy _ => 16
  | .txLen _ => 17
  | .reservedCmd _ => 18

end Sys2Proof.Machine
end

