-- ==== Sys2Proof/Machine/Operands.lean ====
section
/-! DEFINITION. The operand forms and pure computations of the block: the symbols of a byte, symbol shift registers, the
window count, CLASSIFY, MAJ3, the CRC, and the layout of an emission. -/

namespace Sys2Proof.Machine

/-- The four symbols of a byte, most significant pair first (spec/30_encoding.md R91, spec/20_memory.md R75). -/
def byteSymbols (b : Byte) : List Sym :=
  [b.extractLsb' 6 2, b.extractLsb' 4 2, b.extractLsb' 2 2, b.extractLsb' 0 2]

/-- `symbols(E)` (spec/40_symbol_codec.md R111). -/
def symbols (bytes : List Byte) : List Sym := bytes.flatMap byteSymbols

/-- Shift one symbol into the byte being assembled (spec/42_frame_receiver.md R175). -/
def shiftByte (acc : Byte) (v : Sym) : Byte := (acc <<< 2) ||| v.setWidth 8

/-- Shift one symbol into the sync register (R174). -/
def shiftSync (sr : BitVec 24) (v : Sym) : BitVec 24 := (sr <<< 2) ||| v.setWidth 24

/-- `min(sync_n + 1, 12)` (R174). -/
def countSync (n : Fin 13) : Fin 13 := ⟨min (n.val + 1) 12, by omega⟩

/-- `min(dec_count + 1, 9)` (spec/40_symbol_codec.md R119, R126). -/
def countEdge (n : Fin 10) : Fin 10 := ⟨min (n.val + 1) 9, by omega⟩

/-- The next value of a counter of raw copies, which BYTE_SYMBOL resets before it passes 2 (R175). -/
def nextCopy (n : Fin 3) : Fin 3 := if n = 0 then 1 else if n = 1 then 2 else 0

/-- The next value of a counter of symbols, which BYTE_SYMBOL resets before it passes 3 (R175). -/
def nextSymbol (n : Fin 4) : Fin 4 := if n = 0 then 1 else if n = 1 then 2 else if n = 2 then 3 else 0

/-- `copies[i] <- b` (R175). -/
def Copies.set (c : Copies) (i : Fin 3) (b : Byte) : Copies :=
  if i = 0 then { c with c0 := b } else if i = 1 then { c with c1 := b } else { c with c2 := b }

/-- `CLASSIFY(c)` (spec/40_symbol_codec.md R120); `none` is `INVALID`. -/
def classify (c : Nat) : Option Sym :=
  if c = 2 ∨ c = 4 ∨ c = 6 ∨ c = 8 then some (BitVec.ofNat 2 (c / 2 - 1)) else none

/-- `maj3(a, b, c)` (spec/42_frame_receiver.md R180). -/
def maj3 (a b c : Byte) : Byte := (a &&& b) ||| (a &&& c) ||| (b &&& c)

/-- One of the eight shifts of the CRC update (spec/41_frame_transmitter.md R141). -/
def crcShift (c : Crc) : Crc := if c.getLsbD 15 then (c <<< 1) ^^^ crcPoly else c <<< 1

/-- `crcShift`, `k` times. -/
def crcShifts : (k : Nat) → Crc → Crc
  | 0, c => c
  | k + 1, c => crcShifts k (crcShift c)

/-- `crc16_update(c, b)` (R141). -/
def crc16Update (c : Crc) (b : Byte) : Crc := crcShifts 8 (c ^^^ (b.setWidth 16 <<< 8))

/-- `fold(crc16_update, c, bytes)` (R142). -/
def crcFold (c : Crc) (bytes : List Byte) : Crc := bytes.foldl crc16Update c

/-- The length byte of a logical frame, `L = n + 2` (R146). -/
def lengthByte (frame : List Byte) : Byte := BitVec.ofNat 8 (frame.length + 2)

/-- The checksum of a logical frame (R142). -/
def checksum (frame : List Byte) : Crc := crcFold crcInit (lengthByte frame :: frame)

/-- The two bytes of a CRC register value, high byte first (R143). -/
def crcBytes (c : Crc) : List Byte := [c.extractLsb' 8 8, c.extractLsb' 0 8]

/-- The body `B`: the logical frame, then the checksum's bytes (spec/30_encoding.md R92). -/
def body (frame : List Byte) : List Byte := frame ++ crcBytes (checksum frame)

/-- `triple(x)` (spec/41_frame_transmitter.md R145). -/
def triple (b : Byte) : List Byte := [b, b, b]

/-- The emission byte sequence `E` (R145): the preamble, the length byte three times, each body byte three times. -/
def emissionBytes (frame : List Byte) : List Byte :=
  [sync0, sync1, sync2] ++ triple (lengthByte frame) ++ (body frame).flatMap triple

end Sys2Proof.Machine
end

