-- ==== Sys2Proof/Machine/Receiver.lean ====
section
/-! DEFINITION. The Frame Receiver (spec/42_frame_receiver.md): abort, sync search, byte assembly, the length checks, the
voted body and its completion. Each procedure runs inside the step that calls it; as an instruction of its own it does
what its rule's pseudocode says, in any state (log 16). -/

namespace Sys2Proof.Machine

/-- `RX_ABORT(reason)` (R172): the receiver returns to `Idle` and the reason is recorded. -/
def rxAbort (r : AbortReason) (s : State) : State :=
  { s with
    rxState := .idle, syncSr := 0, syncN := 0, symAcc := 0, symN := 0, copyN := 0, rxIdx := 0
    trace := s.trace ++ [r] }

/-- `IDLE_SYMBOL(v)` (R173). -/
def idleSymbol (v : Sym) (s : State) : State :=
  { s with syncSr := v.setWidth 24, syncN := 1, rxState := .syncing }

/-- `SYNC_SYMBOL(v)` (R174). -/
def syncSymbol (v : Sym) (s : State) : State :=
  let sr := shiftSync s.syncSr v
  let n := countSync s.syncN
  if n = 12 ∧ sr = syncWord then
    { s with syncSr := sr, syncN := n, rxState := .readingLength, symAcc := 0, symN := 0, copyN := 0 }
  else { s with syncSr := sr, syncN := n }

/-- The length copies are bitwise equal (R176). -/
def copiesEqual (c : Copies) : Bool := decide (c.c0 = c.c1) && decide (c.c1 = c.c2)

/-- The length is inside `[MIN_FRAME, MAX_FRAME]` (R177). -/
def lengthInRange (c : Config) (len : Byte) : Bool :=
  decide (minFrame ≤ len.toNat) && decide (len.toNat ≤ maxFrame c)

/-- `LENGTH_CHECK`, acceptance (R178): the length byte is the first byte of the running CRC. -/
def lengthAccept (s : State) : State :=
  { s with
    rxLen := s.copies.c0, rxCrc := crc16Update crcInit s.copies.c0, rxIdx := 0, rxState := .readingBody }

/-- `LENGTH_CHECK()`: R176, then R177, then R178. -/
def lengthCheck (s : State) : State :=
  if copiesEqual s.copies then
    if lengthInRange s.cfg s.copies.c0 then lengthAccept s
    else rxAbort (.lenRange s.copies.c0) s
  else rxAbort (.lenMismatch s.copies.c0 s.copies.c1 s.copies.c2) s

/-- `COMPLETE`, accept (R182): copy the frame to the slot and raise `ready`. `rx_len - 2` is taken at the width of
`rx_len` (log 16). -/
def completeAccept (s : State) : Except Fault State :=
  match readBytes .rxAcc s 0 (s.rxLen - 2).toNat with
  | .error f => .error f
  | .ok bytes =>
    match writeBytes .slot s 0 bytes with
    | .error f => .error f
    | .ok s' => .ok { s' with slotLen := s.rxLen - 2, ready := true, rxState := .accepted }

/-- `COMPLETE`, discard (R183). -/
def completeDiscard (s : State) : State := rxAbort (.crcFail s.rxCrc) s

/-- `COMPLETE()`: R182 when the running CRC is zero, else R183. -/
def complete (s : State) : Except Fault State :=
  if s.rxCrc = 0 then completeAccept s else .ok (completeDiscard s)

/-- The voted byte goes into RXACC, the CRC bytes do not (R179). -/
def storeBodyByte (v : Byte) (s : State) : Except Fault State :=
  if s.rxIdx < (s.rxLen - 2).toNat then arrayWrite .rxAcc s s.rxIdx v else .ok s

/-- `BODY_BYTE()` (R179, R181). -/
def bodyByte (s : State) : Except Fault State :=
  let v := maj3 s.copies.c0 s.copies.c1 s.copies.c2
  match storeBodyByte v { s with rxCrc := crc16Update s.rxCrc v } with
  | .error f => .error f
  | .ok s1 =>
    let s2 := { s1 with rxIdx := s1.rxIdx + 1 }
    if s2.rxIdx = s2.rxLen.toNat then complete s2 else .ok s2

/-- `BYTE_SYMBOL(v)` (R175). -/
def byteSymbol (v : Sym) (s : State) : Except Fault State :=
  let b := shiftByte s.symAcc v
  if s.symN ≠ 3 then .ok { s with symAcc := b, symN := nextSymbol s.symN }
  else
    let s1 := { s with symAcc := 0, symN := 0, copies := s.copies.set s.copyN b, copyN := nextCopy s.copyN }
    if s.copyN ≠ 2 then .ok s1
    else if s.rxState = .readingLength then .ok (lengthCheck s1)
    else bodyByte s1

/-- `RX_SYMBOL(v)` (R171). -/
def rxSymbol (v : Sym) (s : State) : Except Fault State :=
  match s.rxState with
  | .idle => .ok (idleSymbol v s)
  | .syncing => .ok (syncSymbol v s)
  | .readingLength => byteSymbol v s
  | .readingBody => byteSymbol v s
  | .accepted => .error .symbolInAccepted

/-- RX_SYMBOL (R171). -/
def execRxSymbol (v : Sym) (s : State) : Host.Outcome State Fault Refusal := toOutcome (rxSymbol v s)

/-- RX_ABORT (R172). -/
def execRxAbort (r : AbortReason) (s : State) : Host.Outcome State Fault Refusal := .next (rxAbort r s)

/-- IDLE_SYMBOL (R173). -/
def execIdleSymbol (v : Sym) (s : State) : Host.Outcome State Fault Refusal := .next (idleSymbol v s)

/-- SYNC_SYMBOL (R174). -/
def execSyncSymbol (v : Sym) (s : State) : Host.Outcome State Fault Refusal := .next (syncSymbol v s)

/-- BYTE_SYMBOL (R175). -/
def execByteSymbol (v : Sym) (s : State) : Host.Outcome State Fault Refusal := toOutcome (byteSymbol v s)

/-- LENGTH_CHECK_EQUAL (R176): the equality part alone; when it passes it writes nothing. -/
def execLengthCheckEqual (s : State) : Host.Outcome State Fault Refusal :=
  if copiesEqual s.copies then .next s
  else .next (rxAbort (.lenMismatch s.copies.c0 s.copies.c1 s.copies.c2) s)

/-- LENGTH_CHECK_RANGE (R177): the range part alone; when it passes it writes nothing. -/
def execLengthCheckRange (s : State) : Host.Outcome State Fault Refusal :=
  if lengthInRange s.cfg s.copies.c0 then .next s else .next (rxAbort (.lenRange s.copies.c0) s)

/-- LENGTH_CHECK_ACCEPT (R178). -/
def execLengthCheckAccept (s : State) : Host.Outcome State Fault Refusal := .next (lengthAccept s)

/-- BODY_BYTE (R179). -/
def execBodyByte (s : State) : Host.Outcome State Fault Refusal := toOutcome (bodyByte s)

/-- MAJ3 (R180): writes nothing; what it returns is kept as the model's result (log 14). -/
def execMaj3 (a b c : Byte) (s : State) : Host.Outcome State Fault Refusal :=
  .next (s.withResult (.byte (maj3 a b c)))

/-- COMPLETE_ACCEPT (R182). -/
def execCompleteAccept (s : State) : Host.Outcome State Fault Refusal := toOutcome (completeAccept s)

/-- COMPLETE_DISCARD (R183). -/
def execCompleteDiscard (s : State) : Host.Outcome State Fault Refusal := .next (completeDiscard s)

end Sys2Proof.Machine
end

