-- ==== Sys2Proof/Machine/SymbolCodec.lean ====
section
/-! DEFINITION. The Symbol Codec (spec/40_symbol_codec.md): the four symbol waveforms and CLASSIFY. The decoder's step
`EDGE` is in Machine/Sampler.lean. -/

namespace Sys2Proof.Machine

/-- The waveform of symbol `00` (R112): one pulse of width `T`. -/
def sym0Wave (T t0 : Nat) : List Transition := [⟨t0, true⟩, ⟨t0 + T, false⟩]

/-- The waveform of symbol `01` (R113). -/
def sym1Wave (T t0 : Nat) : List Transition :=
  [⟨t0, true⟩, ⟨t0 + T, false⟩, ⟨t0 + 2 * T, true⟩, ⟨t0 + 3 * T, false⟩]

/-- The waveform of symbol `10` (R114): pulses `i` = 0 to 2. -/
def sym2Wave (T t0 : Nat) : List Transition :=
  (List.range 3).flatMap fun i => [⟨t0 + 2 * i * T, true⟩, ⟨t0 + (2 * i + 1) * T, false⟩]

/-- The waveform of symbol `11` (R115): pulses `i` = 0 to 3. -/
def sym3Wave (T t0 : Nat) : List Transition :=
  (List.range 4).flatMap fun i => [⟨t0 + 2 * i * T, true⟩, ⟨t0 + (2 * i + 1) * T, false⟩]

/-- The waveform of a symbol. -/
def symWave (T t0 : Nat) (s : Sym) : List Transition :=
  if s = 0 then sym0Wave T t0
  else if s = 1 then sym1Wave T t0
  else if s = 2 then sym2Wave T t0
  else sym3Wave T t0

/-- `D(s) = (2s + 5)T` (R116): the time from a symbol's start to the next symbol's. -/
def symDuration (T : Nat) (s : Sym) : Nat := (2 * s.toNat + 5) * T

/-- SYM0 (R112): operand the start time. -/
def execSym0 (t0 : Time) (s : State) : Host.Outcome State Fault Refusal :=
  .next (s.emitAll (sym0Wave s.cfg.pulseUs (s.instant t0)))

/-- SYM1 (R113). -/
def execSym1 (t0 : Time) (s : State) : Host.Outcome State Fault Refusal :=
  .next (s.emitAll (sym1Wave s.cfg.pulseUs (s.instant t0)))

/-- SYM2 (R114). -/
def execSym2 (t0 : Time) (s : State) : Host.Outcome State Fault Refusal :=
  .next (s.emitAll (sym2Wave s.cfg.pulseUs (s.instant t0)))

/-- SYM3 (R115). -/
def execSym3 (t0 : Time) (s : State) : Host.Outcome State Fault Refusal :=
  .next (s.emitAll (sym3Wave s.cfg.pulseUs (s.instant t0)))

/-- CLASSIFY (R120): writes nothing; what it returns is kept as the model's result (log 14). -/
def execClassify (c : Nat) (s : State) : Host.Outcome State Fault Refusal :=
  .next (s.withResult (.symbol (classify c)))

end Sys2Proof.Machine
end

