-- ==== Sys2Proof/Machine/Transmitter.lean ====
section
/-! DEFINITION. The Frame Transmitter (spec/41_frame_transmitter.md): the emission's waveform and the TxEngine's steps. -/

namespace Sys2Proof.Machine

/-- The waveform of a symbol sequence played back to back from `t0`, then the trailer, a pulse of the SYM0 shape
(R148 to R150). -/
def playSymbols (T : Nat) : (t0 : Nat) → List Sym → List Transition
  | t0, [] => sym0Wave T t0
  | t0, v :: vs => symWave T t0 v ++ playSymbols T (t0 + symDuration T v) vs

/-- `S`, the sum of the symbol values of an emission (R150). -/
def symbolSum (bytes : List Byte) : Nat := ((symbols bytes).map (·.toNat)).sum

/-- `DUR(E) = (20 * len(E) + 2 * S + 5) * T` (R150). -/
def emissionDuration (T : Nat) (bytes : List Byte) : Nat := (20 * bytes.length + 2 * symbolSum bytes + 5) * T

/-- `RX_DISARM()` (R156). -/
def rxDisarm (s : State) : State :=
  let s1 := { s with decLast := none, decCount := 0 }
  if s.rxState ≠ .accepted then rxAbort .txMask s1 else s1

/-- `EMIT_START(ts)` (R151): the frame emitted is `TXBUF[0 .. TX_N-1]` (R145). -/
def emitStart (ts : Time) (s : State) : Except Fault State :=
  let s1 := rxDisarm { s with txPhase := .emitting }
  match readBytes .txBuf s1 0 s1.txN.toNat with
  | .error f => .error f
  | .ok frame =>
    let bytes := emissionBytes frame
    .ok { s1.emitAll (playSymbols s1.cfg.pulseUs (s1.instant ts) (symbols bytes)) with
          txNextT := ts + BitVec.ofNat 32 (emissionDuration s1.cfg.pulseUs bytes) }

/-- `EMIT_END` at `t`, when it is enabled (R152). -/
def emitEnd (t : Time) (s : State) : State :=
  if 0 < s.txLeft.toNat then
    { s with
      txLeft := s.txLeft - 1, txPhase := .backoff
      txNextT := t + BitVec.ofNat 32 s.drawBackoff, drawN := s.drawN + 1 }
  else { s with txPhase := .off, txBusy := false }

/-- EMIT_START (R151). -/
def execEmitStart (ts : Time) (s : State) : Host.Outcome State Fault Refusal := toOutcome (emitStart ts s)

/-- EMIT_END (R152): enabled only when `tx_phase = Emitting` and `t = tx_next_t`; a step that is not enabled does not
happen and changes nothing (log 15). -/
def execEmitEnd (t : Time) (s : State) : Host.Outcome State Fault Refusal :=
  if s.txPhase = .emitting ∧ t = s.txNextT then .next (emitEnd t s) else .next s

/-- BACKOFF_END (R153): enabled only when `tx_phase = Backoff` and `t = tx_next_t` (log 15). -/
def execBackoffEnd (t : Time) (s : State) : Host.Outcome State Fault Refusal :=
  if s.txPhase = .backoff ∧ t = s.txNextT then toOutcome (emitStart t s) else .next s

/-- RX_DISARM (R156). -/
def execRxDisarm (s : State) : Host.Outcome State Fault Refusal := .next (rxDisarm s)

/-- CRC16_UPDATE (R141): writes nothing; what it returns is kept as the model's result (log 14). -/
def execCrc16Update (c : Crc) (b : Byte) (s : State) : Host.Outcome State Fault Refusal :=
  .next (s.withResult (.crc (crc16Update c b)))

end Sys2Proof.Machine
end

