-- ==== Sys2Proof/Machine/HostCommands.lean ====
section
/-! DEFINITION. The host commands (spec/43_host_interface.md R211 to R216). A command is one atomic step at the time the
time base shows; its response bytes go out in the same step. -/

namespace Sys2Proof.Machine

/-- An accepted TX_SEND at `t` (R213). -/
def sendFrame (data : List Byte) (t : Time) (s : State) : Except Fault State :=
  match writeBytes .txBuf s 0 data with
  | .error f => .error f
  | .ok s1 =>
    emitStart t
      { s1 with
        txN := BitVec.ofNat 8 data.length, txLeft := BitVec.ofNat 8 s1.cfg.resendCount, txBusy := true }

/-- `TX_SEND(n, d)` at `t` (R213): the two refused cases leave every element of the block unchanged and are recorded
(spec/60_exceptions.md R236, R238: TX_BUSY first; log 12). -/
def txSend (data : List Byte) (t : Time) (s : State) : Except Fault State :=
  if s.txBusy then .ok (s.recordContract (.txBusy data.length))
  else if data.length < txMin ∨ txMax s.cfg < data.length then .ok (s.recordContract (.txLen data.length))
  else sendFrame data t s

/-- The slot is emptied and the receiver and the decoder are re-armed (R215); the bytes of SLOT are unspecified from here
on, a new draw (log 5). -/
def rearm (s : State) : State :=
  { s with
    slotLen := 0, ready := false, slot := .unspecified s.drawN, drawN := s.drawN + 1
    rxState := .idle, syncSr := 0, syncN := 0, symAcc := 0, symN := 0, copyN := 0, rxIdx := 0
    decLast := none, decCount := 0 }

/-- `RX_RECEIVE` (R215). -/
def rxReceive (s : State) : Except Fault State :=
  if s.ready then
    match readBytes .slot s 0 s.slotLen.toNat with
    | .error f => .error f
    | .ok bytes => .ok (rearm (s.respond (s.slotLen :: bytes)))
  else .ok (s.respond [0x00])

/-- NOP (R212). -/
def execNop (s : State) : Host.Outcome State Fault Refusal := .next s

/-- TX_SEND (R213). -/
def execTxSend (data : List Byte) (s : State) : Host.Outcome State Fault Refusal := toOutcome (txSend data s.now s)

/-- RX_STATUS (R214). -/
def execRxStatus (s : State) : Host.Outcome State Fault Refusal := .next (s.respond [s.status])

/-- RX_RECEIVE (R215). -/
def execRxReceive (s : State) : Host.Outcome State Fault Refusal := toOutcome (rxReceive s)

/-- RESERVED (R216, R98): the block ignores the command; the model records `RESERVED_CMD` and goes on (log 12). -/
def execReserved (op : Byte) (s : State) : Host.Outcome State Fault Refusal :=
  .next (s.recordContract (.reservedCmd op))

end Sys2Proof.Machine
end

