-- ==== Sys2Proof/Machine/Reset.lean ====
section
/-! DEFINITION. The `rst` input (spec/70_reset_and_hazards.md R260). -/

namespace Sys2Proof.Machine

/-- The values of the elements that spec/10_state.md R56 leaves unspecified. -/
structure ResetDraws where
  copies : Copies
  rxLen : Byte
  rxCrc : Crc
  txNextT : Time
  now : Time
  rxAcc : Memory
  slot : Memory
  txBuf : Memory
deriving DecidableEq, Repr

/-- Free values for the unspecified elements, numbered from `k` (log 4, log 5). -/
def freeDraws (k : Nat) : ResetDraws where
  copies := ⟨Config.freeByte k, Config.freeByte (k + 1), Config.freeByte (k + 2)⟩
  rxLen := Config.freeByte (k + 3)
  rxCrc := Config.freeCrc k
  txNextT := Config.freeTime k
  now := Config.freeTime (k + 1)
  rxAcc := .unspecified k
  slot := .unspecified (k + 1)
  txBuf := .unspecified (k + 2)

/-- The output trace cut at `t`: what is scheduled after `t` is removed, and a line that is high falls at once (R260). -/
def cutTrace (w : List Transition) (t : Nat) : List Transition :=
  let past := w.filter (·.time ≤ t)
  if levelAt w t then past ++ [⟨t, false⟩] else past

/-- Every state element at its value in R56, the unspecified ones drawn. The configuration port, the model's clock, its
records, the ports and the coming turns are no elements of the block and stay (log 20). -/
def resetBlock (d : ResetDraws) (s : State) : State :=
  { s with
    decLast := none, decCount := 0
    rxState := .idle, syncSr := 0, syncN := 0, symAcc := 0, symN := 0
    copies := d.copies, copyN := 0, rxLen := d.rxLen, rxCrc := d.rxCrc, rxIdx := 0, rxAcc := d.rxAcc
    ready := false, slot := d.slot, slotLen := 0
    outTrace := cutTrace s.outTrace s.clock
    txPhase := .off, txBusy := false, txBuf := d.txBuf, txN := 0, txLeft := 0, txNextT := d.txNextT
    now := d.now }

/-- RESET (R260), at the instant of the step. -/
def execReset (s : State) : Host.Outcome State Fault Refusal :=
  .next { resetBlock (freeDraws s.drawN) s with drawN := s.drawN + 4 }

end Sys2Proof.Machine
end

