-- ==== Sys2Proof/Machine/Sampler.lean ====
section
/-! DEFINITION. The Sampler step `EDGE` (spec/40_symbol_codec.md R119): the decoder of the Symbol Codec in front of the
Frame Receiver. -/

namespace Sys2Proof.Machine

/-- The edge that comes `dt >= GAP_US` after the last accepted one closes the window of `c` edges; it has already opened
the next window in `s` (R119, R122, R123). -/
def closeWindow (c : Nat) (dt : Time) (s : State) : Except Fault State :=
  if abortUs s.cfg < dt.toNat then .ok (rxAbort (.longGap dt) s)
  else
    match classify c with
    | none => .ok (rxAbort (.badWindow c) s)
    | some v => rxSymbol v s

/-- An accepted or ignored edge while the decoder listens (R119): the interval to the last accepted edge is taken modulo
`2^32`. -/
def decodeEdge (t : Time) (s : State) : Except Fault State :=
  match s.decLast with
  | none => .ok { s with decLast := some t, decCount := 1 }
  | some t0 =>
    let dt := t - t0
    if dt.toNat < debounceUs s.cfg then .ok s
    else if dt.toNat < gapUs s.cfg then .ok { s with decLast := some t, decCount := countEdge s.decCount }
    else closeWindow s.decCount.val dt { s with decLast := some t, decCount := 1 }

/-- `EDGE(t)` (R119): ignored under the receive mask (spec/42_frame_receiver.md R186) and while `ready = 1` (R184). -/
def edge (t : Time) (s : State) : Except Fault State :=
  if s.receiveMask then .ok s
  else if s.ready then .ok s
  else decodeEdge t s

/-- EDGE (R119). -/
def execEdge (t : Time) (s : State) : Host.Outcome State Fault Refusal := toOutcome (edge t s)

end Sys2Proof.Machine
end

