-- ==== Sys2Proof/Machine/Dispatch.lean ====
section
/-! DEFINITION. One arm per operation: the meaning of each row of spec/opcode_table.json. -/

namespace Sys2Proof.Machine

def exec (i : Instr) (s : State) : Host.Outcome State Fault Refusal :=
  match i with
  | .sym0 t0 => Sys2Proof.Machine.execSym0 t0 s
  | .sym1 t0 => Sys2Proof.Machine.execSym1 t0 s
  | .sym2 t0 => Sys2Proof.Machine.execSym2 t0 s
  | .sym3 t0 => Sys2Proof.Machine.execSym3 t0 s
  | .edge t => Sys2Proof.Machine.execEdge t s
  | .nop => Sys2Proof.Machine.execNop s
  | .txSend data => Sys2Proof.Machine.execTxSend data s
  | .rxStatus => Sys2Proof.Machine.execRxStatus s
  | .rxReceive => Sys2Proof.Machine.execRxReceive s
  | .reserved op => Sys2Proof.Machine.execReserved op s
  | .classify c => Sys2Proof.Machine.execClassify c s
  | .crc16Update c b => Sys2Proof.Machine.execCrc16Update c b s
  | .emitStart ts => Sys2Proof.Machine.execEmitStart ts s
  | .emitEnd t => Sys2Proof.Machine.execEmitEnd t s
  | .backoffEnd t => Sys2Proof.Machine.execBackoffEnd t s
  | .rxDisarm => Sys2Proof.Machine.execRxDisarm s
  | .rxSymbol v => Sys2Proof.Machine.execRxSymbol v s
  | .rxAbort r => Sys2Proof.Machine.execRxAbort r s
  | .idleSymbol v => Sys2Proof.Machine.execIdleSymbol v s
  | .syncSymbol v => Sys2Proof.Machine.execSyncSymbol v s
  | .byteSymbol v => Sys2Proof.Machine.execByteSymbol v s
  | .lengthCheckEqual => Sys2Proof.Machine.execLengthCheckEqual s
  | .lengthCheckRange => Sys2Proof.Machine.execLengthCheckRange s
  | .lengthCheckAccept => Sys2Proof.Machine.execLengthCheckAccept s
  | .bodyByte => Sys2Proof.Machine.execBodyByte s
  | .maj3 a b c => Sys2Proof.Machine.execMaj3 a b c s
  | .completeAccept => Sys2Proof.Machine.execCompleteAccept s
  | .completeDiscard => Sys2Proof.Machine.execCompleteDiscard s
  | .reset => Sys2Proof.Machine.execReset s

end Sys2Proof.Machine
end

