-- ==== Sys2Proof/WellFormed.lean ====
section
/-! DEFINITION. The operand ranges the spec gives the operations. -/

namespace Sys2Proof

/-- A TX_SEND's count is one byte (spec/30_encoding.md R93, R96), a reserved command byte is 0x04 to 0xFF (R98), an edge
count is 1 to 9 (spec/40_symbol_codec.md R120). Every other operand has its range in its type. -/
def Instr.wellFormed : Instr → Bool
  | .txSend data => decide (data.length ≤ 255)
  | .reserved op => decide (4 ≤ op.toNat)
  | .classify c => decide (1 ≤ c) && decide (c ≤ 9)
  | .sym0 _ => true
  | .sym1 _ => true
  | .sym2 _ => true
  | .sym3 _ => true
  | .edge _ => true
  | .nop => true
  | .rxStatus => true
  | .rxReceive => true
  | .crc16Update _ _ => true
  | .emitStart _ => true
  | .emitEnd _ => true
  | .backoffEnd _ => true
  | .rxDisarm => true
  | .rxSymbol _ => true
  | .rxAbort _ => true
  | .idleSymbol _ => true
  | .syncSymbol _ => true
  | .byteSymbol _ => true
  | .lengthCheckEqual => true
  | .lengthCheckRange => true
  | .lengthCheckAccept => true
  | .bodyByte => true
  | .maj3 _ _ _ => true
  | .completeAccept => true
  | .completeDiscard => true
  | .reset => true

end Sys2Proof
end

