-- ==== Sys2Proof/Decode.lean ====
section
/-! DEFINITION. The encodings of spec/30_encoding.md: the host command port's byte stream (R93, R98, R101) and the 2-bit
symbols (R90). `EDGE` is a wire event (R94) and the internal operations have no encoding (R97). -/

namespace Sys2Proof

/-- Why no command can be read from the bytes on the host command port. -/
inductive DecodeError where
  /-- There is no command byte. -/
  | noCommandByte
  /-- A TX_SEND without its count byte. -/
  | noCountByte
  /-- A TX_SEND with fewer data bytes than its count. -/
  | dataMissing
deriving DecidableEq, Repr

/-- One row of the table of R93 as spec/opcode_table.json gives it: a command byte `op` is in the row when
`op & mask = pattern`. -/
structure CommandRow where
  mask : Byte
  pattern : Byte
  /-- The row is one of the six of the reserved range. -/
  isReserved : Bool
deriving DecidableEq, Repr

def CommandRow.covers (r : CommandRow) (op : Byte) : Bool := decide (op &&& r.mask = r.pattern)

/-- The ten host command rows of spec/opcode_table.json, in its order: NOP, TX_SEND, RX_STATUS, RX_RECEIVE, RESERVED. -/
def commandRows : List CommandRow :=
  [⟨0xFF, 0x00, false⟩, ⟨0xFF, 0x01, false⟩, ⟨0xFF, 0x02, false⟩, ⟨0xFF, 0x03, false⟩,
   ⟨0xFC, 0x04, true⟩, ⟨0xF8, 0x08, true⟩, ⟨0xF0, 0x10, true⟩, ⟨0xE0, 0x20, true⟩, ⟨0xC0, 0x40, true⟩,
   ⟨0x80, 0x80, true⟩]

/-- TX_SEND's operands: the count byte `n`, then `n` data bytes (R93). Answers the data and the bytes that follow. -/
def decodeSendOperands : List Byte → Except DecodeError (List Byte × List Byte)
  | [] => .error .noCountByte
  | n :: d => if d.length < n.toNat then .error .dataMissing else .ok (d.take n.toNat, d.drop n.toNat)

/-- Read one command from the front of the host command port's byte stream (R93, R211); the bytes that follow stay for
the next command (R216, corner cases). -/
def decodeCommand : List Byte → Except DecodeError (Instr × List Byte)
  | [] => .error .noCommandByte
  | op :: rest =>
    if op = 0x00 then .ok (.nop, rest)
    else if op = 0x01 then
      match decodeSendOperands rest with
      | .ok (data, rest') => .ok (.txSend data, rest')
      | .error e => .error e
    else if op = 0x02 then .ok (.rxStatus, rest)
    else if op = 0x03 then .ok (.rxReceive, rest)
    else .ok (.reserved op, rest)

/-- The symbol row `s` of R90, played from `t0`. -/
def decodeSymbol (t0 : Time) (s : Sym) : Instr :=
  if s = 0 then .sym0 t0 else if s = 1 then .sym1 t0 else if s = 2 then .sym2 t0 else .sym3 t0

/-- What an operation is encoded as. -/
inductive Encoding where
  /-- A 2-bit symbol (R90). -/
  | symbol (s : Sym)
  /-- The bytes of one host command (R93). -/
  | command (bytes : List Byte)
  /-- A wire event or an internal operation: it has no encoding (R94, R97). -/
  | unencoded
deriving DecidableEq, Repr

/-- The encoding of an operation, from the tables of R90 and R93. -/
def encode : Instr → Encoding
  | .sym0 _ => .symbol 0
  | .sym1 _ => .symbol 1
  | .sym2 _ => .symbol 2
  | .sym3 _ => .symbol 3
  | .nop => .command [0x00]
  | .txSend data => .command (0x01 :: BitVec.ofNat 8 data.length :: data)
  | .rxStatus => .command [0x02]
  | .rxReceive => .command [0x03]
  | .reserved op => .command [op]
  | .edge _ => .unencoded
  | .classify _ => .unencoded
  | .crc16Update _ _ => .unencoded
  | .emitStart _ => .unencoded
  | .emitEnd _ => .unencoded
  | .backoffEnd _ => .unencoded
  | .rxDisarm => .unencoded
  | .rxSymbol _ => .unencoded
  | .rxAbort _ => .unencoded
  | .idleSymbol _ => .unencoded
  | .syncSymbol _ => .unencoded
  | .byteSymbol _ => .unencoded
  | .lengthCheckEqual => .unencoded
  | .lengthCheckRange => .unencoded
  | .lengthCheckAccept => .unencoded
  | .bodyByte => .unencoded
  | .maj3 _ _ _ => .unencoded
  | .completeAccept => .unencoded
  | .completeDiscard => .unencoded
  | .reset => .unencoded

/-- The length of a host command in bytes (R101): `2 + n` for TX_SEND, 1 for every other command. -/
def commandLength : Instr → Nat
  | .txSend data => 2 + data.length
  | _ => 1

/-- The longest command: TX_SEND with 255 data bytes. -/
def longestCommand : Nat := 257

/-- `count` bytes of the number `w`, the byte of bits 7..0 first. -/
def wordBytes : (count : Nat) → (w : Nat) → List Byte
  | 0, _ => []
  | count + 1, w => BitVec.ofNat 8 w :: wordBytes count (w / 256)

/-- The bytes of an opcode table word of `nbits` bits on the host command port, zero bytes after it up to the longest
command. A row of fewer than 8 bits takes one byte. -/
def tableWordBytes (nbits w : Nat) : List Byte :=
  wordBytes (max ((nbits + 7) / 8) longestCommand) (w % 2 ^ (8 * ((nbits + 7) / 8)))

/-- The command the decoder reads from a word of spec/opcode_table.json. The 2-bit symbol rows share their values 0 to 3
with the commands 0x00 to 0x03 and no bit tells them apart: the words are read as the host command port reads them
(DESIGN CHOICE, safe, log 17). -/
def decodeTableWord (nbits w : Nat) : Option Instr :=
  if nbits = 0 then none else
  match decodeCommand (tableWordBytes nbits w) with
  | .ok (i, _) => some i
  | .error _ => none

end Sys2Proof
end

