-- ==== Sys2Proof/Machine/Fetch.lean ====
section
/-! DEFINITION. Which agent moves next, and what it does (spec/00_scope.md R12, R13). -/

namespace Sys2Proof.Machine

/-- What comes next: an operation in the state at its instant, or only the passing of time. -/
inductive Fetched where
  | run (i : Instr) (s : State)
  | idle (s : State)
deriving DecidableEq, Repr

/-- Microseconds until the TxEngine's next step (spec/10_state.md R49); none when `tx_phase = Off`. -/
def State.txDue (s : State) : Option Nat :=
  if s.txPhase = .off then none else some (s.txNextT - s.now).toNat

/-- The coming turns after a TxEngine step due in `d` microseconds: the first of them waits that much less, and when it
comes at the same instant, one of the steps that go before it is done (R13; log 9). -/
def waitLess (d : Nat) : List Turn → List Turn
  | [] => []
  | u :: us => { u with wait := u.wait - d, txFirst := if d = u.wait then u.txFirst - 1 else u.txFirst } :: us

/-- Whether a TxEngine step due in `d` microseconds comes before the first coming turn: when it is due earlier, and at
the same instant while the turn lets TxEngine steps go first (R13; log 9). -/
def txBeforeTurn (d : Nat) : List Turn → Bool
  | [] => true
  | u :: _ => decide (d < u.wait) || (decide (d = u.wait) && decide (0 < u.txFirst))

/-- The TxEngine's step, at its instant: the end of the emission or of the backoff (R46, spec/41_frame_transmitter.md R152, R153). -/
def fetchTx (d : Nat) (s : State) : Fetched :=
  let s1 := { s with inputs := waitLess d s.inputs }.advance d
  if s.txPhase = .emitting then .run (.emitEnd s1.now) s1 else .run (.backoffEnd s1.now) s1

/-- The Host's turn: the next command of the host command port (spec/43_host_interface.md R211). While the port holds no
whole command the Host takes no step (log 10). -/
def fetchCommand (s : State) : Fetched :=
  match decodeCommand s.hostIn with
  | .ok (i, rest) => .run i { s with hostIn := rest }
  | .error _ => .idle s

/-- The first coming turn, at its instant. -/
def fetchTurn (s : State) : Fetched :=
  match s.inputs with
  | [] => .idle s
  | u :: us =>
    let s1 := { s with inputs := us }.advance u.wait
    match u.event with
    | .edge => .run (.edge s1.now) s1
    | .host => fetchCommand s1
    | .reset => .run .reset s1

/-- What comes next. With no turn to come and the TxEngine off, nothing does (log 11). -/
def fetch (s : State) : Fetched :=
  match s.txDue with
  | none => fetchTurn s
  | some d => if txBeforeTurn d s.inputs then fetchTx d s else fetchTurn s

end Sys2Proof.Machine
end

