-- ==== Sys2Proof/Machine/Step.lean ====
section
/-! DEFINITION. One step of the machine: one atomic step of one agent (spec/00_scope.md R12, R13). -/

namespace Sys2Proof.Machine

/-- One step. A configuration that breaks R10 is refused; otherwise the operation that comes next runs. -/
def step (s : State) : Host.Outcome State Fault Refusal :=
  if configValid s.cfg then
    match fetch s with
    | .run i s1 => exec i s1
    | .idle s1 => .next s1
  else .refused .config

/-- The state in which the next step runs the command of a table word: its bytes are first on the host command port and
the Host's turn comes at once, before anything else (log 18). -/
def State.withFetchWord (s : State) (nbits w : Nat) : State :=
  { s with
    hostIn := tableWordBytes nbits w ++ s.hostIn
    inputs := ⟨0, 0, .host⟩ :: s.inputs }

end Sys2Proof.Machine
end

