-- ==== Sys2Proof/Safety.lean ====
section
/-! DEFINITION. The terms that claims about the machine use: runs of operations, the machine's invariants, and what a run
inside the host's contract is. -/

namespace Sys2Proof.Machine

/-- Operations one after another, stopping at the first fault or refusal. -/
def execAll : List Instr → State → Host.Outcome State Fault Refusal
  | [], s => .next s
  | i :: is, s =>
    match exec i s with
    | .next s' => execAll is s'
    | .fault f => .fault f
    | .refused r => .refused r

/-- Steps of the machine, stopping at the first fault or refusal. -/
def runSteps : Nat → State → Host.Outcome State Fault Refusal
  | 0, s => .next s
  | k + 1, s =>
    match step s with
    | .next s' => runSteps k s'
    | .fault f => .fault f
    | .refused r => .refused r

/-- No host-contract error has been recorded: "a run with one recorded is outside every claim the model is used to prove"
(spec/60_exceptions.md R236). -/
def State.withinContract (s : State) : Prop := s.contract = []

/-- The bytes `0 .. n-1` of an array have been written. -/
def covers (m : Memory) (n : Nat) : Prop := ∀ i, i < n → m.written i = true

/-- The bytes of an array are the given ones, from index 0 on. -/
def holds (m : Memory) (bytes : List Byte) : Prop := ∀ i, i < bytes.length → some (m.read i) = bytes[i]?

/-- The same state with other draws behind the unspecified bytes of the three arrays (spec/10_state.md R56). -/
def redrawn (a b c : Nat) (s : State) : State :=
  { s with
    rxAcc := { s.rxAcc with drawn := a }, slot := { s.slot with drawn := b }, txBuf := { s.txBuf with drawn := c } }

/-- An array is in canonical form and inside its size (spec/20_memory.md R70). -/
def arrayOk (c : Config) (m : Memory) : Prop := m.wf = true ∧ ∀ x ∈ m.cells, x.1 < bufSize c

/-- The invariant of the block: what the rules of spec/10_state.md say of its elements between steps. -/
structure Inv (s : State) : Prop where
  /-- R10. -/
  config : configValid s.cfg = true
  txBufOk : arrayOk s.cfg s.txBuf
  rxAccOk : arrayOk s.cfg s.rxAcc
  slotOk : arrayOk s.cfg s.slot
  /-- R34: no window is open exactly while no edge has been accepted. -/
  window : s.decLast = none ↔ s.decCount = 0
  /-- R36. -/
  idle : s.rxState = .idle → s.syncSr = 0 ∧ s.syncN = 0
  /-- R36: in `Syncing` at least one symbol has been received. -/
  syncing : s.rxState = .syncing → 1 ≤ s.syncN.val
  /-- R37, R38, R41: no byte is being assembled outside `ReadingLength` and `ReadingBody`. -/
  searching : s.rxState = .idle ∨ s.rxState = .syncing → s.symAcc = 0 ∧ s.symN = 0 ∧ s.copyN = 0 ∧ s.rxIdx = 0
  /-- R41. -/
  index : s.rxIdx ≤ maxFrame s.cfg
  /-- R39, R41, R57: in `ReadingBody` the length is legal, the index below it, and every logical-frame byte below the index
  is in RXACC. -/
  reading : s.rxState = .readingBody →
    lengthInRange s.cfg s.rxLen = true ∧ s.rxIdx < s.rxLen.toNat ∧
      covers s.rxAcc (min s.rxIdx (s.rxLen.toNat - 2))
  /-- R42. -/
  readyAccepted : s.ready = true ↔ s.rxState = .accepted
  /-- R43: an empty slot has length 0. -/
  slotEmpty : s.ready = false → s.slotLen = 0
  /-- R43, R57: a full slot holds the logical frame of a legal length. -/
  slotFull : s.ready = true →
    lengthInRange s.cfg s.rxLen = true ∧ s.slotLen = s.rxLen - 2 ∧ covers s.slot s.slotLen.toNat
  /-- R46. -/
  busyPhase : s.txBusy = true ↔ s.txPhase ≠ .off
  /-- R47, R57, spec/43_host_interface.md R213: while a send is in progress a legal frame is latched. -/
  sending : s.txPhase ≠ .off →
    txMin ≤ s.txN.toNat ∧ s.txN.toNat ≤ txMax s.cfg ∧ covers s.txBuf s.txN.toNat
  /-- R48. -/
  left : s.txLeft.toNat ≤ s.cfg.resendCount

/-- The level a trace ends at. -/
def finalLevel (w : List Transition) : Bool := w.foldl (fun _ e => e.level) false

/-- The bound of spec/70_reset_and_hazards.md R275 on the duration of an emission, at the longest frame. -/
def longestEmissionUs (c : Config) : Nat :=
  (20 * (6 + 3 * maxFrame c) + 41 + 72 * (maxFrame c + 1)) * c.pulseUs

/-- The invariant of the output line: no transition is left to come outside an emission, an emission is over `QUIET_US`
before its end step, and the line ends low. It needs every emission to be shorter than the time base's wrap (log 8). -/
structure LineInv (s : State) : Prop where
  inv : Inv s
  fits : longestEmissionUs s.cfg < 2 ^ 32
  low : finalLevel s.outTrace = false
  past : s.txPhase ≠ .emitting → ∀ e ∈ s.outTrace, e.time ≤ s.clock
  coming : s.txPhase = .emitting →
    ∀ e ∈ s.outTrace, e.time + quietUs s.cfg ≤ s.clock + (s.txNextT - s.now).toNat

/-- The receiver and decoder after RX_DISARM (spec/41_frame_transmitter.md R156), written out. -/
def disarmed (s : State) : State :=
  if s.rxState = .accepted then { s with decLast := none, decCount := 0 }
  else
    { s with
      decLast := none, decCount := 0, rxState := .idle, syncSr := 0, syncN := 0, symAcc := 0, symN := 0
      copyN := 0, rxIdx := 0, trace := s.trace ++ [.txMask] }

/-- The state in which an emission of `frame` has been started at `ts` (R151), written out. -/
def emitting (frame : List Byte) (ts : Time) (s : State) : State :=
  { disarmed s with
    txPhase := .emitting
    outTrace := s.outTrace ++ playSymbols s.cfg.pulseUs (s.instant ts) (symbols (emissionBytes frame))
    txNextT := ts + BitVec.ofNat 32 (emissionDuration s.cfg.pulseUs (emissionBytes frame)) }

/-- The time of the coming turn's step: the state in which its operation runs. -/
def atTurn (u : Turn) (us : List Turn) (s : State) : State :=
  { s with now := s.now + BitVec.ofNat 32 u.wait, clock := s.clock + u.wait, inputs := us }

/-- The coming turn is applied before the TxEngine's next step (spec/00_scope.md R13). -/
def turnFirst (u : Turn) (s : State) : Prop :=
  s.txPhase = .off ∨ u.wait < (s.txNextT - s.now).toNat ∨
    (u.wait = (s.txNextT - s.now).toNat ∧ u.txFirst = 0)

end Sys2Proof.Machine
end

