-- ==== Sys2Proof/Certificates/Slice0/Obligations.lean ====
section
/-! DEFINITION. The statements about the block. Each docstring names the rule of spec/ it formalises, or the log entry for
what is the model's own choice. -/

open Sys2Proof Sys2Proof.Machine

/-! ### Encodings -/

/-- For every well-formed operation: a host command's bytes decode back to it with every operand and leave the bytes that
follow; a symbol's code is the code of that symbol; an operation without an encoding is never decoded (R90, R93, R97, R101). -/
def Obligations.DecodingInvertsEncoding : Prop :=
  ∀ i : Instr, i.wellFormed = true →
    match encode i with
    | .command bytes => ∀ rest, decodeCommand (bytes ++ rest) = .ok (i, rest)
    | .symbol v => ∃ t0, decodeSymbol t0 v = i
    | .unencoded => ∀ bytes rest, decodeCommand bytes ≠ .ok (i, rest)

/-- Whatever the command port's decoder answers is well formed, and the bytes it took are that command's encoding, of the
length R101 gives (R93, R98, R101). -/
def Obligations.DecodedCommandsReencode : Prop :=
  ∀ (bytes : List Byte) (i : Instr) (rest : List Byte), decodeCommand bytes = .ok (i, rest) →
    i.wellFormed = true ∧ ∃ cmd, encode i = .command cmd ∧ cmd ++ rest = bytes ∧
      cmd.length = (match i with | .txSend data => 2 + data.length | _ => 1)

/-- The command bytes of R93, written out, and the rejections by name of incomplete commands. -/
def Obligations.CommandBytesOfTheTable : Prop :=
  decodeCommand [0x00, 0x02] = .ok (.nop, [0x02]) ∧
  decodeCommand [0x01, 0x04, 0xBE, 0xEF, 0x01, 0x05, 0x03] = .ok (.txSend [0xBE, 0xEF, 0x01, 0x05], [0x03]) ∧
  decodeCommand [0x02] = .ok (.rxStatus, []) ∧
  decodeCommand [0x03] = .ok (.rxReceive, []) ∧
  decodeCommand [0x04] = .ok (.reserved 0x04, []) ∧
  decodeCommand [0xFF, 0x00] = .ok (.reserved 0xFF, [0x00]) ∧
  decodeCommand [] = .error .noCommandByte ∧
  decodeCommand [0x01] = .error .noCountByte ∧
  decodeCommand [0x01, 0x02, 0xAA] = .error .dataMissing

/-- The ten host command rows of the opcode table cover every byte exactly once, and the reserved ones are the bytes that
decode to RESERVED (R93, R97, R98). -/
def Obligations.EveryByteIsInOneCommandRow : Prop :=
  ∀ op : Byte, ∃ r, commandRows.filter (fun r => r.covers op) = [r] ∧
    (r.isReserved = true ↔ ∀ rest, decodeCommand (op :: rest) = .ok (.reserved op, rest))

/-! ### One step -/

/-- A step at the Host's turn runs the command that the bytes of the command port decode to, at the instant of the turn,
with those bytes taken from the port (R12, R13, R211). -/
def Obligations.StepRunsTheHostsCommand : Prop :=
  ∀ (s : State) (u : Turn) (us : List Turn) (i : Instr) (rest : List Byte),
    configValid s.cfg = true → s.inputs = u :: us → turnFirst u s → u.event = .host →
    decodeCommand s.hostIn = .ok (i, rest) →
    step s = exec i { atTurn u us s with hostIn := rest }

/-- A step at the Channel's turn runs EDGE at the instant of the turn; at a turn of the `rst` input it runs RESET
(R12, R13, R94, R260). -/
def Obligations.StepRunsEdgesAndResets : Prop :=
  ∀ (s : State) (u : Turn) (us : List Turn),
    configValid s.cfg = true → s.inputs = u :: us → turnFirst u s →
    (u.event = .edge → step s = exec (.edge (atTurn u us s).now) (atTurn u us s)) ∧
    (u.event = .reset → step s = exec .reset (atTurn u us s))

/-- When no coming turn is first, the step is the TxEngine's, at the time `tx_next_t`: EMIT_END while emitting, BACKOFF_END
in a backoff (R46, R49, R152, R153). -/
def Obligations.StepRunsTheTxEngineAtItsTime : Prop :=
  ∀ (s : State) (d : Nat), configValid s.cfg = true → d = (s.txNextT - s.now).toNat →
    (s.inputs = [] ∨ ∃ u us, s.inputs = u :: us ∧ ¬ turnFirst u s) →
    (s.txPhase = .emitting →
      step s = exec (.emitEnd s.txNextT)
        { s with now := s.txNextT, clock := s.clock + d, inputs := waitLess d s.inputs }) ∧
    (s.txPhase = .backoff →
      step s = exec (.backoffEnd s.txNextT)
        { s with now := s.txNextT, clock := s.clock + d, inputs := waitLess d s.inputs })

/-- The model's own choices (log 10, log 11): with no turn to come and the TxEngine off nothing happens; a Host turn without
a whole command on the port only lets time pass. -/
def Obligations.StepWithNothingToRun : Prop :=
  (∀ s : State, configValid s.cfg = true → s.inputs = [] → s.txPhase = .off → step s = .next s) ∧
  (∀ (s : State) (u : Turn) (us : List Turn) (e : DecodeError),
    configValid s.cfg = true → s.inputs = u :: us → turnFirst u s → u.event = .host →
    decodeCommand s.hostIn = .error e → step s = .next (atTurn u us s))

/-- A configuration that breaks a constraint of R9 is refused: no step is defined for it (R10). -/
def Obligations.InvalidConfigurationIsRefused : Prop :=
  ∀ s : State,
    ¬ (2 ≤ s.cfg.pulseUs ∧ 8 * s.cfg.pulseUs < 2 ^ 32 ∧ s.cfg.maxPayload ≤ 249 ∧ s.cfg.resendCount ≤ 255 ∧
        s.cfg.backoffMinUs ≤ s.cfg.backoffMaxUs ∧ s.cfg.backoffMaxUs < 2 ^ 31) →
    step s = .refused .config

/-! ### Invariants -/

/-- The state after reset keeps the block's invariant and the output line's. -/
def Obligations.ResetStateKeepsTheInvariants : Prop := Inv State.reset ∧ LineInv State.reset

/-- Every step keeps the block's invariant: what spec/10_state.md says of its elements between steps (R34 to R48). -/
def Obligations.StepKeepsTheInvariant : Prop :=
  ∀ s s' : State, Inv s → step s = .next s' → Inv s'

/-- From every state that keeps the invariant, every step is taken: no array index at or above an array's size is formed
(R71), RX_SYMBOL never meets `Accepted` (R171), and no command or edge stops the block (R234). And no unspecified byte of the
three arrays is read before it is written (R57): with other free values behind them the step gives the same state, but for
those free values. -/
def Obligations.InvariantStatesAlwaysStep : Prop :=
  ∀ s : State, Inv s → ∃ s', step s = .next s' ∧
    ∀ a b c : Nat, ∃ a' b' c', step (redrawn a b c s) = .next (redrawn a' b' c' s')

/-- Every step keeps the output line's invariant (R44, R117, R150, R260). The bound on the duration of an emission that it
holds is a premise the spec states as a fact and its parameter bounds do not give (log 8). -/
def Obligations.StepKeepsTheOutputLineInvariant : Prop :=
  ∀ s s' : State, LineInv s → step s = .next s' → LineInv s'

/-- The output line is low whenever `tx_phase` is not `Emitting` (R44, R117). -/
def Obligations.OutputLineIsLowOutsideEmissions : Prop :=
  ∀ s : State, LineInv s → s.txPhase ≠ .emitting → s.txOut = false

/-- The configuration never changes (R9, R52). -/
def Obligations.ConfigurationNeverChanges : Prop :=
  ∀ s s' : State, step s = .next s' → s'.cfg = s.cfg

/-- The record of host-contract errors is never cleared (R236), and a step adds at most one entry to it and at most one to the
abort trace (R238). -/
def Obligations.StepAddsAtMostOneRecord : Prop :=
  ∀ s s' : State, step s = .next s' →
    (s'.contract = s.contract ∨ ∃ r, s'.contract = s.contract ++ [r]) ∧
    (s'.trace = s.trace ∨ ∃ r, s'.trace = s.trace ++ [r])

/-- `ready` falls only at RX_RECEIVE or RESET (R42) and `tx_busy` rises only at TX_SEND (R46). -/
def Obligations.FlagsChangeOnlyAtTheirOperations : Prop :=
  ∀ (s s1 s' : State) (i : Instr), fetch s = .run i s1 → exec i s1 = .next s' →
    (s.ready = true → s'.ready = true ∨ i = .rxReceive ∨ i = .reset) ∧
    (s.txBusy = false → s'.txBusy = false ∨ ∃ data, i = .txSend data)

/-- The receive hand-off (R81): outside RX_RECEIVE and RESET, SLOT and SLOT_LEN change only in a Sampler step that also
raises `ready`; while `ready = 1` RXACC does not change either. -/
def Obligations.SlotChangesOnlyWithReady : Prop :=
  ∀ (s s1 s' : State) (i : Instr), fetch s = .run i s1 → exec i s1 = .next s' → i ≠ .rxReceive → i ≠ .reset →
    (s'.slot = s.slot ∧ s'.slotLen = s.slotLen ∨
      (∃ t, i = .edge t) ∧ s.ready = false ∧ s'.ready = true) ∧
    (s.ready = true → s'.rxAcc = s.rxAcc)

/-- The transmit hand-off (R47, R82): while `tx_busy = 1` only RESET changes TXBUF or TX_N. -/
def Obligations.LatchedFrameStaysWhileBusy : Prop :=
  ∀ (s s1 s' : State) (i : Instr), fetch s = .run i s1 → exec i s1 = .next s' → i ≠ .reset →
    s.txBusy = true → s'.txBuf = s.txBuf ∧ s'.txN = s.txN

/-- No receive-side error changes `ready`, SLOT, SLOT_LEN or any transmitter element, and the receiver is in `Idle` after it
(R233, R187): the frame of every edge that records an abort. -/
def Obligations.ReceiveErrorsAreInvisible : Prop :=
  ∀ (t : Time) (s s' : State), exec (.edge t) s = .next s' → s'.trace ≠ s.trace →
    s'.rxState = .idle ∧ s'.ready = s.ready ∧ s'.slot = s.slot ∧ s'.slotLen = s.slotLen ∧
      s'.txPhase = s.txPhase ∧ s'.txBusy = s.txBusy ∧ s'.txBuf = s.txBuf ∧ s'.txN = s.txN ∧ s'.txLeft = s.txLeft ∧
      s'.txNextT = s.txNextT ∧ s'.outTrace = s.outTrace ∧ s'.hostOut = s.hostOut ∧ s'.contract = s.contract

/-! ### Symbol Codec -/

/-- The four symbol waveforms, as transitions appended to the output trace, when the next symbol or the trailer starts, and the
trailer's shape (R112 to R116, R149); nothing else changes. That a symbol can be played alone, in any state, is the model's
choice (log 26: the spec plays it inside an emission only), and so is the instant on the model's clock that its start time
stands for (log 7). -/
def Obligations.SymbolsPlayTheirWaveforms : Prop :=
  ∀ (t0 : Time) (s : State) (T a : Nat), T = s.cfg.pulseUs → a = s.clock + (t0 - s.now).toNat →
    exec (.sym0 t0) s = .next { s with outTrace := s.outTrace ++ [⟨a, true⟩, ⟨a + T, false⟩] } ∧
    exec (.sym1 t0) s = .next { s with outTrace := s.outTrace ++
      [⟨a, true⟩, ⟨a + T, false⟩, ⟨a + 2 * T, true⟩, ⟨a + 3 * T, false⟩] } ∧
    exec (.sym2 t0) s = .next { s with outTrace := s.outTrace ++
      [⟨a, true⟩, ⟨a + T, false⟩, ⟨a + 2 * T, true⟩, ⟨a + 3 * T, false⟩, ⟨a + 4 * T, true⟩, ⟨a + 5 * T, false⟩] } ∧
    exec (.sym3 t0) s = .next { s with outTrace := s.outTrace ++
      [⟨a, true⟩, ⟨a + T, false⟩, ⟨a + 2 * T, true⟩, ⟨a + 3 * T, false⟩, ⟨a + 4 * T, true⟩, ⟨a + 5 * T, false⟩,
       ⟨a + 6 * T, true⟩, ⟨a + 7 * T, false⟩] } ∧
    playSymbols T a [] = [⟨a, true⟩, ⟨a + T, false⟩] ∧
    (∀ vs, playSymbols T a (0 :: vs) = sym0Wave T a ++ playSymbols T (a + 5 * T) vs) ∧
    (∀ vs, playSymbols T a (1 :: vs) = sym1Wave T a ++ playSymbols T (a + 7 * T) vs) ∧
    (∀ vs, playSymbols T a (2 :: vs) = sym2Wave T a ++ playSymbols T (a + 9 * T) vs) ∧
    (∀ vs, playSymbols T a (3 :: vs) = sym3Wave T a ++ playSymbols T (a + 11 * T) vs)

/-- CLASSIFY (R120): counts 2, 4, 6, 8 give symbols 0 to 3, every other count is invalid. That the value
is left in the model's own field `result`, and nothing else is written, is the model's choice (log 14). -/
def Obligations.ClassifyMapsEvenCountsToSymbols : Prop :=
  ∀ (c : Nat) (s : State), ∃ v : Option Sym,
    exec (.classify c) s = .next { s with result := .symbol v } ∧
    (c = 2 → v = some 0) ∧ (c = 4 → v = some 1) ∧ (c = 6 → v = some 2) ∧ (c = 8 → v = some 3) ∧
    (c ≠ 2 → c ≠ 4 → c ≠ 6 → c ≠ 8 → v = none)

/-- EDGE, branch by branch (R119, R121 to R124; R184, R186). -/
def Obligations.EdgeFollowsTheDecoder : Prop :=
  ∀ (t : Time) (s : State),
    (s.txPhase = .emitting ∨ s.ready = true → exec (.edge t) s = .next s) ∧
    (s.txPhase ≠ .emitting → s.ready = false → s.decLast = none →
      exec (.edge t) s = .next { s with decLast := some t, decCount := 1 }) ∧
    (∀ (t0 : Time) (T dt : Nat), s.txPhase ≠ .emitting → s.ready = false → s.decLast = some t0 →
      T = s.cfg.pulseUs → dt = (t - t0).toNat →
      (dt < T / 2 → exec (.edge t) s = .next s) ∧
      (T / 2 ≤ dt → dt < 2 * T → ∃ c : Fin 10, c.val = min (s.decCount.val + 1) 9 ∧
        exec (.edge t) s = .next { s with decLast := some t, decCount := c }) ∧
      (T / 2 ≤ dt → 2 * T ≤ dt → 8 * T < dt →
        exec (.edge t) s = exec (.rxAbort (.longGap (t - t0))) { s with decLast := some t, decCount := 1 }) ∧
      (T / 2 ≤ dt → 2 * T ≤ dt → dt ≤ 8 * T →
        (∀ v : Sym, s.decCount.val = 2 * (v.toNat + 1) →
          exec (.edge t) s = exec (.rxSymbol v) { s with decLast := some t, decCount := 1 }) ∧
        ((∀ v : Sym, s.decCount.val ≠ 2 * (v.toNat + 1)) →
          exec (.edge t) s =
            exec (.rxAbort (.badWindow s.decCount.val)) { s with decLast := some t, decCount := 1 })))

/-- A receiver decodes every symbol of an undisturbed emission whose pulse parameter is inside the tolerance (R125, the "if"
direction, R128): from a window just opened at `t`, the symbol's other edges and the next symbol's first edge deliver exactly
that symbol. -/
def Obligations.WindowDeliversItsSymbol : Prop :=
  ∀ (s : State) (v : Sym) (t Ttx : Nat), configValid s.cfg = true →
    s.txPhase ≠ .emitting → s.ready = false →
    s.decLast = some (BitVec.ofNat 32 t) → s.decCount = 1 →
    (s.cfg.pulseUs + 1) / 2 ≤ Ttx → Ttx ≤ 2 * s.cfg.pulseUs - 1 →
    execAll (((symWave Ttx t v).tail.map fun e => Instr.edge (BitVec.ofNat 32 e.time)) ++
        [.edge (BitVec.ofNat 32 (t + symDuration Ttx v))]) s =
      exec (.rxSymbol v) { s with decLast := some (BitVec.ofNat 32 (t + symDuration Ttx v)), decCount := 1 }

/-- Outside the tolerance the symbol 0 is not decoded (R125, the "only if" direction): from a window just opened in `Idle`, its
second edge and the next symbol's first edge leave the receiver in `Idle`. -/
def Obligations.SymbolZeroIsLostOutsideTheTolerance : Prop :=
  ∀ (s : State) (t Ttx : Nat), configValid s.cfg = true → s.txPhase ≠ .emitting → s.ready = false → s.rxState = .idle →
    s.decLast = some (BitVec.ofNat 32 t) → s.decCount = 1 →
    Ttx < (s.cfg.pulseUs + 1) / 2 ∨ 2 * s.cfg.pulseUs - 1 < Ttx → 4 * Ttx < 2 ^ 32 →
    ∃ s', execAll [.edge (BitVec.ofNat 32 (t + Ttx)), .edge (BitVec.ofNat 32 (t + symDuration Ttx 0))] s = .next s' ∧
      s'.rxState = .idle

/-! ### Frame Transmitter -/

/-- CRC16_UPDATE (R141): the register is exclusive-ored with the byte at its top and shifted eight times, most significant
bit first, with polynomial 0x1021. That the value is left in the model's own field `result`, and nothing else is written, is
the model's choice (log 14). -/
def Obligations.CrcUpdateIsMsbFirst : Prop :=
  (∀ (c : Crc) (b : Byte) (s : State),
    exec (.crc16Update c b) s = .next { s with
      result := .crc ((fun r : Crc => if r.getLsbD 15 then (r <<< 1) ^^^ 0x1021 else r <<< 1)^[8]
        (c ^^^ (b.setWidth 16 <<< 8))) }) ∧
  crc16Update 0x0000 0x00 = 0x0000 ∧ crc16Update 0x0000 0x01 = 0x1021 ∧ crc16Update 0xFFFF 0xFF = 0xFF00 ∧
  crc16Update 0xFFFF 0x06 = 0x8136

/-- The completion invariant (R144): a CRC register fed its own two bytes, high byte first, is zero, from every start value;
so the length byte, a frame and its checksum's bytes fold to zero. -/
def Obligations.ChecksumCompletesToZero : Prop :=
  (∀ (c : Crc) (bytes : List Byte),
    crcFold c (bytes ++ [(crcFold c bytes).extractLsb' 8 8, (crcFold c bytes).extractLsb' 0 8]) = 0) ∧
  (∀ frame : List Byte, crcFold 0xFFFF (BitVec.ofNat 8 (frame.length + 2) :: body frame) = 0)

/-- The layout of an emission (R92, R145): the preamble bytes once, the length byte three times, then three copies of each
logical byte, the frame's bytes and the checksum's, high byte first (R143). -/
def Obligations.EmissionLayout : Prop :=
  ∀ frame : List Byte,
    (emissionBytes frame).length = 6 + 3 * (frame.length + 2) ∧
    (emissionBytes frame).take 6 =
      [0xE4, 0x1B, 0xD8, BitVec.ofNat 8 (frame.length + 2), BitVec.ofNat 8 (frame.length + 2),
       BitVec.ofNat 8 (frame.length + 2)] ∧
    (∀ k j, k < frame.length → j < 3 → (emissionBytes frame)[6 + 3 * k + j]? = frame[k]?) ∧
    (∀ j, j < 3 →
      (emissionBytes frame)[6 + 3 * frame.length + j]? = some ((checksum frame).extractLsb' 8 8) ∧
      (emissionBytes frame)[6 + 3 * (frame.length + 1) + j]? = some ((checksum frame).extractLsb' 0 8))

/-- The waveform of an emission (R150, R149, R116): it starts with a rise at its start time, ends with the trailer's fall
`QUIET_US` before `ts + DUR(E)`, every transition lies between, and there are `2(s+1)` transitions a symbol and two of the
trailer. -/
def Obligations.EmissionWaveformFillsItsDuration : Prop :=
  ∀ (T ts : Nat) (bytes : List Byte),
    (playSymbols T ts (symbols bytes)).head? = some ⟨ts, true⟩ ∧
    (playSymbols T ts (symbols bytes)).getLast? =
      some ⟨ts + emissionDuration T bytes - 4 * T, false⟩ ∧
    (∀ e ∈ playSymbols T ts (symbols bytes), ts ≤ e.time ∧ e.time + 4 * T ≤ ts + emissionDuration T bytes) ∧
    (playSymbols T ts (symbols bytes)).length = 8 * bytes.length + 2 * symbolSum bytes + 2

/-- The bounds on the duration of an emission (R275). -/
def Obligations.EmissionDurationBounds : Prop :=
  ∀ (T : Nat) (frame : List Byte),
    (20 * (emissionBytes frame).length + 41) * T ≤ emissionDuration T (emissionBytes frame) ∧
    emissionDuration T (emissionBytes frame) ≤
      (20 * (emissionBytes frame).length + 41 + 72 * (frame.length + 2 + 1)) * T

/-- The two reference frames of R158 at `T = 100`: checksum, number of bytes, duration, output edges. -/
def Obligations.ReferenceEmissions : Prop :=
  checksum [0xBE, 0xEF, 0x01, 0x05] = 0x6096 ∧
  (emissionBytes [0xBE, 0xEF, 0x01, 0x05]).length = 24 ∧
  emissionDuration 100 (emissionBytes [0xBE, 0xEF, 0x01, 0x05]) = 73700 ∧
  (playSymbols 100 0 (symbols (emissionBytes [0xBE, 0xEF, 0x01, 0x05]))).length = 446 ∧
  checksum [0xBE, 0xEF, 0x01, 0x06, 0x67, 0x65, 0x74, 0x64, 0x61, 0x74, 0x61] = 0x83B8 ∧
  (emissionBytes [0xBE, 0xEF, 0x01, 0x06, 0x67, 0x65, 0x74, 0x64, 0x61, 0x74, 0x61]).length = 45 ∧
  emissionDuration 100 (emissionBytes [0xBE, 0xEF, 0x01, 0x06, 0x67, 0x65, 0x74, 0x64, 0x61, 0x74, 0x61]) = 139100 ∧
  (playSymbols 100 0 (symbols (emissionBytes
    [0xBE, 0xEF, 0x01, 0x06, 0x67, 0x65, 0x74, 0x64, 0x61, 0x74, 0x61]))).length = 848

/-- EMIT_START (R151): the receiver is disarmed, the latched frame's emission is appended to the output trace from the start
time on, and the end of the emission becomes the TxEngine's next time; nothing else changes. -/
def Obligations.EmitStartPlaysTheLatchedFrame : Prop :=
  ∀ (ts : Time) (s : State) (frame : List Byte), frame.length = s.txN.toNat → frame.length ≤ s.cfg.maxPayload + 4 →
    holds s.txBuf frame →
    exec (.emitStart ts) s = .next
      { disarmed s with
        txPhase := .emitting
        outTrace := s.outTrace ++
          playSymbols s.cfg.pulseUs (s.clock + (ts - s.now).toNat) (symbols (emissionBytes frame))
        txNextT := ts + BitVec.ofNat 32 (emissionDuration s.cfg.pulseUs (emissionBytes frame)) }

/-- EMIT_END (R152, R155): enabled only while emitting at its time; it goes to a backoff drawn in the range and counts one
emission down, or ends the send. That a step that is not enabled changes nothing is the model's reading (log 15); `drawN` is
the model's own (log 13). -/
def Obligations.EmitEndBacksOffOrEnds : Prop :=
  ∀ (t : Time) (s : State), s.cfg.backoffMinUs ≤ s.cfg.backoffMaxUs →
    (s.txPhase = .emitting → t = s.txNextT → 0 < s.txLeft.toNat →
      ∃ d : Nat, s.cfg.backoffMinUs ≤ d ∧ d ≤ s.cfg.backoffMaxUs ∧
        exec (.emitEnd t) s = .next
          { s with txLeft := s.txLeft - 1, txPhase := .backoff, txNextT := t + BitVec.ofNat 32 d, drawN := s.drawN + 1 }) ∧
    (s.txPhase = .emitting → t = s.txNextT → s.txLeft = 0 →
      exec (.emitEnd t) s = .next { s with txPhase := .off, txBusy := false }) ∧
    (s.txPhase ≠ .emitting ∨ t ≠ s.txNextT → exec (.emitEnd t) s = .next s)

/-- BACKOFF_END (R153): enabled only in a backoff at its time, it starts the same latched frame's emission again; not enabled,
it changes nothing (log 15). -/
def Obligations.BackoffEndStartsTheSameFrame : Prop :=
  ∀ (t : Time) (s : State) (frame : List Byte),
    (s.txPhase = .backoff → t = s.txNextT → frame.length = s.txN.toNat → frame.length ≤ s.cfg.maxPayload + 4 →
      holds s.txBuf frame →
      exec (.backoffEnd t) s = .next
        { disarmed s with
          txPhase := .emitting
          outTrace := s.outTrace ++
            playSymbols s.cfg.pulseUs (s.clock + (t - s.now).toNat) (symbols (emissionBytes frame))
          txNextT := t + BitVec.ofNat 32 (emissionDuration s.cfg.pulseUs (emissionBytes frame)) }) ∧
    (s.txPhase ≠ .backoff ∨ t ≠ s.txNextT → exec (.backoffEnd t) s = .next s)

/-- The draws stay in the backoff range and can be every value of it (R155). -/
def Obligations.DrawsFillTheBackoffRange : Prop :=
  ∀ c : Config, c.backoffMinUs ≤ c.backoffMaxUs →
    (∀ n, c.backoffMinUs ≤ backoffInRange c n ∧ backoffInRange c n ≤ c.backoffMaxUs) ∧
    (∀ d, c.backoffMinUs ≤ d → d ≤ c.backoffMaxUs → ∃ n, backoffInRange c n = d)

/-- RX_DISARM (R156): the decoder is reset; a frame being received is abandoned, a frame in the slot is kept. -/
def Obligations.RxDisarmKeepsAnAcceptedFrame : Prop :=
  ∀ s : State,
    (s.rxState = .accepted → exec .rxDisarm s = .next { s with decLast := none, decCount := 0 }) ∧
    (s.rxState ≠ .accepted → exec .rxDisarm s = .next
      { s with
        decLast := none, decCount := 0, rxState := .idle, syncSr := 0, syncN := 0, symAcc := 0, symN := 0
        copyN := 0, rxIdx := 0, trace := s.trace ++ [.txMask] })

/-- A TX_SEND accepted with nothing else to come gives exactly `1 + RESEND_COUNT` emissions of the frame with a backoff between
each two of them; `tx_busy` stays 1 until the last of them ends (R154), which is after `1 + RESEND_COUNT` durations and as many
backoffs as resends (R275, for a duration below the wrap of the time base, log 8). -/
def Obligations.SendMakesOnePlusResendEmissions : Prop :=
  ∀ (s : State) (data : List Byte) (r d : Nat), Inv s → s.inputs = [] → s.txBusy = false →
    4 ≤ data.length → data.length ≤ s.cfg.maxPayload + 4 → r = s.cfg.resendCount →
    d = emissionDuration s.cfg.pulseUs (emissionBytes data) →
    ∃ t, exec (.txSend data) s = .next t ∧
      (∀ k, k ≤ 2 * r → ∃ v, runSteps k t = .next v ∧ v.txBusy = true ∧ holds v.txBuf data ∧
        v.txPhase = (if k % 2 = 0 then .emitting else .backoff)) ∧
      ∃ u, runSteps (2 * r + 1) t = .next u ∧ u.txPhase = .off ∧ u.txBusy = false ∧
        u.outTrace.length =
          s.outTrace.length + (1 + r) * (playSymbols s.cfg.pulseUs 0 (symbols (emissionBytes data))).length ∧
        (d < 2 ^ 32 → s.clock + (1 + r) * d + r * s.cfg.backoffMinUs ≤ u.clock ∧
          u.clock ≤ s.clock + (1 + r) * d + r * s.cfg.backoffMaxUs)

/-! ### Frame Receiver -/

/-- RX_SYMBOL (R171): by the receiver's state; in `Accepted` it stops with the fault R171 allows (log 19). -/
def Obligations.RxSymbolDispatchesOnTheState : Prop :=
  ∀ (v : Sym) (s : State),
    (s.rxState = .idle → exec (.rxSymbol v) s = exec (.idleSymbol v) s) ∧
    (s.rxState = .syncing → exec (.rxSymbol v) s = exec (.syncSymbol v) s) ∧
    (s.rxState = .readingLength ∨ s.rxState = .readingBody → exec (.rxSymbol v) s = exec (.byteSymbol v) s) ∧
    (s.rxState = .accepted → exec (.rxSymbol v) s = .fault .symbolInAccepted)

/-- Under the invariant every Sampler operation completes and keeps the invariant: EDGE always, RX_SYMBOL outside `Accepted`,
BYTE_SYMBOL in `ReadingLength` and `ReadingBody`, BODY_BYTE in `ReadingBody`. -/
def Obligations.SamplerOperationsComplete : Prop :=
  ∀ s : State, Inv s →
    (∀ t, ∃ s', exec (.edge t) s = .next s' ∧ Inv s') ∧
    (∀ v, s.rxState ≠ .accepted → ∃ s', exec (.rxSymbol v) s = .next s' ∧ Inv s') ∧
    (∀ v, s.rxState = .readingLength ∨ s.rxState = .readingBody → ∃ s', exec (.byteSymbol v) s = .next s' ∧ Inv s') ∧
    (s.rxState = .readingBody → ∃ s', exec .bodyByte s = .next s' ∧ Inv s')

/-- RX_ABORT (R172): the receiver returns to `Idle`, the reason goes into the trace, and nothing else changes; in `Idle` only
the trace changes. -/
def Obligations.RxAbortReturnsToIdle : Prop :=
  (∀ (r : AbortReason) (s : State), exec (.rxAbort r) s = .next
    { s with
      rxState := .idle, syncSr := 0, syncN := 0, symAcc := 0, symN := 0, copyN := 0, rxIdx := 0
      trace := s.trace ++ [r] }) ∧
  (∀ (r : AbortReason) (s : State), Inv s → s.rxState = .idle →
    exec (.rxAbort r) s = .next { s with trace := s.trace ++ [r] })

/-- IDLE_SYMBOL (R173). -/
def Obligations.IdleSymbolStartsTheSearch : Prop :=
  ∀ (v : Sym) (s : State),
    exec (.idleSymbol v) s = .next { s with syncSr := v.setWidth 24, syncN := 1, rxState := .syncing }

/-- SYNC_SYMBOL (R174): shift, count up to twelve, and leave for `ReadingLength` at the preamble. -/
def Obligations.SyncSymbolMatchesThePreamble : Prop :=
  ∀ (v : Sym) (s : State), ∃ n : Fin 13, n.val = min (s.syncN.val + 1) 12 ∧
    (n = 12 ∧ ((s.syncSr <<< 2) ||| v.setWidth 24) = 0xE41BD8#24 →
      exec (.syncSymbol v) s = .next
        { s with
          syncSr := (s.syncSr <<< 2) ||| v.setWidth 24, syncN := n, rxState := .readingLength
          symAcc := 0, symN := 0, copyN := 0 }) ∧
    (¬ (n = 12 ∧ ((s.syncSr <<< 2) ||| v.setWidth 24) = 0xE41BD8#24) →
      exec (.syncSymbol v) s = .next { s with syncSr := (s.syncSr <<< 2) ||| v.setWidth 24, syncN := n })

/-- The preamble is found at its true end whatever was searched before it, a partial preamble included (R174, D13). -/
def Obligations.PreambleIsAlwaysFound : Prop :=
  ∀ s : State, s.rxState = .idle ∨ s.rxState = .syncing →
    ∃ s', execAll ((symbols [0xE4, 0x1B, 0xD8]).map Instr.rxSymbol) s = .next s' ∧
      s'.rxState = .readingLength ∧ s'.symAcc = 0 ∧ s'.symN = 0 ∧ s'.copyN = 0 ∧ s'.trace = s.trace

/-- BYTE_SYMBOL (R175): four symbols make a raw copy, most significant first; three copies go to the length check or to
BODY_BYTE. -/
def Obligations.ByteSymbolAssemblesCopies : Prop :=
  ∀ (v : Sym) (s : State) (b : Byte), b = (s.symAcc <<< 2) ||| v.setWidth 8 →
    (s.symN ≠ 3 → ∃ n : Fin 4, n.val = s.symN.val + 1 ∧
      exec (.byteSymbol v) s = .next { s with symAcc := b, symN := n }) ∧
    (s.symN = 3 → s.copyN = 0 → exec (.byteSymbol v) s = .next
      { s with symAcc := 0, symN := 0, copies := ⟨b, s.copies.c1, s.copies.c2⟩, copyN := 1 }) ∧
    (s.symN = 3 → s.copyN = 1 → exec (.byteSymbol v) s = .next
      { s with symAcc := 0, symN := 0, copies := ⟨s.copies.c0, b, s.copies.c2⟩, copyN := 2 }) ∧
    (∀ s1 : State,
      s1 = { s with symAcc := 0, symN := 0, copies := ⟨s.copies.c0, s.copies.c1, b⟩, copyN := 0 } →
      s.symN = 3 → s.copyN = 2 →
      (s.rxState = .readingLength →
        (¬ (s1.copies.c0 = s1.copies.c1 ∧ s1.copies.c1 = s1.copies.c2) →
          exec (.byteSymbol v) s = exec .lengthCheckEqual s1) ∧
        (s1.copies.c0 = s1.copies.c1 ∧ s1.copies.c1 = s1.copies.c2 →
          ¬ (6 ≤ s1.copies.c0.toNat ∧ s1.copies.c0.toNat ≤ s.cfg.maxPayload + 6) →
          exec (.byteSymbol v) s = exec .lengthCheckRange s1) ∧
        (s1.copies.c0 = s1.copies.c1 ∧ s1.copies.c1 = s1.copies.c2 →
          6 ≤ s1.copies.c0.toNat → s1.copies.c0.toNat ≤ s.cfg.maxPayload + 6 →
          exec (.byteSymbol v) s = exec .lengthCheckAccept s1)) ∧
      (s.rxState ≠ .readingLength → exec (.byteSymbol v) s = exec .bodyByte s1))

/-- LENGTH_CHECK, equality part (R176) and range part (R177): any difference between the copies, and any length outside
`[MIN_FRAME, MAX_FRAME]`, abandons the frame; a part that passes changes nothing. -/
def Obligations.LengthChecksAbandonBadLengths : Prop :=
  ∀ s : State,
    (s.copies.c0 = s.copies.c1 ∧ s.copies.c1 = s.copies.c2 → exec .lengthCheckEqual s = .next s) ∧
    (¬ (s.copies.c0 = s.copies.c1 ∧ s.copies.c1 = s.copies.c2) → exec .lengthCheckEqual s = .next
      { s with
        rxState := .idle, syncSr := 0, syncN := 0, symAcc := 0, symN := 0, copyN := 0, rxIdx := 0
        trace := s.trace ++ [.lenMismatch s.copies.c0 s.copies.c1 s.copies.c2] }) ∧
    (6 ≤ s.copies.c0.toNat ∧ s.copies.c0.toNat ≤ s.cfg.maxPayload + 6 → exec .lengthCheckRange s = .next s) ∧
    (s.copies.c0.toNat < 6 ∨ s.cfg.maxPayload + 6 < s.copies.c0.toNat → exec .lengthCheckRange s = .next
      { s with
        rxState := .idle, syncSr := 0, syncN := 0, symAcc := 0, symN := 0, copyN := 0, rxIdx := 0
        trace := s.trace ++ [.lenRange s.copies.c0] })

/-- LENGTH_CHECK, acceptance (R178): the length byte is the first byte of the running CRC. -/
def Obligations.AcceptedLengthStartsTheBody : Prop :=
  (∀ s : State, exec .lengthCheckAccept s = .next
    { s with
      rxLen := s.copies.c0, rxCrc := crc16Update 0xFFFF s.copies.c0, rxIdx := 0, rxState := .readingBody }) ∧
  crc16Update 0xFFFF 0x06 = 0x8136

/-- BODY_BYTE (R179, R181): the voted byte goes into the running CRC and, below the CRC bytes, into RXACC; at the last logical
byte the frame is accepted when the CRC is zero and discarded when it is not. For every legal length. -/
def Obligations.BodyByteVotesStoresAndCompletes : Prop :=
  ∀ (s : State) (v : Byte) (crc : Crc),
    6 ≤ s.rxLen.toNat → s.rxLen.toNat ≤ s.cfg.maxPayload + 6 →
    v = (s.copies.c0 &&& s.copies.c1) ||| (s.copies.c0 &&& s.copies.c2) ||| (s.copies.c1 &&& s.copies.c2) →
    crc = crc16Update s.rxCrc v →
    (s.rxIdx < s.rxLen.toNat - 2 → ∃ m : Memory,
      m.read s.rxIdx = v ∧ (∀ a, a ≠ s.rxIdx → m.read a = s.rxAcc.read a) ∧ (s.rxAcc.wf = true → m.wf = true) ∧
      exec .bodyByte s = .next { s with rxCrc := crc, rxAcc := m, rxIdx := s.rxIdx + 1 }) ∧
    (s.rxLen.toNat - 2 ≤ s.rxIdx → s.rxIdx + 1 ≠ s.rxLen.toNat →
      exec .bodyByte s = .next { s with rxCrc := crc, rxIdx := s.rxIdx + 1 }) ∧
    (s.rxIdx + 1 = s.rxLen.toNat → crc = 0 →
      exec .bodyByte s = exec .completeAccept { s with rxCrc := crc, rxIdx := s.rxIdx + 1 }) ∧
    (s.rxIdx + 1 = s.rxLen.toNat → crc ≠ 0 →
      exec .bodyByte s = exec .completeDiscard { s with rxCrc := crc, rxIdx := s.rxIdx + 1 })

/-- MAJ3 (R180): bit by bit, at least two of three; an error confined to one copy is corrected, an error at the same bit of
two copies is not. That the value is left in the model's own field `result`, and nothing else is written, is the model's
choice (log 14). -/
def Obligations.MajorityCorrectsOneCopy : Prop :=
  (∀ (a b c : Byte) (s : State), ∃ r : Byte,
    exec (.maj3 a b c) s = .next { s with result := .byte r } ∧
    r = (a &&& b) ||| (a &&& c) ||| (b &&& c) ∧
    (∀ i, i < 8 → (r.getLsbD i = true ↔
      2 ≤ (a.getLsbD i).toNat + (b.getLsbD i).toNat + (c.getLsbD i).toNat))) ∧
  (∀ b x : Byte, maj3 b b x = b ∧ maj3 b x b = b ∧ maj3 x b b = b) ∧
  (∀ (b x y : Byte) (i : Nat), i < 8 → x.getLsbD i = (! b.getLsbD i) → y.getLsbD i = (! b.getLsbD i) →
    (maj3 b x y).getLsbD i = (! b.getLsbD i)) ∧
  maj3 0xBE 0xBE 0xB6 = 0xBE ∧ maj3 0x0F 0xF0 0x3C = 0x3C

/-- COMPLETE, accept (R182): the logical frame of a legal length is copied from RXACC to the slot, `ready` is raised; bytes of
SLOT at and above the frame's count are unchanged. -/
def Obligations.CompleteAcceptFillsTheSlot : Prop :=
  ∀ (s : State) (frame : List Byte), 6 ≤ s.rxLen.toNat → s.rxLen.toNat ≤ s.cfg.maxPayload + 6 →
    frame.length = s.rxLen.toNat - 2 → holds s.rxAcc frame →
    ∃ m : Memory, holds m frame ∧ (∀ a, frame.length ≤ a → m.read a = s.slot.read a) ∧
      (s.slot.wf = true → m.wf = true) ∧
      exec .completeAccept s = .next
        { s with slot := m, slotLen := BitVec.ofNat 8 frame.length, ready := true, rxState := .accepted }

/-- COMPLETE, discard (R183): an abort with `CRC_FAIL`; the slot and `ready` are untouched. -/
def Obligations.CompleteDiscardDropsTheFrame : Prop :=
  ∀ s : State, exec .completeDiscard s = .next
    { s with
      rxState := .idle, syncSr := 0, syncN := 0, symAcc := 0, symN := 0, copyN := 0, rxIdx := 0
      trace := s.trace ++ [.crcFail s.rxCrc] }

/-- Every frame a TX_SEND may carry, as the decoded symbols of one emission, is delivered to the slot unchanged by a receiver
that is searching, whatever it received before (R145, R148, R173 to R182; V-E2E-1). -/
def Obligations.EmittedSymbolsDeliverTheFrame : Prop :=
  ∀ (s : State) (frame : List Byte), Inv s → s.rxState = .idle ∨ s.rxState = .syncing →
    4 ≤ frame.length → frame.length ≤ s.cfg.maxPayload + 4 →
    ∃ s', execAll ((symbols (emissionBytes frame)).map Instr.rxSymbol) s = .next s' ∧
      s'.ready = true ∧ s'.slotLen = BitVec.ofNat 8 frame.length ∧ holds s'.slot frame ∧ s'.trace = s.trace

/-- Every frame a TX_SEND may carry, as the edges of one undisturbed emission by a transmitter whose pulse parameter is inside
the tolerance, is delivered to the slot unchanged by a receiver that is disarmed and searching, whenever the emission starts
(R125 "if", R128, R150, R276; V-E2E-1). -/
def Obligations.EmittedEdgesDeliverTheFrame : Prop :=
  ∀ (s : State) (frame : List Byte) (ts Ttx : Nat), Inv s → s.rxState = .idle ∨ s.rxState = .syncing →
    s.txPhase ≠ .emitting → s.decLast = none →
    4 ≤ frame.length → frame.length ≤ s.cfg.maxPayload + 4 →
    (s.cfg.pulseUs + 1) / 2 ≤ Ttx → Ttx ≤ 2 * s.cfg.pulseUs - 1 →
    ∃ s', execAll ((playSymbols Ttx ts (symbols (emissionBytes frame))).map
        fun e => Instr.edge (BitVec.ofNat 32 e.time)) s = .next s' ∧
      s'.ready = true ∧ s'.slotLen = BitVec.ofNat 8 frame.length ∧ holds s'.slot frame ∧ s'.trace = s.trace

/-! ### Host commands -/

/-- NOP (R212) changes nothing. -/
def Obligations.NopChangesNothing : Prop := ∀ s : State, exec .nop s = .next s

/-- TX_SEND (R213): a busy block or a bad count leaves every element unchanged and is recorded, busy first (R238); otherwise
the frame is latched and its first emission starts at once, nothing else changes, and TXBUF keeps its bytes at and above the
frame's count. Under the bound on MAX_PAYLOAD of R9. -/
def Obligations.TxSendLatchesAndEmits : Prop :=
  ∀ (data : List Byte) (s : State), s.cfg.maxPayload ≤ 249 →
    (s.txBusy = true →
      exec (.txSend data) s = .next { s with contract := s.contract ++ [.txBusy data.length] }) ∧
    (s.txBusy = false → data.length < 4 ∨ s.cfg.maxPayload + 4 < data.length →
      exec (.txSend data) s = .next { s with contract := s.contract ++ [.txLen data.length] }) ∧
    (s.txBusy = false → 4 ≤ data.length → data.length ≤ s.cfg.maxPayload + 4 →
      ∃ m : Memory, holds m data ∧ (∀ a, data.length ≤ a → m.read a = s.txBuf.read a) ∧
        (s.txBuf.wf = true → m.wf = true) ∧
        exec (.txSend data) s = .next
          { disarmed s with
            txBuf := m, txN := BitVec.ofNat 8 data.length, txLeft := BitVec.ofNat 8 s.cfg.resendCount
            txBusy := true, txPhase := .emitting
            outTrace := s.outTrace ++ playSymbols s.cfg.pulseUs s.clock (symbols (emissionBytes data))
            txNextT := s.now + BitVec.ofNat 32 (emissionDuration s.cfg.pulseUs (emissionBytes data)) }) ∧
    (s.cfg = Config.reference → s.txBusy = false → s.now = 1000 → ∃ t,
      exec (.txSend [0xBE, 0xEF, 0x01, 0x05]) s = .next t ∧
        t.txN = 4 ∧ t.txLeft = 3 ∧ t.txBusy = true ∧ t.txNextT = 74700)

/-- RX_STATUS (R214) responds with the status byte of R51, bit by bit, bits 7 to 5 zero (R100), and changes nothing else. -/
def Obligations.RxStatusRespondsWithTheStatusByte : Prop :=
  ∀ s : State, ∃ b : Byte,
    exec .rxStatus s = .next { s with hostOut := s.hostOut ++ [b] } ∧
    b.getLsbD 0 = s.ready ∧ b.getLsbD 1 = s.txBusy ∧
    b.extractLsb' 2 3 =
      (match s.rxState with
        | .idle => 0#3 | .syncing => 1#3 | .readingLength => 2#3 | .readingBody => 3#3 | .accepted => 4#3) ∧
    b.extractLsb' 5 3 = 0#3

/-- RX_RECEIVE (R215): an empty slot gives the byte 0x00 and changes nothing; a frame is given out with its count, the slot is
emptied, the receiver and the decoder are re-armed, the bytes of SLOT are unspecified after it (here: any array `m`; the
counter `drawN` is the model's own, log 5), and a second RX_RECEIVE gives 0x00 (R73). -/
def Obligations.RxReceiveEmptiesTheSlot : Prop :=
  ∀ s : State,
    (s.ready = false → exec .rxReceive s = .next { s with hostOut := s.hostOut ++ [0x00] }) ∧
    (∀ bytes : List Byte, s.ready = true → bytes.length = s.slotLen.toNat → bytes.length ≤ s.cfg.maxPayload + 4 →
      holds s.slot bytes →
      ∃ (m : Memory) (k : Nat) (t : State), t =
          { s with
            hostOut := s.hostOut ++ s.slotLen :: bytes, slotLen := 0, ready := false, slot := m
            rxState := .idle, syncSr := 0, syncN := 0, symAcc := 0, symN := 0, copyN := 0, rxIdx := 0
            decLast := none, decCount := 0, drawN := k } ∧
        exec .rxReceive s = .next t ∧
        exec .rxReceive t = .next { t with hostOut := t.hostOut ++ [0x00] })

/-- Reserved command bytes (R98, R216): the block ignores the command; the model records it (log 12) and reads the bytes that
follow as further commands. -/
def Obligations.ReservedCommandsAreIgnored : Prop :=
  ∀ (op : Byte) (s : State), 4 ≤ op.toNat →
    (∀ rest, decodeCommand (op :: rest) = .ok (.reserved op, rest)) ∧
    exec (.reserved op) s = .next { s with contract := s.contract ++ [.reservedCmd op] }

/-! ### Arrays and reset -/

/-- The array primitives (R71): below the array's size a write stores one byte and keeps every other, a read gives the byte
there, also one that nothing has written, and both always answer; at and above the size both fault. -/
def Obligations.ArrayPrimitivesMoveOneByte : Prop :=
  ∀ (a : ArrayName) (s : State) (i : Nat) (v : Byte),
    (i < s.cfg.maxPayload + 4 → ∃ m : Memory,
      arrayWrite a s i v = .ok (s.withArray a m) ∧ m.read i = v ∧
        (∀ j, j ≠ i → m.read j = (s.array a).read j) ∧
        arrayRead a (s.withArray a m) i = .ok v) ∧
    (i < s.cfg.maxPayload + 4 → arrayRead a s i = .ok ((s.array a).read i)) ∧
    (s.cfg.maxPayload + 4 ≤ i →
      arrayWrite a s i v = .error (.arrayIndex a i) ∧ arrayRead a s i = .error (.arrayIndex a i))

/-- The state after reset (R261, with the values R56 gives). -/
def Obligations.ResetStateIsIdleAndEmpty : Prop :=
  State.reset.rxState = .idle ∧ State.reset.decLast = none ∧ State.reset.decCount = 0 ∧
  State.reset.syncSr = 0 ∧ State.reset.syncN = 0 ∧ State.reset.symAcc = 0 ∧ State.reset.symN = 0 ∧
  State.reset.copyN = 0 ∧ State.reset.rxIdx = 0 ∧ State.reset.ready = false ∧ State.reset.slotLen = 0 ∧
  State.reset.txOut = false ∧ State.reset.txPhase = .off ∧ State.reset.txBusy = false ∧ State.reset.txN = 0 ∧
  State.reset.txLeft = 0 ∧ State.reset.status = 0x00

/-- RESET (R260, R56): every element takes its reset value, the unspecified ones any value (`c`, `l`, `r`, `x`, `n` and the
bytes of the arrays `ma`, `ms`, `mt`); the output trace keeps what is not after the instant, and a line that is high falls at
once, nothing is scheduled after it and the TxEngine has no step to come. The configuration port, the clock, the records,
the ports and the coming turns stay (log 20); `drawN` is the model's own. -/
def Obligations.ResetInstructionResetsTheBlock : Prop :=
  ∀ s : State, ∃ (c : Copies) (l : Byte) (r : Crc) (x n : Time) (ma ms mt : Memory) (k : Nat) (t : State),
    exec .reset s = .next t ∧ t =
      { s with
        decLast := none, decCount := 0, rxState := .idle, syncSr := 0, syncN := 0, symAcc := 0, symN := 0
        copies := c, copyN := 0, rxLen := l, rxCrc := r, rxIdx := 0, rxAcc := ma, ready := false, slot := ms
        slotLen := 0, txPhase := .off, txBusy := false, txBuf := mt, txN := 0, txLeft := 0, txNextT := x, now := n
        outTrace := s.outTrace.filter (fun e => decide (e.time ≤ s.clock)) ++
          (if s.txOut = true then [⟨s.clock, false⟩] else [])
        drawN := k } ∧
      t.txOut = false ∧ t.status = 0x00 ∧ t.txDue = none ∧ (∀ e ∈ t.outTrace, e.time ≤ t.clock)
end

