-- ==== Sys2Proof/Laws/State.lean ====
section
/-! SUPPORT. Every field of the state after each named update of the state: one lemma a field. -/

namespace Sys2Proof.Machine

/-! ### Time passes -/

@[simp] theorem State.advance_cfg (s : State) (d : Nat) : (s.advance d).cfg = s.cfg := rfl
@[simp] theorem State.advance_decLast (s : State) (d : Nat) : (s.advance d).decLast = s.decLast := rfl
@[simp] theorem State.advance_decCount (s : State) (d : Nat) : (s.advance d).decCount = s.decCount := rfl
@[simp] theorem State.advance_rxState (s : State) (d : Nat) : (s.advance d).rxState = s.rxState := rfl
@[simp] theorem State.advance_syncSr (s : State) (d : Nat) : (s.advance d).syncSr = s.syncSr := rfl
@[simp] theorem State.advance_syncN (s : State) (d : Nat) : (s.advance d).syncN = s.syncN := rfl
@[simp] theorem State.advance_symAcc (s : State) (d : Nat) : (s.advance d).symAcc = s.symAcc := rfl
@[simp] theorem State.advance_symN (s : State) (d : Nat) : (s.advance d).symN = s.symN := rfl
@[simp] theorem State.advance_copies (s : State) (d : Nat) : (s.advance d).copies = s.copies := rfl
@[simp] theorem State.advance_copyN (s : State) (d : Nat) : (s.advance d).copyN = s.copyN := rfl
@[simp] theorem State.advance_rxLen (s : State) (d : Nat) : (s.advance d).rxLen = s.rxLen := rfl
@[simp] theorem State.advance_rxCrc (s : State) (d : Nat) : (s.advance d).rxCrc = s.rxCrc := rfl
@[simp] theorem State.advance_rxIdx (s : State) (d : Nat) : (s.advance d).rxIdx = s.rxIdx := rfl
@[simp] theorem State.advance_rxAcc (s : State) (d : Nat) : (s.advance d).rxAcc = s.rxAcc := rfl
@[simp] theorem State.advance_ready (s : State) (d : Nat) : (s.advance d).ready = s.ready := rfl
@[simp] theorem State.advance_slot (s : State) (d : Nat) : (s.advance d).slot = s.slot := rfl
@[simp] theorem State.advance_slotLen (s : State) (d : Nat) : (s.advance d).slotLen = s.slotLen := rfl
@[simp] theorem State.advance_txPhase (s : State) (d : Nat) : (s.advance d).txPhase = s.txPhase := rfl
@[simp] theorem State.advance_txBusy (s : State) (d : Nat) : (s.advance d).txBusy = s.txBusy := rfl
@[simp] theorem State.advance_txBuf (s : State) (d : Nat) : (s.advance d).txBuf = s.txBuf := rfl
@[simp] theorem State.advance_txN (s : State) (d : Nat) : (s.advance d).txN = s.txN := rfl
@[simp] theorem State.advance_txLeft (s : State) (d : Nat) : (s.advance d).txLeft = s.txLeft := rfl
@[simp] theorem State.advance_txNextT (s : State) (d : Nat) : (s.advance d).txNextT = s.txNextT := rfl
@[simp] theorem State.advance_now (s : State) (d : Nat) : (s.advance d).now = s.now + BitVec.ofNat 32 d := rfl
@[simp] theorem State.advance_clock (s : State) (d : Nat) : (s.advance d).clock = s.clock + d := rfl
@[simp] theorem State.advance_outTrace (s : State) (d : Nat) : (s.advance d).outTrace = s.outTrace := rfl
@[simp] theorem State.advance_trace (s : State) (d : Nat) : (s.advance d).trace = s.trace := rfl
@[simp] theorem State.advance_contract (s : State) (d : Nat) : (s.advance d).contract = s.contract := rfl
@[simp] theorem State.advance_hostIn (s : State) (d : Nat) : (s.advance d).hostIn = s.hostIn := rfl
@[simp] theorem State.advance_hostOut (s : State) (d : Nat) : (s.advance d).hostOut = s.hostOut := rfl
@[simp] theorem State.advance_inputs (s : State) (d : Nat) : (s.advance d).inputs = s.inputs := rfl
@[simp] theorem State.advance_drawN (s : State) (d : Nat) : (s.advance d).drawN = s.drawN := rfl
@[simp] theorem State.advance_result (s : State) (d : Nat) : (s.advance d).result = s.result := rfl

/-! ### The output line's trace -/

@[simp] theorem State.emitAll_cfg (s : State) (w : List Transition) : (s.emitAll w).cfg = s.cfg := rfl
@[simp] theorem State.emitAll_decLast (s : State) (w : List Transition) : (s.emitAll w).decLast = s.decLast := rfl
@[simp] theorem State.emitAll_decCount (s : State) (w : List Transition) : (s.emitAll w).decCount = s.decCount := rfl
@[simp] theorem State.emitAll_rxState (s : State) (w : List Transition) : (s.emitAll w).rxState = s.rxState := rfl
@[simp] theorem State.emitAll_syncSr (s : State) (w : List Transition) : (s.emitAll w).syncSr = s.syncSr := rfl
@[simp] theorem State.emitAll_syncN (s : State) (w : List Transition) : (s.emitAll w).syncN = s.syncN := rfl
@[simp] theorem State.emitAll_symAcc (s : State) (w : List Transition) : (s.emitAll w).symAcc = s.symAcc := rfl
@[simp] theorem State.emitAll_symN (s : State) (w : List Transition) : (s.emitAll w).symN = s.symN := rfl
@[simp] theorem State.emitAll_copies (s : State) (w : List Transition) : (s.emitAll w).copies = s.copies := rfl
@[simp] theorem State.emitAll_copyN (s : State) (w : List Transition) : (s.emitAll w).copyN = s.copyN := rfl
@[simp] theorem State.emitAll_rxLen (s : State) (w : List Transition) : (s.emitAll w).rxLen = s.rxLen := rfl
@[simp] theorem State.emitAll_rxCrc (s : State) (w : List Transition) : (s.emitAll w).rxCrc = s.rxCrc := rfl
@[simp] theorem State.emitAll_rxIdx (s : State) (w : List Transition) : (s.emitAll w).rxIdx = s.rxIdx := rfl
@[simp] theorem State.emitAll_rxAcc (s : State) (w : List Transition) : (s.emitAll w).rxAcc = s.rxAcc := rfl
@[simp] theorem State.emitAll_ready (s : State) (w : List Transition) : (s.emitAll w).ready = s.ready := rfl
@[simp] theorem State.emitAll_slot (s : State) (w : List Transition) : (s.emitAll w).slot = s.slot := rfl
@[simp] theorem State.emitAll_slotLen (s : State) (w : List Transition) : (s.emitAll w).slotLen = s.slotLen := rfl
@[simp] theorem State.emitAll_txPhase (s : State) (w : List Transition) : (s.emitAll w).txPhase = s.txPhase := rfl
@[simp] theorem State.emitAll_txBusy (s : State) (w : List Transition) : (s.emitAll w).txBusy = s.txBusy := rfl
@[simp] theorem State.emitAll_txBuf (s : State) (w : List Transition) : (s.emitAll w).txBuf = s.txBuf := rfl
@[simp] theorem State.emitAll_txN (s : State) (w : List Transition) : (s.emitAll w).txN = s.txN := rfl
@[simp] theorem State.emitAll_txLeft (s : State) (w : List Transition) : (s.emitAll w).txLeft = s.txLeft := rfl
@[simp] theorem State.emitAll_txNextT (s : State) (w : List Transition) : (s.emitAll w).txNextT = s.txNextT := rfl
@[simp] theorem State.emitAll_now (s : State) (w : List Transition) : (s.emitAll w).now = s.now := rfl
@[simp] theorem State.emitAll_clock (s : State) (w : List Transition) : (s.emitAll w).clock = s.clock := rfl
@[simp] theorem State.emitAll_outTrace (s : State) (w : List Transition) : (s.emitAll w).outTrace = s.outTrace ++ w := rfl
@[simp] theorem State.emitAll_trace (s : State) (w : List Transition) : (s.emitAll w).trace = s.trace := rfl
@[simp] theorem State.emitAll_contract (s : State) (w : List Transition) : (s.emitAll w).contract = s.contract := rfl
@[simp] theorem State.emitAll_hostIn (s : State) (w : List Transition) : (s.emitAll w).hostIn = s.hostIn := rfl
@[simp] theorem State.emitAll_hostOut (s : State) (w : List Transition) : (s.emitAll w).hostOut = s.hostOut := rfl
@[simp] theorem State.emitAll_inputs (s : State) (w : List Transition) : (s.emitAll w).inputs = s.inputs := rfl
@[simp] theorem State.emitAll_drawN (s : State) (w : List Transition) : (s.emitAll w).drawN = s.drawN := rfl
@[simp] theorem State.emitAll_result (s : State) (w : List Transition) : (s.emitAll w).result = s.result := rfl

/-! ### Response bytes -/

@[simp] theorem State.respond_cfg (s : State) (b : List Byte) : (s.respond b).cfg = s.cfg := rfl
@[simp] theorem State.respond_decLast (s : State) (b : List Byte) : (s.respond b).decLast = s.decLast := rfl
@[simp] theorem State.respond_decCount (s : State) (b : List Byte) : (s.respond b).decCount = s.decCount := rfl
@[simp] theorem State.respond_rxState (s : State) (b : List Byte) : (s.respond b).rxState = s.rxState := rfl
@[simp] theorem State.respond_syncSr (s : State) (b : List Byte) : (s.respond b).syncSr = s.syncSr := rfl
@[simp] theorem State.respond_syncN (s : State) (b : List Byte) : (s.respond b).syncN = s.syncN := rfl
@[simp] theorem State.respond_symAcc (s : State) (b : List Byte) : (s.respond b).symAcc = s.symAcc := rfl
@[simp] theorem State.respond_symN (s : State) (b : List Byte) : (s.respond b).symN = s.symN := rfl
@[simp] theorem State.respond_copies (s : State) (b : List Byte) : (s.respond b).copies = s.copies := rfl
@[simp] theorem State.respond_copyN (s : State) (b : List Byte) : (s.respond b).copyN = s.copyN := rfl
@[simp] theorem State.respond_rxLen (s : State) (b : List Byte) : (s.respond b).rxLen = s.rxLen := rfl
@[simp] theorem State.respond_rxCrc (s : State) (b : List Byte) : (s.respond b).rxCrc = s.rxCrc := rfl
@[simp] theorem State.respond_rxIdx (s : State) (b : List Byte) : (s.respond b).rxIdx = s.rxIdx := rfl
@[simp] theorem State.respond_rxAcc (s : State) (b : List Byte) : (s.respond b).rxAcc = s.rxAcc := rfl
@[simp] theorem State.respond_ready (s : State) (b : List Byte) : (s.respond b).ready = s.ready := rfl
@[simp] theorem State.respond_slot (s : State) (b : List Byte) : (s.respond b).slot = s.slot := rfl
@[simp] theorem State.respond_slotLen (s : State) (b : List Byte) : (s.respond b).slotLen = s.slotLen := rfl
@[simp] theorem State.respond_txPhase (s : State) (b : List Byte) : (s.respond b).txPhase = s.txPhase := rfl
@[simp] theorem State.respond_txBusy (s : State) (b : List Byte) : (s.respond b).txBusy = s.txBusy := rfl
@[simp] theorem State.respond_txBuf (s : State) (b : List Byte) : (s.respond b).txBuf = s.txBuf := rfl
@[simp] theorem State.respond_txN (s : State) (b : List Byte) : (s.respond b).txN = s.txN := rfl
@[simp] theorem State.respond_txLeft (s : State) (b : List Byte) : (s.respond b).txLeft = s.txLeft := rfl
@[simp] theorem State.respond_txNextT (s : State) (b : List Byte) : (s.respond b).txNextT = s.txNextT := rfl
@[simp] theorem State.respond_now (s : State) (b : List Byte) : (s.respond b).now = s.now := rfl
@[simp] theorem State.respond_clock (s : State) (b : List Byte) : (s.respond b).clock = s.clock := rfl
@[simp] theorem State.respond_outTrace (s : State) (b : List Byte) : (s.respond b).outTrace = s.outTrace := rfl
@[simp] theorem State.respond_trace (s : State) (b : List Byte) : (s.respond b).trace = s.trace := rfl
@[simp] theorem State.respond_contract (s : State) (b : List Byte) : (s.respond b).contract = s.contract := rfl
@[simp] theorem State.respond_hostIn (s : State) (b : List Byte) : (s.respond b).hostIn = s.hostIn := rfl
@[simp] theorem State.respond_hostOut (s : State) (b : List Byte) : (s.respond b).hostOut = s.hostOut ++ b := rfl
@[simp] theorem State.respond_inputs (s : State) (b : List Byte) : (s.respond b).inputs = s.inputs := rfl
@[simp] theorem State.respond_drawN (s : State) (b : List Byte) : (s.respond b).drawN = s.drawN := rfl
@[simp] theorem State.respond_result (s : State) (b : List Byte) : (s.respond b).result = s.result := rfl

/-! ### The host-contract record -/

@[simp] theorem State.recordContract_cfg (s : State) (r : ContractRecord) : (s.recordContract r).cfg = s.cfg := rfl
@[simp] theorem State.recordContract_decLast (s : State) (r : ContractRecord) : (s.recordContract r).decLast = s.decLast := rfl
@[simp] theorem State.recordContract_decCount (s : State) (r : ContractRecord) : (s.recordContract r).decCount = s.decCount := rfl
@[simp] theorem State.recordContract_rxState (s : State) (r : ContractRecord) : (s.recordContract r).rxState = s.rxState := rfl
@[simp] theorem State.recordContract_syncSr (s : State) (r : ContractRecord) : (s.recordContract r).syncSr = s.syncSr := rfl
@[simp] theorem State.recordContract_syncN (s : State) (r : ContractRecord) : (s.recordContract r).syncN = s.syncN := rfl
@[simp] theorem State.recordContract_symAcc (s : State) (r : ContractRecord) : (s.recordContract r).symAcc = s.symAcc := rfl
@[simp] theorem State.recordContract_symN (s : State) (r : ContractRecord) : (s.recordContract r).symN = s.symN := rfl
@[simp] theorem State.recordContract_copies (s : State) (r : ContractRecord) : (s.recordContract r).copies = s.copies := rfl
@[simp] theorem State.recordContract_copyN (s : State) (r : ContractRecord) : (s.recordContract r).copyN = s.copyN := rfl
@[simp] theorem State.recordContract_rxLen (s : State) (r : ContractRecord) : (s.recordContract r).rxLen = s.rxLen := rfl
@[simp] theorem State.recordContract_rxCrc (s : State) (r : ContractRecord) : (s.recordContract r).rxCrc = s.rxCrc := rfl
@[simp] theorem State.recordContract_rxIdx (s : State) (r : ContractRecord) : (s.recordContract r).rxIdx = s.rxIdx := rfl
@[simp] theorem State.recordContract_rxAcc (s : State) (r : ContractRecord) : (s.recordContract r).rxAcc = s.rxAcc := rfl
@[simp] theorem State.recordContract_ready (s : State) (r : ContractRecord) : (s.recordContract r).ready = s.ready := rfl
@[simp] theorem State.recordContract_slot (s : State) (r : ContractRecord) : (s.recordContract r).slot = s.slot := rfl
@[simp] theorem State.recordContract_slotLen (s : State) (r : ContractRecord) : (s.recordContract r).slotLen = s.slotLen := rfl
@[simp] theorem State.recordContract_txPhase (s : State) (r : ContractRecord) : (s.recordContract r).txPhase = s.txPhase := rfl
@[simp] theorem State.recordContract_txBusy (s : State) (r : ContractRecord) : (s.recordContract r).txBusy = s.txBusy := rfl
@[simp] theorem State.recordContract_txBuf (s : State) (r : ContractRecord) : (s.recordContract r).txBuf = s.txBuf := rfl
@[simp] theorem State.recordContract_txN (s : State) (r : ContractRecord) : (s.recordContract r).txN = s.txN := rfl
@[simp] theorem State.recordContract_txLeft (s : State) (r : ContractRecord) : (s.recordContract r).txLeft = s.txLeft := rfl
@[simp] theorem State.recordContract_txNextT (s : State) (r : ContractRecord) : (s.recordContract r).txNextT = s.txNextT := rfl
@[simp] theorem State.recordContract_now (s : State) (r : ContractRecord) : (s.recordContract r).now = s.now := rfl
@[simp] theorem State.recordContract_clock (s : State) (r : ContractRecord) : (s.recordContract r).clock = s.clock := rfl
@[simp] theorem State.recordContract_outTrace (s : State) (r : ContractRecord) : (s.recordContract r).outTrace = s.outTrace := rfl
@[simp] theorem State.recordContract_trace (s : State) (r : ContractRecord) : (s.recordContract r).trace = s.trace := rfl
@[simp] theorem State.recordContract_contract (s : State) (r : ContractRecord) : (s.recordContract r).contract = s.contract ++ [r] := rfl
@[simp] theorem State.recordContract_hostIn (s : State) (r : ContractRecord) : (s.recordContract r).hostIn = s.hostIn := rfl
@[simp] theorem State.recordContract_hostOut (s : State) (r : ContractRecord) : (s.recordContract r).hostOut = s.hostOut := rfl
@[simp] theorem State.recordContract_inputs (s : State) (r : ContractRecord) : (s.recordContract r).inputs = s.inputs := rfl
@[simp] theorem State.recordContract_drawN (s : State) (r : ContractRecord) : (s.recordContract r).drawN = s.drawN := rfl
@[simp] theorem State.recordContract_result (s : State) (r : ContractRecord) : (s.recordContract r).result = s.result := rfl

/-! ### The result of a pure operation -/

@[simp] theorem State.withResult_cfg (s : State) (r : OpResult) : (s.withResult r).cfg = s.cfg := rfl
@[simp] theorem State.withResult_decLast (s : State) (r : OpResult) : (s.withResult r).decLast = s.decLast := rfl
@[simp] theorem State.withResult_decCount (s : State) (r : OpResult) : (s.withResult r).decCount = s.decCount := rfl
@[simp] theorem State.withResult_rxState (s : State) (r : OpResult) : (s.withResult r).rxState = s.rxState := rfl
@[simp] theorem State.withResult_syncSr (s : State) (r : OpResult) : (s.withResult r).syncSr = s.syncSr := rfl
@[simp] theorem State.withResult_syncN (s : State) (r : OpResult) : (s.withResult r).syncN = s.syncN := rfl
@[simp] theorem State.withResult_symAcc (s : State) (r : OpResult) : (s.withResult r).symAcc = s.symAcc := rfl
@[simp] theorem State.withResult_symN (s : State) (r : OpResult) : (s.withResult r).symN = s.symN := rfl
@[simp] theorem State.withResult_copies (s : State) (r : OpResult) : (s.withResult r).copies = s.copies := rfl
@[simp] theorem State.withResult_copyN (s : State) (r : OpResult) : (s.withResult r).copyN = s.copyN := rfl
@[simp] theorem State.withResult_rxLen (s : State) (r : OpResult) : (s.withResult r).rxLen = s.rxLen := rfl
@[simp] theorem State.withResult_rxCrc (s : State) (r : OpResult) : (s.withResult r).rxCrc = s.rxCrc := rfl
@[simp] theorem State.withResult_rxIdx (s : State) (r : OpResult) : (s.withResult r).rxIdx = s.rxIdx := rfl
@[simp] theorem State.withResult_rxAcc (s : State) (r : OpResult) : (s.withResult r).rxAcc = s.rxAcc := rfl
@[simp] theorem State.withResult_ready (s : State) (r : OpResult) : (s.withResult r).ready = s.ready := rfl
@[simp] theorem State.withResult_slot (s : State) (r : OpResult) : (s.withResult r).slot = s.slot := rfl
@[simp] theorem State.withResult_slotLen (s : State) (r : OpResult) : (s.withResult r).slotLen = s.slotLen := rfl
@[simp] theorem State.withResult_txPhase (s : State) (r : OpResult) : (s.withResult r).txPhase = s.txPhase := rfl
@[simp] theorem State.withResult_txBusy (s : State) (r : OpResult) : (s.withResult r).txBusy = s.txBusy := rfl
@[simp] theorem State.withResult_txBuf (s : State) (r : OpResult) : (s.withResult r).txBuf = s.txBuf := rfl
@[simp] theorem State.withResult_txN (s : State) (r : OpResult) : (s.withResult r).txN = s.txN := rfl
@[simp] theorem State.withResult_txLeft (s : State) (r : OpResult) : (s.withResult r).txLeft = s.txLeft := rfl
@[simp] theorem State.withResult_txNextT (s : State) (r : OpResult) : (s.withResult r).txNextT = s.txNextT := rfl
@[simp] theorem State.withResult_now (s : State) (r : OpResult) : (s.withResult r).now = s.now := rfl
@[simp] theorem State.withResult_clock (s : State) (r : OpResult) : (s.withResult r).clock = s.clock := rfl
@[simp] theorem State.withResult_outTrace (s : State) (r : OpResult) : (s.withResult r).outTrace = s.outTrace := rfl
@[simp] theorem State.withResult_trace (s : State) (r : OpResult) : (s.withResult r).trace = s.trace := rfl
@[simp] theorem State.withResult_contract (s : State) (r : OpResult) : (s.withResult r).contract = s.contract := rfl
@[simp] theorem State.withResult_hostIn (s : State) (r : OpResult) : (s.withResult r).hostIn = s.hostIn := rfl
@[simp] theorem State.withResult_hostOut (s : State) (r : OpResult) : (s.withResult r).hostOut = s.hostOut := rfl
@[simp] theorem State.withResult_inputs (s : State) (r : OpResult) : (s.withResult r).inputs = s.inputs := rfl
@[simp] theorem State.withResult_drawN (s : State) (r : OpResult) : (s.withResult r).drawN = s.drawN := rfl
@[simp] theorem State.withResult_result (s : State) (r : OpResult) : (s.withResult r).result = r := rfl

/-! ### RX_ABORT -/

@[simp] theorem rxAbort_cfg (r : AbortReason) (s : State) : (rxAbort r s).cfg = s.cfg := rfl
@[simp] theorem rxAbort_decLast (r : AbortReason) (s : State) : (rxAbort r s).decLast = s.decLast := rfl
@[simp] theorem rxAbort_decCount (r : AbortReason) (s : State) : (rxAbort r s).decCount = s.decCount := rfl
@[simp] theorem rxAbort_rxState (r : AbortReason) (s : State) : (rxAbort r s).rxState = .idle := rfl
@[simp] theorem rxAbort_syncSr (r : AbortReason) (s : State) : (rxAbort r s).syncSr = 0 := rfl
@[simp] theorem rxAbort_syncN (r : AbortReason) (s : State) : (rxAbort r s).syncN = 0 := rfl
@[simp] theorem rxAbort_symAcc (r : AbortReason) (s : State) : (rxAbort r s).symAcc = 0 := rfl
@[simp] theorem rxAbort_symN (r : AbortReason) (s : State) : (rxAbort r s).symN = 0 := rfl
@[simp] theorem rxAbort_copies (r : AbortReason) (s : State) : (rxAbort r s).copies = s.copies := rfl
@[simp] theorem rxAbort_copyN (r : AbortReason) (s : State) : (rxAbort r s).copyN = 0 := rfl
@[simp] theorem rxAbort_rxLen (r : AbortReason) (s : State) : (rxAbort r s).rxLen = s.rxLen := rfl
@[simp] theorem rxAbort_rxCrc (r : AbortReason) (s : State) : (rxAbort r s).rxCrc = s.rxCrc := rfl
@[simp] theorem rxAbort_rxIdx (r : AbortReason) (s : State) : (rxAbort r s).rxIdx = 0 := rfl
@[simp] theorem rxAbort_rxAcc (r : AbortReason) (s : State) : (rxAbort r s).rxAcc = s.rxAcc := rfl
@[simp] theorem rxAbort_ready (r : AbortReason) (s : State) : (rxAbort r s).ready = s.ready := rfl
@[simp] theorem rxAbort_slot (r : AbortReason) (s : State) : (rxAbort r s).slot = s.slot := rfl
@[simp] theorem rxAbort_slotLen (r : AbortReason) (s : State) : (rxAbort r s).slotLen = s.slotLen := rfl
@[simp] theorem rxAbort_txPhase (r : AbortReason) (s : State) : (rxAbort r s).txPhase = s.txPhase := rfl
@[simp] theorem rxAbort_txBusy (r : AbortReason) (s : State) : (rxAbort r s).txBusy = s.txBusy := rfl
@[simp] theorem rxAbort_txBuf (r : AbortReason) (s : State) : (rxAbort r s).txBuf = s.txBuf := rfl
@[simp] theorem rxAbort_txN (r : AbortReason) (s : State) : (rxAbort r s).txN = s.txN := rfl
@[simp] theorem rxAbort_txLeft (r : AbortReason) (s : State) : (rxAbort r s).txLeft = s.txLeft := rfl
@[simp] theorem rxAbort_txNextT (r : AbortReason) (s : State) : (rxAbort r s).txNextT = s.txNextT := rfl
@[simp] theorem rxAbort_now (r : AbortReason) (s : State) : (rxAbort r s).now = s.now := rfl
@[simp] theorem rxAbort_clock (r : AbortReason) (s : State) : (rxAbort r s).clock = s.clock := rfl
@[simp] theorem rxAbort_outTrace (r : AbortReason) (s : State) : (rxAbort r s).outTrace = s.outTrace := rfl
@[simp] theorem rxAbort_trace (r : AbortReason) (s : State) : (rxAbort r s).trace = s.trace ++ [r] := rfl
@[simp] theorem rxAbort_contract (r : AbortReason) (s : State) : (rxAbort r s).contract = s.contract := rfl
@[simp] theorem rxAbort_hostIn (r : AbortReason) (s : State) : (rxAbort r s).hostIn = s.hostIn := rfl
@[simp] theorem rxAbort_hostOut (r : AbortReason) (s : State) : (rxAbort r s).hostOut = s.hostOut := rfl
@[simp] theorem rxAbort_inputs (r : AbortReason) (s : State) : (rxAbort r s).inputs = s.inputs := rfl
@[simp] theorem rxAbort_drawN (r : AbortReason) (s : State) : (rxAbort r s).drawN = s.drawN := rfl
@[simp] theorem rxAbort_result (r : AbortReason) (s : State) : (rxAbort r s).result = s.result := rfl

/-! ### Re-arming after RX_RECEIVE -/

@[simp] theorem rearm_cfg (s : State) : (rearm s).cfg = s.cfg := rfl
@[simp] theorem rearm_decLast (s : State) : (rearm s).decLast = none := rfl
@[simp] theorem rearm_decCount (s : State) : (rearm s).decCount = 0 := rfl
@[simp] theorem rearm_rxState (s : State) : (rearm s).rxState = .idle := rfl
@[simp] theorem rearm_syncSr (s : State) : (rearm s).syncSr = 0 := rfl
@[simp] theorem rearm_syncN (s : State) : (rearm s).syncN = 0 := rfl
@[simp] theorem rearm_symAcc (s : State) : (rearm s).symAcc = 0 := rfl
@[simp] theorem rearm_symN (s : State) : (rearm s).symN = 0 := rfl
@[simp] theorem rearm_copies (s : State) : (rearm s).copies = s.copies := rfl
@[simp] theorem rearm_copyN (s : State) : (rearm s).copyN = 0 := rfl
@[simp] theorem rearm_rxLen (s : State) : (rearm s).rxLen = s.rxLen := rfl
@[simp] theorem rearm_rxCrc (s : State) : (rearm s).rxCrc = s.rxCrc := rfl
@[simp] theorem rearm_rxIdx (s : State) : (rearm s).rxIdx = 0 := rfl
@[simp] theorem rearm_rxAcc (s : State) : (rearm s).rxAcc = s.rxAcc := rfl
@[simp] theorem rearm_ready (s : State) : (rearm s).ready = false := rfl
@[simp] theorem rearm_slot (s : State) : (rearm s).slot = .unspecified s.drawN := rfl
@[simp] theorem rearm_slotLen (s : State) : (rearm s).slotLen = 0 := rfl
@[simp] theorem rearm_txPhase (s : State) : (rearm s).txPhase = s.txPhase := rfl
@[simp] theorem rearm_txBusy (s : State) : (rearm s).txBusy = s.txBusy := rfl
@[simp] theorem rearm_txBuf (s : State) : (rearm s).txBuf = s.txBuf := rfl
@[simp] theorem rearm_txN (s : State) : (rearm s).txN = s.txN := rfl
@[simp] theorem rearm_txLeft (s : State) : (rearm s).txLeft = s.txLeft := rfl
@[simp] theorem rearm_txNextT (s : State) : (rearm s).txNextT = s.txNextT := rfl
@[simp] theorem rearm_now (s : State) : (rearm s).now = s.now := rfl
@[simp] theorem rearm_clock (s : State) : (rearm s).clock = s.clock := rfl
@[simp] theorem rearm_outTrace (s : State) : (rearm s).outTrace = s.outTrace := rfl
@[simp] theorem rearm_trace (s : State) : (rearm s).trace = s.trace := rfl
@[simp] theorem rearm_contract (s : State) : (rearm s).contract = s.contract := rfl
@[simp] theorem rearm_hostIn (s : State) : (rearm s).hostIn = s.hostIn := rfl
@[simp] theorem rearm_hostOut (s : State) : (rearm s).hostOut = s.hostOut := rfl
@[simp] theorem rearm_inputs (s : State) : (rearm s).inputs = s.inputs := rfl
@[simp] theorem rearm_drawN (s : State) : (rearm s).drawN = s.drawN + 1 := rfl
@[simp] theorem rearm_result (s : State) : (rearm s).result = s.result := rfl

/-! ### Another content of one array -/

@[simp] theorem State.withArray_cfg (s : State) (a : ArrayName) (m : Memory) : (s.withArray a m).cfg = s.cfg := by cases a <;> rfl
@[simp] theorem State.withArray_decLast (s : State) (a : ArrayName) (m : Memory) : (s.withArray a m).decLast = s.decLast := by cases a <;> rfl
@[simp] theorem State.withArray_decCount (s : State) (a : ArrayName) (m : Memory) : (s.withArray a m).decCount = s.decCount := by cases a <;> rfl
@[simp] theorem State.withArray_rxState (s : State) (a : ArrayName) (m : Memory) : (s.withArray a m).rxState = s.rxState := by cases a <;> rfl
@[simp] theorem State.withArray_syncSr (s : State) (a : ArrayName) (m : Memory) : (s.withArray a m).syncSr = s.syncSr := by cases a <;> rfl
@[simp] theorem State.withArray_syncN (s : State) (a : ArrayName) (m : Memory) : (s.withArray a m).syncN = s.syncN := by cases a <;> rfl
@[simp] theorem State.withArray_symAcc (s : State) (a : ArrayName) (m : Memory) : (s.withArray a m).symAcc = s.symAcc := by cases a <;> rfl
@[simp] theorem State.withArray_symN (s : State) (a : ArrayName) (m : Memory) : (s.withArray a m).symN = s.symN := by cases a <;> rfl
@[simp] theorem State.withArray_copies (s : State) (a : ArrayName) (m : Memory) : (s.withArray a m).copies = s.copies := by cases a <;> rfl
@[simp] theorem State.withArray_copyN (s : State) (a : ArrayName) (m : Memory) : (s.withArray a m).copyN = s.copyN := by cases a <;> rfl
@[simp] theorem State.withArray_rxLen (s : State) (a : ArrayName) (m : Memory) : (s.withArray a m).rxLen = s.rxLen := by cases a <;> rfl
@[simp] theorem State.withArray_rxCrc (s : State) (a : ArrayName) (m : Memory) : (s.withArray a m).rxCrc = s.rxCrc := by cases a <;> rfl
@[simp] theorem State.withArray_rxIdx (s : State) (a : ArrayName) (m : Memory) : (s.withArray a m).rxIdx = s.rxIdx := by cases a <;> rfl
@[simp] theorem State.withArray_rxAcc (s : State) (a : ArrayName) (m : Memory) : (s.withArray a m).rxAcc = if a = .rxAcc then m else s.rxAcc := by cases a <;> rfl
@[simp] theorem State.withArray_ready (s : State) (a : ArrayName) (m : Memory) : (s.withArray a m).ready = s.ready := by cases a <;> rfl
@[simp] theorem State.withArray_slot (s : State) (a : ArrayName) (m : Memory) : (s.withArray a m).slot = if a = .slot then m else s.slot := by cases a <;> rfl
@[simp] theorem State.withArray_slotLen (s : State) (a : ArrayName) (m : Memory) : (s.withArray a m).slotLen = s.slotLen := by cases a <;> rfl
@[simp] theorem State.withArray_txPhase (s : State) (a : ArrayName) (m : Memory) : (s.withArray a m).txPhase = s.txPhase := by cases a <;> rfl
@[simp] theorem State.withArray_txBusy (s : State) (a : ArrayName) (m : Memory) : (s.withArray a m).txBusy = s.txBusy := by cases a <;> rfl
@[simp] theorem State.withArray_txBuf (s : State) (a : ArrayName) (m : Memory) : (s.withArray a m).txBuf = if a = .txBuf then m else s.txBuf := by cases a <;> rfl
@[simp] theorem State.withArray_txN (s : State) (a : ArrayName) (m : Memory) : (s.withArray a m).txN = s.txN := by cases a <;> rfl
@[simp] theorem State.withArray_txLeft (s : State) (a : ArrayName) (m : Memory) : (s.withArray a m).txLeft = s.txLeft := by cases a <;> rfl
@[simp] theorem State.withArray_txNextT (s : State) (a : ArrayName) (m : Memory) : (s.withArray a m).txNextT = s.txNextT := by cases a <;> rfl
@[simp] theorem State.withArray_now (s : State) (a : ArrayName) (m : Memory) : (s.withArray a m).now = s.now := by cases a <;> rfl
@[simp] theorem State.withArray_clock (s : State) (a : ArrayName) (m : Memory) : (s.withArray a m).clock = s.clock := by cases a <;> rfl
@[simp] theorem State.withArray_outTrace (s : State) (a : ArrayName) (m : Memory) : (s.withArray a m).outTrace = s.outTrace := by cases a <;> rfl
@[simp] theorem State.withArray_trace (s : State) (a : ArrayName) (m : Memory) : (s.withArray a m).trace = s.trace := by cases a <;> rfl
@[simp] theorem State.withArray_contract (s : State) (a : ArrayName) (m : Memory) : (s.withArray a m).contract = s.contract := by cases a <;> rfl
@[simp] theorem State.withArray_hostIn (s : State) (a : ArrayName) (m : Memory) : (s.withArray a m).hostIn = s.hostIn := by cases a <;> rfl
@[simp] theorem State.withArray_hostOut (s : State) (a : ArrayName) (m : Memory) : (s.withArray a m).hostOut = s.hostOut := by cases a <;> rfl
@[simp] theorem State.withArray_inputs (s : State) (a : ArrayName) (m : Memory) : (s.withArray a m).inputs = s.inputs := by cases a <;> rfl
@[simp] theorem State.withArray_drawN (s : State) (a : ArrayName) (m : Memory) : (s.withArray a m).drawN = s.drawN := by cases a <;> rfl
@[simp] theorem State.withArray_result (s : State) (a : ArrayName) (m : Memory) : (s.withArray a m).result = s.result := by cases a <;> rfl

/-! ### RX_DISARM -/

@[simp] theorem rxDisarm_cfg (s : State) : (rxDisarm s).cfg = s.cfg := by
  unfold rxDisarm; by_cases h : s.rxState = .accepted <;> simp [h]
@[simp] theorem rxDisarm_decLast (s : State) : (rxDisarm s).decLast = none := by
  unfold rxDisarm; by_cases h : s.rxState = .accepted <;> simp [h]
@[simp] theorem rxDisarm_decCount (s : State) : (rxDisarm s).decCount = 0 := by
  unfold rxDisarm; by_cases h : s.rxState = .accepted <;> simp [h]
@[simp] theorem rxDisarm_rxState (s : State) : (rxDisarm s).rxState = if s.rxState = .accepted then .accepted else .idle := by
  unfold rxDisarm; by_cases h : s.rxState = .accepted <;> simp [h]
@[simp] theorem rxDisarm_syncSr (s : State) : (rxDisarm s).syncSr = if s.rxState = .accepted then s.syncSr else 0 := by
  unfold rxDisarm; by_cases h : s.rxState = .accepted <;> simp [h]
@[simp] theorem rxDisarm_syncN (s : State) : (rxDisarm s).syncN = if s.rxState = .accepted then s.syncN else 0 := by
  unfold rxDisarm; by_cases h : s.rxState = .accepted <;> simp [h]
@[simp] theorem rxDisarm_symAcc (s : State) : (rxDisarm s).symAcc = if s.rxState = .accepted then s.symAcc else 0 := by
  unfold rxDisarm; by_cases h : s.rxState = .accepted <;> simp [h]
@[simp] theorem rxDisarm_symN (s : State) : (rxDisarm s).symN = if s.rxState = .accepted then s.symN else 0 := by
  unfold rxDisarm; by_cases h : s.rxState = .accepted <;> simp [h]
@[simp] theorem rxDisarm_copies (s : State) : (rxDisarm s).copies = s.copies := by
  unfold rxDisarm; by_cases h : s.rxState = .accepted <;> simp [h]
@[simp] theorem rxDisarm_copyN (s : State) : (rxDisarm s).copyN = if s.rxState = .accepted then s.copyN else 0 := by
  unfold rxDisarm; by_cases h : s.rxState = .accepted <;> simp [h]
@[simp] theorem rxDisarm_rxLen (s : State) : (rxDisarm s).rxLen = s.rxLen := by
  unfold rxDisarm; by_cases h : s.rxState = .accepted <;> simp [h]
@[simp] theorem rxDisarm_rxCrc (s : State) : (rxDisarm s).rxCrc = s.rxCrc := by
  unfold rxDisarm; by_cases h : s.rxState = .accepted <;> simp [h]
@[simp] theorem rxDisarm_rxIdx (s : State) : (rxDisarm s).rxIdx = if s.rxState = .accepted then s.rxIdx else 0 := by
  unfold rxDisarm; by_cases h : s.rxState = .accepted <;> simp [h]
@[simp] theorem rxDisarm_rxAcc (s : State) : (rxDisarm s).rxAcc = s.rxAcc := by
  unfold rxDisarm; by_cases h : s.rxState = .accepted <;> simp [h]
@[simp] theorem rxDisarm_ready (s : State) : (rxDisarm s).ready = s.ready := by
  unfold rxDisarm; by_cases h : s.rxState = .accepted <;> simp [h]
@[simp] theorem rxDisarm_slot (s : State) : (rxDisarm s).slot = s.slot := by
  unfold rxDisarm; by_cases h : s.rxState = .accepted <;> simp [h]
@[simp] theorem rxDisarm_slotLen (s : State) : (rxDisarm s).slotLen = s.slotLen := by
  unfold rxDisarm; by_cases h : s.rxState = .accepted <;> simp [h]
@[simp] theorem rxDisarm_txPhase (s : State) : (rxDisarm s).txPhase = s.txPhase := by
  unfold rxDisarm; by_cases h : s.rxState = .accepted <;> simp [h]
@[simp] theorem rxDisarm_txBusy (s : State) : (rxDisarm s).txBusy = s.txBusy := by
  unfold rxDisarm; by_cases h : s.rxState = .accepted <;> simp [h]
@[simp] theorem rxDisarm_txBuf (s : State) : (rxDisarm s).txBuf = s.txBuf := by
  unfold rxDisarm; by_cases h : s.rxState = .accepted <;> simp [h]
@[simp] theorem rxDisarm_txN (s : State) : (rxDisarm s).txN = s.txN := by
  unfold rxDisarm; by_cases h : s.rxState = .accepted <;> simp [h]
@[simp] theorem rxDisarm_txLeft (s : State) : (rxDisarm s).txLeft = s.txLeft := by
  unfold rxDisarm; by_cases h : s.rxState = .accepted <;> simp [h]
@[simp] theorem rxDisarm_txNextT (s : State) : (rxDisarm s).txNextT = s.txNextT := by
  unfold rxDisarm; by_cases h : s.rxState = .accepted <;> simp [h]
@[simp] theorem rxDisarm_now (s : State) : (rxDisarm s).now = s.now := by
  unfold rxDisarm; by_cases h : s.rxState = .accepted <;> simp [h]
@[simp] theorem rxDisarm_clock (s : State) : (rxDisarm s).clock = s.clock := by
  unfold rxDisarm; by_cases h : s.rxState = .accepted <;> simp [h]
@[simp] theorem rxDisarm_outTrace (s : State) : (rxDisarm s).outTrace = s.outTrace := by
  unfold rxDisarm; by_cases h : s.rxState = .accepted <;> simp [h]
@[simp] theorem rxDisarm_trace (s : State) : (rxDisarm s).trace = if s.rxState = .accepted then s.trace else s.trace ++ [.txMask] := by
  unfold rxDisarm; by_cases h : s.rxState = .accepted <;> simp [h]
@[simp] theorem rxDisarm_contract (s : State) : (rxDisarm s).contract = s.contract := by
  unfold rxDisarm; by_cases h : s.rxState = .accepted <;> simp [h]
@[simp] theorem rxDisarm_hostIn (s : State) : (rxDisarm s).hostIn = s.hostIn := by
  unfold rxDisarm; by_cases h : s.rxState = .accepted <;> simp [h]
@[simp] theorem rxDisarm_hostOut (s : State) : (rxDisarm s).hostOut = s.hostOut := by
  unfold rxDisarm; by_cases h : s.rxState = .accepted <;> simp [h]
@[simp] theorem rxDisarm_inputs (s : State) : (rxDisarm s).inputs = s.inputs := by
  unfold rxDisarm; by_cases h : s.rxState = .accepted <;> simp [h]
@[simp] theorem rxDisarm_drawN (s : State) : (rxDisarm s).drawN = s.drawN := by
  unfold rxDisarm; by_cases h : s.rxState = .accepted <;> simp [h]
@[simp] theorem rxDisarm_result (s : State) : (rxDisarm s).result = s.result := by
  unfold rxDisarm; by_cases h : s.rxState = .accepted <;> simp [h]

end Sys2Proof.Machine
end

