-- ==== Sys2Proof/Laws/Memory.lean ====
section
/-! SUPPORT. The laws of the byte arrays: read after write, the canonical form, and what a run of reads or writes does. -/

namespace Sys2Proof.Machine

theorem readCells_writeCells (m : List Host.Cell) (i j : Nat) (v : Byte) :
    readCells (writeCells m i v) j = if j = i then some v else readCells m j := by
  induction m with
  | nil => simp [writeCells, readCells, eq_comm]
  | cons x m ih =>
    obtain ⟨a, w⟩ := x
    simp only [writeCells]
    split
    · simp [readCells, eq_comm]
    · split
      · subst_vars
        by_cases hj : j = a
        · simp [readCells, hj]
        · simp [readCells, hj, Ne.symm hj]
      · simp only [readCells, ih]; split_ifs <;> simp_all

theorem Memory.read_write (m : Memory) (i j : Nat) (v : Byte) :
    (m.write i v).read j = if j = i then v else m.read j := by
  simp only [Memory.read, Memory.write, readCells_writeCells]
  split <;> rfl

@[simp] theorem Memory.read_write_same (m : Memory) (i : Nat) (v : Byte) : (m.write i v).read i = v := by
  simp [Memory.read_write]

theorem Memory.read_write_other (m : Memory) {i j : Nat} (h : j ≠ i) (v : Byte) :
    (m.write i v).read j = m.read j := by simp [Memory.read_write, h]

@[simp] theorem Memory.written_write (m : Memory) (i j : Nat) (v : Byte) :
    (m.write i v).written j = (decide (j = i) || m.written j) := by
  simp only [Memory.written, Memory.write, readCells_writeCells]
  by_cases h : j = i <;> simp [h]

@[simp] theorem Memory.drawn_write (m : Memory) (i : Nat) (v : Byte) : (m.write i v).drawn = m.drawn := rfl

/-- What a written byte reads as does not depend on the draw. -/
theorem Memory.read_redrawn {m : Memory} {i : Nat} (h : m.written i = true) (k : Nat) :
    { m with drawn := k }.read i = m.read i := by
  obtain ⟨v, hv⟩ := Option.isSome_iff_exists.1 h
  simp [Memory.read, hv]

/-- The cells after a write are the new one and old ones. -/
theorem mem_writeCells {m : List Host.Cell} {i : Nat} {v : Byte} {x : Host.Cell} (h : x ∈ writeCells m i v) :
    x = (i, v) ∨ x ∈ m := by
  induction m with
  | nil => simpa [writeCells] using h
  | cons y m ih =>
    obtain ⟨a, w⟩ := y
    simp only [writeCells] at h
    split at h
    · simpa using h
    · split at h
      · subst_vars; rcases List.mem_cons.1 h with h | h <;> simp [h]
      · rcases List.mem_cons.1 h with h | h
        · simp [h]
        · rcases ih h with h | h <;> simp [h]

theorem Memory.wf_iff (m : Memory) : m.wf = true ↔ m.cells.Pairwise (fun x y => x.1 < y.1) := by
  simp [Memory.wf]

/-- A write keeps the indices strictly rising. -/
theorem writeCells_rising {m : List Host.Cell} (h : m.Pairwise fun x y => x.1 < y.1) (i : Nat) (v : Byte) :
    (writeCells m i v).Pairwise fun x y => x.1 < y.1 := by
  induction m with
  | nil => simp [writeCells]
  | cons x m ih =>
    obtain ⟨a, w⟩ := x
    obtain ⟨ha, hm⟩ := List.pairwise_cons.1 h
    simp only [writeCells]
    split
    case isTrue hia =>
      refine List.pairwise_cons.2 ⟨?_, h⟩
      intro y hy
      rcases List.mem_cons.1 hy with rfl | hy
      · exact hia
      · exact lt_trans hia (ha y hy)
    case isFalse hia =>
      split
      case isTrue heq => subst heq; exact List.pairwise_cons.2 ⟨ha, hm⟩
      case isFalse hne =>
        refine List.pairwise_cons.2 ⟨?_, ih hm⟩
        intro y hy
        rcases mem_writeCells hy with rfl | hy
        · simp only; omega
        · exact ha y hy

/-- A write keeps the canonical form. -/
theorem Memory.wf_write {m : Memory} (h : m.wf = true) (i : Nat) (v : Byte) : (m.write i v).wf = true :=
  (Memory.wf_iff _).2 (writeCells_rising ((Memory.wf_iff m).1 h) i v)

theorem arrayOk_unspecified (c : Config) (k : Nat) : arrayOk c (.unspecified k) := by
  simp [arrayOk, Memory.wf, Memory.unspecified]

/-- A write inside the array keeps it in canonical form and inside its size. -/
theorem arrayOk_write {c : Config} {m : Memory} (h : arrayOk c m) {i : Nat} (hi : i < bufSize c) (v : Byte) :
    arrayOk c (m.write i v) := by
  refine ⟨Memory.wf_write h.1 i v, fun x hx => ?_⟩
  rcases mem_writeCells hx with rfl | hx
  · exact hi
  · exact h.2 x hx

/-- A write leaves the written bytes written. -/
theorem covers_write {m : Memory} {n : Nat} (h : covers m n) (i : Nat) (v : Byte) : covers (m.write i v) n := by
  intro j hj
  simp [h j hj]

theorem covers_write_next {m : Memory} {n : Nat} (h : covers m n) (v : Byte) : covers (m.write n v) (n + 1) := by
  intro j hj
  by_cases e : j = n
  · simp [e]
  · simp [h j (by omega)]

theorem covers_mono {m : Memory} {n k : Nat} (h : covers m n) (hk : k ≤ n) : covers m k :=
  fun i hi => h i (by omega)

@[simp] theorem State.array_withArray_same (s : State) (a : ArrayName) (m : Memory) : (s.withArray a m).array a = m := by
  cases a <;> rfl

theorem arrayRead_eq {a : ArrayName} {s : State} {i : Nat} (hi : i < bufSize s.cfg) :
    arrayRead a s i = .ok ((s.array a).read i) := by
  simp [arrayRead, hi]

/-- An array read that answers gave the array's byte, inside its size. -/
theorem arrayRead_ok {a : ArrayName} {s : State} {i : Nat} {v : Byte} (h : arrayRead a s i = .ok v) :
    i < bufSize s.cfg ∧ v = (s.array a).read i := by
  unfold arrayRead at h
  split at h
  · cases h; exact ⟨‹_›, rfl⟩
  · cases h

theorem arrayWrite_eq {a : ArrayName} {s : State} {i : Nat} (hi : i < bufSize s.cfg) (v : Byte) :
    arrayWrite a s i v = .ok (s.withArray a ((s.array a).write i v)) := by
  simp [arrayWrite, hi]

/-- An array write that answers wrote one byte of one array, inside its size. -/
theorem arrayWrite_ok {a : ArrayName} {s s' : State} {i : Nat} {v : Byte} (h : arrayWrite a s i v = .ok s') :
    i < bufSize s.cfg ∧ s' = s.withArray a ((s.array a).write i v) := by
  unfold arrayWrite at h
  split at h
  · simp_all
  · cases h

/-- A run of reads inside the array answers the bytes it holds. -/
theorem readBytes_eq {a : ArrayName} {s : State} (bytes : List Byte) (i : Nat)
    (hsize : i + bytes.length ≤ bufSize s.cfg)
    (h : ∀ j, j < bytes.length → some ((s.array a).read (i + j)) = bytes[j]?) :
    readBytes a s i bytes.length = .ok bytes := by
  induction bytes generalizing i with
  | nil => rfl
  | cons b bs ih =>
    have h0 : (s.array a).read i = b := by simpa using h 0 (by simp)
    have hs : i + 1 + bs.length ≤ bufSize s.cfg := by simpa [Nat.add_assoc, Nat.add_comm 1] using hsize
    have ht : ∀ j, j < bs.length → some ((s.array a).read (i + 1 + j)) = bs[j]? := by
      intro j hj
      have := h (j + 1) (by simpa using hj)
      simpa [Nat.add_assoc, Nat.add_comm 1] using this
    have hi : i < bufSize s.cfg := by simp at hsize; omega
    rw [List.length_cons, readBytes, arrayRead_eq hi, ih (i + 1) hs ht, h0]

theorem readBytes_zero_eq {a : ArrayName} {s : State} {bytes : List Byte} (hsize : bytes.length ≤ bufSize s.cfg)
    (h : holds (s.array a) bytes) : readBytes a s 0 bytes.length = .ok bytes :=
  readBytes_eq bytes 0 (by simpa using hsize) (fun j hj => by rw [Nat.zero_add]; exact h j hj)

/-- The first bytes of an array can be listed. -/
theorem exists_holds (m : Memory) (n : Nat) : ∃ bytes : List Byte, bytes.length = n ∧ holds m bytes := by
  refine ⟨(List.range n).map m.read, by simp, ?_⟩
  intro i hi
  simp only [List.length_map, List.length_range] at hi
  simp [hi]

/-- Bytes that have been written are held whatever the draw. -/
theorem holds_redrawn {m : Memory} {bytes : List Byte} (hc : covers m bytes.length) (h : holds m bytes) (k : Nat) :
    holds { m with drawn := k } bytes := by
  intro i hi
  rw [Memory.read_redrawn (hc i hi)]
  exact h i hi

/-- A run of reads does not look at anything but the array and the configuration. -/
theorem readBytes_congr {a : ArrayName} {s t : State} (ha : s.array a = t.array a) (hc : s.cfg = t.cfg) (i n : Nat) :
    readBytes a s i n = readBytes a t i n := by
  induction n generalizing i with
  | zero => rfl
  | succ n ih => simp only [readBytes, arrayRead, ha, hc, ih]

/-- The array after a run of writes from `i` on. -/
def Memory.writeList : Memory → (i : Nat) → List Byte → Memory
  | m, _, [] => m
  | m, i, b :: bs => Memory.writeList (Memory.write m i b) (i + 1) bs

theorem Memory.read_writeList (m : Memory) (i : Nat) (bytes : List Byte) (j : Nat) :
    (Memory.writeList m i bytes).read j =
      if i ≤ j ∧ j < i + bytes.length then (bytes[j - i]?).getD 0 else m.read j := by
  induction bytes generalizing m i with
  | nil => simp [Memory.writeList]
  | cons b bs ih =>
    rw [Memory.writeList, ih, Memory.read_write]
    simp only [List.length_cons]
    by_cases h1 : i + 1 ≤ j ∧ j < i + 1 + bs.length
    · have h2 : i ≤ j ∧ j < i + (bs.length + 1) := by omega
      obtain ⟨k, rfl⟩ : ∃ k, j = i + (k + 1) := ⟨j - i - 1, by omega⟩
      rw [if_pos h1, if_pos h2]
      have e1 : i + (k + 1) - (i + 1) = k := by omega
      have e2 : i + (k + 1) - i = k + 1 := by omega
      rw [e1, e2]; rfl
    · by_cases h3 : j = i
      · subst h3
        have h2 : j ≤ j ∧ j < j + (bs.length + 1) := by omega
        simp
      · have h2 : ¬(i ≤ j ∧ j < i + (bs.length + 1)) := by omega
        simp only [h1, h2, h3, if_false]

/-- The written bytes are what the array holds. -/
theorem Memory.holds_writeList (m : Memory) (bytes : List Byte) : holds (Memory.writeList m 0 bytes) bytes := by
  intro i hi
  simp [Memory.read_writeList, hi]

theorem covers_writeList (m : Memory) (bytes : List Byte) : covers (Memory.writeList m 0 bytes) bytes.length := by
  have keep : ∀ (bs : List Byte) (m : Memory) (i j : Nat), m.written j = true → (m.writeList i bs).written j = true := by
    intro bs
    induction bs with
    | nil => intro m i j h; exact h
    | cons b bs ih => intro m i j h; exact ih _ _ _ (by simp [h])
  have all : ∀ (bs : List Byte) (m : Memory) (i j : Nat), i ≤ j → j < i + bs.length → (m.writeList i bs).written j = true := by
    intro bs
    induction bs with
    | nil => intro m i j h1 h2; simp at h2; omega
    | cons b bs ih =>
      intro m i j h1 h2
      by_cases e : j = i
      · exact keep bs _ _ _ (by simp [e])
      · exact ih _ _ _ (by omega) (by simp at h2; omega)
  exact fun j hj => all bytes m 0 j (by omega) (by omega)

theorem arrayOk_writeList {c : Config} {m : Memory} (h : arrayOk c m) (i : Nat) (bytes : List Byte)
    (hi : i + bytes.length ≤ bufSize c) : arrayOk c (Memory.writeList m i bytes) := by
  induction bytes generalizing m i with
  | nil => exact h
  | cons b bs ih =>
    simp only [List.length_cons] at hi
    exact ih (arrayOk_write h (by omega) b) (i + 1) (by omega)

@[simp] theorem State.withArray_self (s : State) (a : ArrayName) : s.withArray a (s.array a) = s := by cases a <;> rfl

@[simp] theorem State.withArray_withArray (s : State) (a : ArrayName) (m m' : Memory) :
    (s.withArray a m).withArray a m' = s.withArray a m' := by cases a <;> rfl

/-- A run of writes inside the array writes them all, and nothing else. -/
theorem writeBytes_eq {a : ArrayName} (s : State) (i : Nat) (bytes : List Byte)
    (hi : i + bytes.length ≤ bufSize s.cfg) :
    writeBytes a s i bytes = .ok (s.withArray a ((s.array a).writeList i bytes)) := by
  induction bytes generalizing s i with
  | nil => simp [writeBytes, Memory.writeList]
  | cons b bs ih =>
    simp only [List.length_cons] at hi
    rw [writeBytes, arrayWrite_eq (by omega)]
    simp only
    rw [ih _ (i + 1) (by simp; omega)]
    simp [Memory.writeList]

/-- A run of writes that answers wrote one array inside its size. -/
theorem writeBytes_ok {a : ArrayName} {s s' : State} {i : Nat} {bytes : List Byte} (h : writeBytes a s i bytes = .ok s') :
    s' = s.withArray a ((s.array a).writeList i bytes) ∧ (bytes = [] ∨ i + bytes.length ≤ bufSize s.cfg) := by
  induction bytes generalizing s i with
  | nil => simp_all [writeBytes, Memory.writeList]
  | cons b bs ih =>
    simp only [writeBytes] at h
    split at h
    · cases h
    · rename_i s1 h1
      obtain ⟨hlt, rfl⟩ := arrayWrite_ok h1
      obtain ⟨h2, h3⟩ := ih h
      refine ⟨by simpa [Memory.writeList] using h2, Or.inr ?_⟩
      rcases h3 with rfl | h3
      · simpa using hlt
      · simp only [State.withArray_cfg] at h3; simp; omega

/-- A run of reads that answers gave `count` bytes, those the array holds. -/
theorem readBytes_ok {a : ArrayName} {s : State} {i n : Nat} {bytes : List Byte} (h : readBytes a s i n = .ok bytes) :
    bytes.length = n ∧ (∀ j, j < n → some ((s.array a).read (i + j)) = bytes[j]?) ∧ (n = 0 ∨ i + n ≤ bufSize s.cfg) := by
  induction n generalizing i bytes with
  | zero => simp [readBytes] at h; simp [← h]
  | succ n ih =>
    rw [readBytes] at h
    split at h
    · cases h
    · rename_i b hb
      split at h
      · cases h
      · rename_i bs hbs
        cases h
        obtain ⟨h1, h2, h3⟩ := ih hbs
        have hb' := arrayRead_ok hb
        refine ⟨by simp [h1], ?_, Or.inr (by omega)⟩
        intro j hj
        cases j with
        | zero => simp [hb'.2]
        | succ j =>
          have := h2 j (by omega)
          simpa [Nat.add_assoc, Nat.add_comm 1] using this

end Sys2Proof.Machine
end

