-- ==== Sys2Proof/Laws/Receiver.lean ====
section
/-! SUPPORT. What the receiver's procedures can do: their frame, their results, and that they keep the invariant. -/

namespace Sys2Proof.Machine

theorem toOutcome_eq_next {r : Except Fault State} {s : State} : toOutcome r = .next s ↔ r = .ok s := by
  cases r <;> simp [toOutcome]

theorem toOutcome_ok (s : State) : toOutcome (.ok s) = .next s := rfl

theorem toOutcome_ne_refused (r : Except Fault State) (x : Refusal) : toOutcome r ≠ .refused x := by
  cases r <;> simp [toOutcome]

/-- Only receiver elements, the slot and the abort trace differ. -/
structure OnlyReceiver (s s' : State) : Prop where
  cfg : s'.cfg = s.cfg
  decLast : s'.decLast = s.decLast
  decCount : s'.decCount = s.decCount
  txPhase : s'.txPhase = s.txPhase
  txBusy : s'.txBusy = s.txBusy
  txBuf : s'.txBuf = s.txBuf
  txN : s'.txN = s.txN
  txLeft : s'.txLeft = s.txLeft
  txNextT : s'.txNextT = s.txNextT
  now : s'.now = s.now
  clock : s'.clock = s.clock
  outTrace : s'.outTrace = s.outTrace
  contract : s'.contract = s.contract
  hostIn : s'.hostIn = s.hostIn
  hostOut : s'.hostOut = s.hostOut
  inputs : s'.inputs = s.inputs
  drawN : s'.drawN = s.drawN
  result : s'.result = s.result

theorem OnlyReceiver.refl (s : State) : OnlyReceiver s s := by constructor <;> rfl

theorem OnlyReceiver.trans {s t u : State} (h : OnlyReceiver s t) (k : OnlyReceiver t u) : OnlyReceiver s u := by
  constructor
  · exact k.cfg.trans h.cfg
  · exact k.decLast.trans h.decLast
  · exact k.decCount.trans h.decCount
  · exact k.txPhase.trans h.txPhase
  · exact k.txBusy.trans h.txBusy
  · exact k.txBuf.trans h.txBuf
  · exact k.txN.trans h.txN
  · exact k.txLeft.trans h.txLeft
  · exact k.txNextT.trans h.txNextT
  · exact k.now.trans h.now
  · exact k.clock.trans h.clock
  · exact k.outTrace.trans h.outTrace
  · exact k.contract.trans h.contract
  · exact k.hostIn.trans h.hostIn
  · exact k.hostOut.trans h.hostOut
  · exact k.inputs.trans h.inputs
  · exact k.drawN.trans h.drawN
  · exact k.result.trans h.result

theorem rxAbort_only (r : AbortReason) (s : State) : OnlyReceiver s (rxAbort r s) := by constructor <;> rfl

theorem idleSymbol_only (v : Sym) (s : State) : OnlyReceiver s (idleSymbol v s) := by constructor <;> rfl

theorem syncSymbol_only (v : Sym) (s : State) : OnlyReceiver s (syncSymbol v s) := by
  unfold syncSymbol; dsimp only; split <;> constructor <;> rfl

theorem lengthAccept_only (s : State) : OnlyReceiver s (lengthAccept s) := by constructor <;> rfl

theorem lengthCheck_only (s : State) : OnlyReceiver s (lengthCheck s) := by
  unfold lengthCheck
  split
  · split
    · exact lengthAccept_only s
    · exact rxAbort_only _ s
  · exact rxAbort_only _ s

/-- COMPLETE_ACCEPT copies the frame to the slot when RXACC holds it. -/
theorem completeAccept_eq {s : State} {bytes : List Byte} (hlen : bytes.length = (s.rxLen - 2).toNat)
    (hsize : bytes.length ≤ bufSize s.cfg) (h : holds s.rxAcc bytes) :
    completeAccept s = .ok
      { s with slot := s.slot.writeList 0 bytes, slotLen := s.rxLen - 2, ready := true, rxState := .accepted } := by
  unfold completeAccept
  rw [← hlen, readBytes_zero_eq (a := .rxAcc) hsize h]
  simp only
  rw [writeBytes_eq s 0 bytes (by simpa using hsize)]
  rfl

/-- Whenever COMPLETE_ACCEPT answers, that is what it did. -/
theorem completeAccept_ok {s s' : State} (h : completeAccept s = .ok s') :
    ∃ bytes : List Byte, bytes.length = (s.rxLen - 2).toNat ∧ holds s.rxAcc bytes ∧
      (bytes = [] ∨ bytes.length ≤ bufSize s.cfg) ∧
      s' = { s with
             slot := s.slot.writeList 0 bytes, slotLen := s.rxLen - 2, ready := true, rxState := .accepted } := by
  unfold completeAccept at h
  split at h
  · cases h
  · rename_i bytes hb
    split at h
    · cases h
    · rename_i s1 hw
      cases h
      obtain ⟨h1, h2, -⟩ := readBytes_ok hb
      obtain ⟨rfl, h4⟩ := writeBytes_ok hw
      refine ⟨bytes, h1, ?_, by simpa using h4, rfl⟩
      intro i hi
      simpa [State.array] using h2 i (by omega)

theorem completeAccept_only {s s' : State} (h : completeAccept s = .ok s') : OnlyReceiver s s' := by
  obtain ⟨bytes, -, -, -, rfl⟩ := completeAccept_ok h
  constructor <;> rfl

theorem complete_only {s s' : State} (h : complete s = .ok s') : OnlyReceiver s s' := by
  unfold complete at h
  split at h
  · exact completeAccept_only h
  · cases h; exact rxAbort_only _ s

/-- What BODY_BYTE does before it looks whether the body is complete. -/
def bodyStored (s : State) : State :=
  let v := maj3 s.copies.c0 s.copies.c1 s.copies.c2
  { s with
    rxCrc := crc16Update s.rxCrc v
    rxAcc := if s.rxIdx < (s.rxLen - 2).toNat then s.rxAcc.write s.rxIdx v else s.rxAcc
    rxIdx := s.rxIdx + 1 }

/-- BODY_BYTE stores the voted byte and completes the body at the last one. -/
theorem bodyByte_eq {s : State} (h : s.rxIdx < (s.rxLen - 2).toNat → s.rxIdx < bufSize s.cfg) :
    bodyByte s = if s.rxIdx + 1 = s.rxLen.toNat then complete (bodyStored s) else .ok (bodyStored s) := by
  unfold bodyByte storeBodyByte bodyStored
  by_cases hi : s.rxIdx < (s.rxLen - 2).toNat
  · simp only [hi, if_true, arrayWrite, h hi, State.withArray, State.array]
  · simp only [hi, if_false]

/-- BODY_BYTE answers only where its store is inside RXACC. -/
theorem bodyByte_ok {s s' : State} (h : bodyByte s = .ok s') :
    (s.rxIdx < (s.rxLen - 2).toNat → s.rxIdx < bufSize s.cfg) := by
  intro hi
  by_contra hn
  simp only [bodyByte, storeBodyByte, hi, if_true, arrayWrite, hn, if_false] at h
  cases h

theorem bodyStored_only (s : State) : OnlyReceiver s (bodyStored s) := by constructor <;> rfl

theorem bodyByte_only {s s' : State} (h : bodyByte s = .ok s') : OnlyReceiver s s' := by
  rw [bodyByte_eq (bodyByte_ok h)] at h
  split at h
  · exact (bodyStored_only s).trans (complete_only h)
  · cases h; exact bodyStored_only s

/-- The state after a symbol that completes a raw byte, before what follows the third copy. -/
def copyStored (v : Sym) (s : State) : State :=
  { s with
    symAcc := 0, symN := 0, copies := s.copies.set s.copyN (shiftByte s.symAcc v), copyN := nextCopy s.copyN }

/-- The three cases of BYTE_SYMBOL: a byte goes on, a copy is complete, the third copy is complete. -/
theorem byteSymbol_eq (v : Sym) (s : State) :
    byteSymbol v s =
      if s.symN ≠ 3 then .ok { s with symAcc := shiftByte s.symAcc v, symN := nextSymbol s.symN }
      else if s.copyN ≠ 2 then .ok (copyStored v s)
      else if s.rxState = .readingLength then .ok (lengthCheck (copyStored v s))
      else bodyByte (copyStored v s) := rfl

theorem copyStored_only (v : Sym) (s : State) : OnlyReceiver s (copyStored v s) := by constructor <;> rfl

theorem byteSymbol_only {v : Sym} {s s' : State} (h : byteSymbol v s = .ok s') : OnlyReceiver s s' := by
  rw [byteSymbol_eq] at h
  split at h
  · cases h; constructor <;> rfl
  · split at h
    · cases h; exact copyStored_only v s
    · split at h
      · cases h; exact (copyStored_only v s).trans (lengthCheck_only _)
      · exact (copyStored_only v s).trans (bodyByte_only h)

/-- A symbol changes the receiver, the slot and the trace only. -/
theorem rxSymbol_only {v : Sym} {s s' : State} (h : rxSymbol v s = .ok s') : OnlyReceiver s s' := by
  unfold rxSymbol at h
  split at h
  · cases h; exact idleSymbol_only v s
  · cases h; exact syncSymbol_only v s
  · exact byteSymbol_only h
  · exact byteSymbol_only h
  · cases h

end Sys2Proof.Machine
end

