-- ==== Sys2Proof/Laws/Invariant.lean ====
section
/-! SUPPORT. The shared operations complete and keep the invariant, one lemma for each; the claims about steps are
assembled from them. -/

namespace Sys2Proof.Machine

/-- The configuration's constraints (R10). -/
theorem configValid_iff (c : Config) : configValid c = true ↔
    2 ≤ c.pulseUs ∧ 8 * c.pulseUs < 2 ^ 32 ∧ c.maxPayload ≤ 249 ∧ c.resendCount ≤ 255 ∧
      c.backoffMinUs ≤ c.backoffMaxUs ∧ c.backoffMaxUs < 2 ^ 31 := by
  simp [configValid, and_assoc]

theorem lengthInRange_iff (c : Config) (len : Byte) :
    lengthInRange c len = true ↔ 6 ≤ len.toNat ∧ len.toNat ≤ maxFrame c := by
  rw [lengthInRange, Bool.and_eq_true, decide_eq_true_iff, decide_eq_true_iff]; rfl

/-- The frame's byte count, at the width of the length byte. -/
theorem length_sub_two {len : Byte} (h : 2 ≤ len.toNat) : (len - 2).toNat = len.toNat - 2 := by
  have h2 : (2 : Byte).toNat = 2 := rfl
  have := len.isLt
  rw [BitVec.toNat_sub, h2]
  omega

/-- A draw is in the backoff range (R155). -/
theorem backoffInRange_bounds {c : Config} (h : c.backoffMinUs ≤ c.backoffMaxUs) (n : Nat) :
    c.backoffMinUs ≤ backoffInRange c n ∧ backoffInRange c n ≤ c.backoffMaxUs := by
  unfold backoffInRange
  have := Nat.mod_lt n (show 0 < c.backoffMaxUs - c.backoffMinUs + 1 by omega)
  omega

theorem not_accepted {s : State} (h : Inv s) (hr : s.ready = false) : s.rxState ≠ .accepted := by
  intro ha
  simp [h.readyAccepted.2 ha] at hr

theorem rxAbort_inv {s : State} (h : Inv s) (hr : s.ready = false) (r : AbortReason) : Inv (rxAbort r s) where
  config := h.config
  txBufOk := h.txBufOk
  rxAccOk := h.rxAccOk
  slotOk := h.slotOk
  window := h.window
  idle _ := by simp
  syncing := by simp
  searching _ := by simp
  index := by simp
  reading := by simp
  readyAccepted := by simp [hr]
  slotEmpty := h.slotEmpty
  slotFull := by simp [hr]
  busyPhase := h.busyPhase
  sending := h.sending
  left := h.left

theorem idleSymbol_inv {s : State} (h : Inv s) (hs : s.rxState = .idle) (v : Sym) : Inv (idleSymbol v s) where
  config := h.config
  txBufOk := h.txBufOk
  rxAccOk := h.rxAccOk
  slotOk := h.slotOk
  window := h.window
  idle := by simp [idleSymbol]
  syncing := by simp [idleSymbol]
  searching _ := h.searching (.inl hs)
  index := h.index
  reading := by simp [idleSymbol]
  readyAccepted := by
    have : s.ready = false := by
      cases hr : s.ready
      · rfl
      · rw [h.readyAccepted.1 hr] at hs; cases hs
    simp [idleSymbol, this]
  slotEmpty := h.slotEmpty
  slotFull := h.slotFull
  busyPhase := h.busyPhase
  sending := h.sending
  left := h.left

theorem ready_false_of_state {s : State} (h : Inv s) (hs : s.rxState ≠ .accepted) : s.ready = false := by
  cases hr : s.ready
  · rfl
  · exact absurd (h.readyAccepted.1 hr) hs

theorem syncSymbol_inv {s : State} (h : Inv s) (hs : s.rxState = .syncing) (v : Sym) : Inv (syncSymbol v s) := by
  have hr : s.ready = false := ready_false_of_state h (by simp [hs])
  have hz := h.searching (.inr hs)
  unfold syncSymbol
  dsimp only
  split
  · exact
      { config := h.config, txBufOk := h.txBufOk, rxAccOk := h.rxAccOk, slotOk := h.slotOk, window := h.window
        idle := by simp, syncing := by simp, searching := by simp, index := h.index, reading := by simp
        readyAccepted := by simp [hr], slotEmpty := h.slotEmpty, slotFull := h.slotFull
        busyPhase := h.busyPhase, sending := h.sending, left := h.left }
  · exact
      { config := h.config, txBufOk := h.txBufOk, rxAccOk := h.rxAccOk, slotOk := h.slotOk, window := h.window
        idle := by simp [hs]
        syncing := by intro _; simp [countSync]
        searching := fun _ => hz, index := h.index, reading := by simp [hs]
        readyAccepted := by simp [hr, hs], slotEmpty := h.slotEmpty, slotFull := h.slotFull
        busyPhase := h.busyPhase, sending := h.sending, left := h.left }

theorem lengthAccept_inv {s : State} (h : Inv s) (hs : s.rxState = .readingLength)
    (hl : lengthInRange s.cfg s.copies.c0 = true) : Inv (lengthAccept s) where
  config := h.config
  txBufOk := h.txBufOk
  rxAccOk := h.rxAccOk
  slotOk := h.slotOk
  window := h.window
  idle := by simp [lengthAccept]
  syncing := by simp [lengthAccept]
  searching := by simp [lengthAccept]
  index := by simp [lengthAccept]
  reading _ := by
    refine ⟨hl, ?_, ?_⟩
    · have := (lengthInRange_iff _ _).1 hl
      simp only [lengthAccept]; omega
    · simp [lengthAccept, covers]
  readyAccepted := by simp [lengthAccept, ready_false_of_state h (by simp [hs] : s.rxState ≠ .accepted)]
  slotEmpty := h.slotEmpty
  slotFull hr := by simp [lengthAccept, ready_false_of_state h (by simp [hs] : s.rxState ≠ .accepted)] at hr
  busyPhase := h.busyPhase
  sending := h.sending
  left := h.left

theorem lengthCheck_inv {s : State} (h : Inv s) (hs : s.rxState = .readingLength) : Inv (lengthCheck s) := by
  have hr : s.ready = false := ready_false_of_state h (by simp [hs])
  unfold lengthCheck
  split
  · split
    · exact lengthAccept_inv h hs ‹_›
    · exact rxAbort_inv h hr _
  · exact rxAbort_inv h hr _

theorem copyStored_inv {s : State} (h : Inv s) (hs : s.rxState = .readingLength ∨ s.rxState = .readingBody) (v : Sym) :
    Inv (copyStored v s) where
  config := h.config
  txBufOk := h.txBufOk
  rxAccOk := h.rxAccOk
  slotOk := h.slotOk
  window := h.window
  idle := h.idle
  syncing := h.syncing
  searching := by rcases hs with hs | hs <;> simp [copyStored, hs]
  index := h.index
  reading := h.reading
  readyAccepted := h.readyAccepted
  slotEmpty := h.slotEmpty
  slotFull := h.slotFull
  busyPhase := h.busyPhase
  sending := h.sending
  left := h.left

/-- BODY_BYTE from a state that keeps the invariant: completes, and keeps it. -/
theorem bodyByte_inv {s : State} (h : Inv s) (hs : s.rxState = .readingBody) : ∃ s', bodyByte s = .ok s' ∧ Inv s' := by
  have hr : s.ready = false := ready_false_of_state h (by simp [hs])
  obtain ⟨hl, hi, hc⟩ := h.reading hs
  obtain ⟨hl1, hl2⟩ := (lengthInRange_iff _ _).1 hl
  have hsub : (s.rxLen - 2).toNat = s.rxLen.toNat - 2 := length_sub_two (by omega)
  have hbuf : bufSize s.cfg = maxFrame s.cfg - 2 := rfl
  have hacc : arrayOk s.cfg (bodyStored s).rxAcc := by
    simp only [bodyStored]
    split
    · exact arrayOk_write h.rxAccOk (by omega) _
    · exact h.rxAccOk
  have hcov : covers (bodyStored s).rxAcc (min (s.rxIdx + 1) (s.rxLen.toNat - 2)) := by
    simp only [bodyStored, hsub]
    split
    · have e1 : min s.rxIdx (s.rxLen.toNat - 2) = s.rxIdx := by omega
      have e2 : min (s.rxIdx + 1) (s.rxLen.toNat - 2) = s.rxIdx + 1 := by omega
      rw [e2]; rw [e1] at hc
      exact covers_write_next hc _
    · exact covers_mono hc (by omega)
  have hstored : s.rxIdx + 1 < s.rxLen.toNat → Inv (bodyStored s) := fun hlt =>
    { config := h.config, txBufOk := h.txBufOk, rxAccOk := hacc, slotOk := h.slotOk, window := h.window
      idle := by simp [bodyStored, hs], syncing := by simp [bodyStored, hs], searching := by simp [bodyStored, hs]
      index := by simp only [bodyStored]; omega
      reading := fun _ => ⟨hl, hlt, hcov⟩
      readyAccepted := h.readyAccepted, slotEmpty := h.slotEmpty, slotFull := h.slotFull
      busyPhase := h.busyPhase, sending := h.sending, left := h.left }
  rw [bodyByte_eq (fun hlt => by omega)]
  split
  case isFalse hne => exact ⟨_, rfl, hstored (by omega)⟩
  case isTrue heq =>
    unfold complete
    split
    · have e : min (s.rxIdx + 1) (s.rxLen.toNat - 2) = s.rxLen.toNat - 2 := by omega
      rw [e] at hcov
      obtain ⟨bytes, hlen, hh⟩ := exists_holds (bodyStored s).rxAcc (s.rxLen.toNat - 2)
      have hlen' : bytes.length = ((bodyStored s).rxLen - 2).toNat := by rw [hlen]; exact hsub.symm
      have hsize : bytes.length ≤ bufSize (bodyStored s).cfg := by
        rw [hlen]; show s.rxLen.toNat - 2 ≤ bufSize s.cfg; omega
      refine ⟨_, completeAccept_eq hlen' hsize hh, ?_⟩
      exact
        { config := h.config, txBufOk := h.txBufOk, rxAccOk := hacc
          slotOk := arrayOk_writeList h.slotOk 0 bytes (by rw [Nat.zero_add]; exact hsize)
          window := h.window, idle := by simp, syncing := by simp, searching := by simp
          index := by simp only [bodyStored]; omega
          reading := by simp
          readyAccepted := by simp
          slotEmpty := by simp
          slotFull := fun _ => by
            refine ⟨hl, rfl, ?_⟩
            have := covers_writeList (bodyStored s).slot bytes
            rwa [hlen'] at this
          busyPhase := h.busyPhase, sending := h.sending, left := h.left }
    · refine ⟨_, rfl, ?_⟩
      exact
        { config := h.config, txBufOk := h.txBufOk, rxAccOk := hacc, slotOk := h.slotOk, window := h.window
          idle := fun _ => ⟨rfl, rfl⟩, syncing := by simp [completeDiscard]
          searching := fun _ => ⟨rfl, rfl, rfl, rfl⟩
          index := by simp [completeDiscard], reading := by simp [completeDiscard]
          readyAccepted := by simp [completeDiscard, bodyStored, hr]
          slotEmpty := h.slotEmpty, slotFull := by simp [completeDiscard, bodyStored, hr]
          busyPhase := h.busyPhase, sending := h.sending, left := h.left }

/-- BYTE_SYMBOL in its two states: completes, and keeps the invariant. -/
theorem byteSymbol_inv {s : State} (h : Inv s) (hs : s.rxState = .readingLength ∨ s.rxState = .readingBody) (v : Sym) :
    ∃ s', byteSymbol v s = .ok s' ∧ Inv s' := by
  rw [byteSymbol_eq]
  split
  · refine ⟨_, rfl, ?_⟩
    exact
      { config := h.config, txBufOk := h.txBufOk, rxAccOk := h.rxAccOk, slotOk := h.slotOk, window := h.window
        idle := h.idle, syncing := h.syncing
        searching := by rcases hs with hs | hs <;> simp [hs]
        index := h.index, reading := h.reading, readyAccepted := h.readyAccepted, slotEmpty := h.slotEmpty
        slotFull := h.slotFull, busyPhase := h.busyPhase, sending := h.sending, left := h.left }
  · have hc := copyStored_inv h hs v
    split
    · exact ⟨_, rfl, hc⟩
    · split
      · exact ⟨_, rfl, lengthCheck_inv hc ‹_›⟩
      · exact bodyByte_inv hc (hs.resolve_left ‹_›)

/-- RX_SYMBOL outside `Accepted`: completes, and keeps the invariant. -/
theorem rxSymbol_inv {s : State} (h : Inv s) (hr : s.ready = false) (v : Sym) : ∃ s', rxSymbol v s = .ok s' ∧ Inv s' := by
  have ha := not_accepted h hr
  cases hs : s.rxState with
  | idle => exact ⟨_, by simp [rxSymbol, hs], idleSymbol_inv h hs v⟩
  | syncing => exact ⟨_, by simp [rxSymbol, hs], syncSymbol_inv h hs v⟩
  | readingLength => simpa [rxSymbol, hs] using byteSymbol_inv h (.inl hs) v
  | readingBody => simpa [rxSymbol, hs] using byteSymbol_inv h (.inr hs) v
  | accepted => exact absurd hs ha

/-- A change of the decoder that keeps its window rule keeps the invariant. -/
theorem decoder_inv {s : State} (h : Inv s) (l : Option Time) (c : Fin 10) (hw : l = none ↔ c = 0) :
    Inv { s with decLast := l, decCount := c } :=
  { config := h.config, txBufOk := h.txBufOk, rxAccOk := h.rxAccOk, slotOk := h.slotOk, window := hw
    idle := h.idle, syncing := h.syncing, searching := h.searching, index := h.index, reading := h.reading
    readyAccepted := h.readyAccepted, slotEmpty := h.slotEmpty, slotFull := h.slotFull
    busyPhase := h.busyPhase, sending := h.sending, left := h.left }

theorem countEdge_ne_zero (n : Fin 10) : countEdge n ≠ 0 := by
  intro h
  have := congrArg Fin.val h
  simp [countEdge] at this

/-- EDGE completes and keeps the invariant. -/
theorem edge_inv {s : State} (h : Inv s) (t : Time) : ∃ s', edge t s = .ok s' ∧ Inv s' := by
  unfold edge
  split
  · exact ⟨s, rfl, h⟩
  split
  · exact ⟨s, rfl, h⟩
  rename_i hr
  have hr : s.ready = false := by simpa using hr
  unfold decodeEdge
  split
  · exact ⟨_, rfl, decoder_inv h _ _ (by simp)⟩
  · dsimp only
    split
    · exact ⟨s, rfl, h⟩
    split
    · exact ⟨_, rfl, decoder_inv h _ _ (by simp [countEdge_ne_zero])⟩
    have h1 := decoder_inv h (some t) 1 (by simp)
    unfold closeWindow
    split
    · exact ⟨_, rfl, rxAbort_inv h1 hr _⟩
    split
    · exact ⟨_, rfl, rxAbort_inv h1 hr _⟩
    · exact rxSymbol_inv h1 hr _

/-- RX_DISARM written out. -/
theorem rxDisarm_eq (s : State) : rxDisarm s = disarmed s := by
  unfold rxDisarm disarmed
  by_cases h : s.rxState = .accepted <;> simp [h, rxAbort]

theorem disarmed_inv {s : State} (h : Inv s) : Inv (disarmed s) := by
  unfold disarmed
  split
  · exact decoder_inv h _ _ (by simp)
  · have hr : s.ready = false := ready_false_of_state h ‹_›
    exact rxAbort_inv (decoder_inv h none 0 (by simp)) hr .txMask

/-- EMIT_START with a latched frame is the state written out in Safety. -/
theorem emitStart_eq {s : State} {frame : List Byte} (hlen : frame.length = s.txN.toNat)
    (hsize : frame.length ≤ bufSize s.cfg) (hh : holds s.txBuf frame) (ts : Time) :
    emitStart ts s = .ok (emitting frame ts s) := by
  unfold emitStart
  have hb : readBytes .txBuf (rxDisarm { s with txPhase := .emitting }) 0
      (rxDisarm { s with txPhase := .emitting }).txN.toNat = .ok frame := by
    have e : (rxDisarm { s with txPhase := .emitting }).txN.toNat = frame.length := by simp [hlen]
    rw [e]
    exact readBytes_zero_eq (by simpa using hsize) (by simpa [State.array] using hh)
  simp only [hb]
  unfold emitting
  rw [rxDisarm_eq]
  unfold disarmed
  by_cases h : s.rxState = .accepted <;> simp [h, State.emitAll, State.instant]

/-- Whenever EMIT_START answers, that is what it did. -/
theorem emitStart_ok {s s' : State} {ts : Time} (h : emitStart ts s = .ok s') :
    ∃ frame : List Byte, frame.length = s.txN.toNat ∧ (frame = [] ∨ frame.length ≤ bufSize s.cfg) ∧
      holds s.txBuf frame ∧ s' = emitting frame ts s := by
  have h0 := h
  unfold emitStart at h
  dsimp only at h
  split at h
  · cases h
  · rename_i frame hb
    obtain ⟨h1, h2, h3⟩ := readBytes_ok hb
    have e1 : frame.length = s.txN.toNat := by simpa using h1
    have hh : holds s.txBuf frame := by
      intro i hi
      have := h2 i (by rw [← h1]; exact hi)
      simpa [State.array] using this
    have h4 : frame = [] ∨ frame.length ≤ bufSize s.cfg := by
      rcases h3 with h3 | h3
      · left; apply List.eq_nil_of_length_eq_zero; rw [h1, h3]
      · right; simpa [e1] using h3
    refine ⟨frame, e1, h4, hh, ?_⟩
    have := emitStart_eq e1 (by
      rcases h4 with h5 | h5
      · rw [h5]; exact Nat.zero_le _
      · exact h5) hh ts
    rw [h0] at this
    exact Except.ok.inj this

/-- EMIT_START of a legal latched frame completes and keeps the invariant. -/
theorem emitStart_inv {s : State} (h : Inv s) (hb : s.txBusy = true)
    (h1 : txMin ≤ s.txN.toNat) (h2 : s.txN.toNat ≤ txMax s.cfg) (hc : covers s.txBuf s.txN.toNat) (ts : Time) :
    ∃ s', emitStart ts s = .ok s' ∧ Inv s' := by
  obtain ⟨frame, hlen, hh⟩ := exists_holds s.txBuf s.txN.toNat
  have hsize : frame.length ≤ bufSize s.cfg := by rw [hlen]; exact h2
  refine ⟨_, emitStart_eq hlen hsize hh ts, ?_⟩
  have hd := disarmed_inv h
  have e : ∀ t : State, t = disarmed s → t.txBusy = true ∧ t.txN = s.txN ∧ t.txBuf = s.txBuf ∧ t.cfg = s.cfg := by
    rintro t rfl; unfold disarmed; split <;> simp [hb]
  obtain ⟨eb, en, ef, ec⟩ := e _ rfl
  exact
    { config := hd.config, txBufOk := hd.txBufOk, rxAccOk := hd.rxAccOk, slotOk := hd.slotOk, window := hd.window
      idle := hd.idle, syncing := hd.syncing, searching := hd.searching, index := hd.index, reading := hd.reading
      readyAccepted := hd.readyAccepted, slotEmpty := hd.slotEmpty, slotFull := hd.slotFull
      busyPhase := by simp [emitting, eb]
      sending := fun _ => by
        simp only [emitting, en, ef, ec]
        exact ⟨h1, h2, hc⟩
      left := hd.left }

end Sys2Proof.Machine
end

