-- ==== Sys2Proof/Laws/HostCommands.lean ====
section
/-! SUPPORT. What the host commands, the TxEngine's end steps and RESET can do, and that they keep the invariant. -/

namespace Sys2Proof.Machine

theorem record_inv {s : State} (h : Inv s) (r : ContractRecord) : Inv (s.recordContract r) := ⟨h.config, h.txBufOk,
  h.rxAccOk, h.slotOk, h.window, h.idle, h.syncing, h.searching, h.index, h.reading, h.readyAccepted, h.slotEmpty,
  h.slotFull, h.busyPhase, h.sending, h.left⟩

theorem respond_inv {s : State} (h : Inv s) (b : List Byte) : Inv (s.respond b) := ⟨h.config, h.txBufOk,
  h.rxAccOk, h.slotOk, h.window, h.idle, h.syncing, h.searching, h.index, h.reading, h.readyAccepted, h.slotEmpty,
  h.slotFull, h.busyPhase, h.sending, h.left⟩

/-- The invariant does not look at time, the ports or the coming turns. -/
theorem time_inv {s : State} (h : Inv s) (now : Time) (clock : Nat) (inputs : List Turn) (hostIn : List Byte) :
    Inv { s with now := now, clock := clock, inputs := inputs, hostIn := hostIn } := ⟨h.config, h.txBufOk,
  h.rxAccOk, h.slotOk, h.window, h.idle, h.syncing, h.searching, h.index, h.reading, h.readyAccepted, h.slotEmpty,
  h.slotFull, h.busyPhase, h.sending, h.left⟩

/-- The state in which an accepted TX_SEND starts its emission. -/
def latched (data : List Byte) (s : State) : State :=
  { s with
    txBuf := s.txBuf.writeList 0 data, txN := BitVec.ofNat 8 data.length
    txLeft := BitVec.ofNat 8 s.cfg.resendCount, txBusy := true }

/-- A frame that fits TXBUF is latched whole, and its emission starts. -/
theorem sendFrame_eq {data : List Byte} {s : State} (hsize : data.length ≤ bufSize s.cfg) (h8 : data.length < 256)
    (t : Time) : sendFrame data t s = .ok (emitting data t (latched data s)) := by
  unfold sendFrame
  rw [writeBytes_eq s 0 data (by rw [Nat.zero_add]; exact hsize)]
  simp only [State.withArray, State.array]
  refine emitStart_eq (s := latched data s) ?_ hsize ?_ t
  · simp only [latched, BitVec.toNat_ofNat]; omega
  · exact Memory.holds_writeList s.txBuf data

/-- What TX_SEND does, its three cases. -/
theorem txSend_eq {data : List Byte} {s : State} (hcfg : s.cfg.maxPayload ≤ 249) (t : Time) :
    txSend data t s =
      if s.txBusy then .ok (s.recordContract (.txBusy data.length))
      else if data.length < txMin ∨ txMax s.cfg < data.length then .ok (s.recordContract (.txLen data.length))
      else .ok (emitting data t (latched data s)) := by
  unfold txSend
  split
  · rfl
  split
  · rfl
  rename_i hlen
  have hmax : txMax s.cfg = s.cfg.maxPayload + 4 := rfl
  exact sendFrame_eq (by rw [show bufSize s.cfg = txMax s.cfg from rfl]; omega) (by omega) t

theorem emitting_inv {s : State} (h : Inv (disarmed s)) (hb : s.txBusy = true) (h1 : txMin ≤ s.txN.toNat)
    (h2 : s.txN.toNat ≤ txMax s.cfg) (hc : covers s.txBuf s.txN.toNat) (frame : List Byte) (ts : Time) :
    Inv (emitting frame ts s) := by
  have e : ∀ t : State, t = disarmed s → t.txBusy = true ∧ t.txN = s.txN ∧ t.txBuf = s.txBuf ∧ t.cfg = s.cfg := by
    rintro t rfl; unfold disarmed; split <;> simp [hb]
  obtain ⟨eb, en, ef, ec⟩ := e _ rfl
  exact
    { config := h.config, txBufOk := h.txBufOk, rxAccOk := h.rxAccOk, slotOk := h.slotOk, window := h.window
      idle := h.idle, syncing := h.syncing, searching := h.searching, index := h.index, reading := h.reading
      readyAccepted := h.readyAccepted, slotEmpty := h.slotEmpty, slotFull := h.slotFull
      busyPhase := by simp [emitting, eb]
      sending := fun _ => by
        simp only [emitting, en, ef, ec]
        exact ⟨h1, h2, hc⟩
      left := h.left }

/-- The receiver side of the invariant does not look at the transmitter. -/
theorem latched_emitting_inv {data : List Byte} {s : State} {t : Time} (h : Inv s) (hoff : s.txBusy = false)
    (h1 : txMin ≤ data.length) (h2 : data.length ≤ txMax s.cfg) : Inv (emitting data t (latched data s)) := by
  obtain ⟨hp, h8t, hmp, hrc, -, -⟩ := (configValid_iff _).1 h.config
  have hmax : txMax s.cfg = s.cfg.maxPayload + 4 := rfl
  have hbuf : bufSize s.cfg = txMax s.cfg := rfl
  have hok : arrayOk s.cfg (s.txBuf.writeList 0 data) := arrayOk_writeList h.txBufOk 0 data (by omega)
  have hn : (BitVec.ofNat 8 data.length).toNat = data.length := by rw [BitVec.toNat_ofNat]; omega
  have hphase : s.txPhase = .off := by
    by_contra hne
    have := h.busyPhase.2 hne
    simp [hoff] at this
  have hl : Inv { latched data s with txPhase := .emitting } :=
    { config := h.config, txBufOk := hok, rxAccOk := h.rxAccOk, slotOk := h.slotOk, window := h.window
      idle := h.idle, syncing := h.syncing, searching := h.searching, index := h.index, reading := h.reading
      readyAccepted := h.readyAccepted, slotEmpty := h.slotEmpty, slotFull := h.slotFull
      busyPhase := by simp [latched]
      sending := fun _ => by
        simp only [latched, hn]
        exact ⟨h1, h2, covers_writeList s.txBuf data⟩
      left := by simp only [latched, BitVec.toNat_ofNat]; omega }
  have hd := disarmed_inv hl
  have he : emitting data t (latched data s) = emitting data t { latched data s with txPhase := .emitting } := by
    unfold emitting disarmed
    by_cases ha : s.rxState = .accepted <;> simp [latched, ha, State.instant]
  rw [he]
  exact emitting_inv hd rfl (by simp only [latched, hn]; exact h1) (by simp only [latched, hn]; exact h2)
    (by simp only [latched, hn]; exact covers_writeList s.txBuf data) data t

/-- TX_SEND completes and keeps the invariant. -/
theorem txSend_inv {s : State} (h : Inv s) (data : List Byte) (t : Time) : ∃ s', txSend data t s = .ok s' ∧ Inv s' := by
  obtain ⟨-, -, hmp, -⟩ := (configValid_iff _).1 h.config
  rw [txSend_eq hmp]
  split
  · exact ⟨_, rfl, record_inv h _⟩
  rename_i hb
  split
  · exact ⟨_, rfl, record_inv h _⟩
  · exact ⟨_, rfl, latched_emitting_inv h (by simpa using hb) (by omega) (by omega)⟩

/-- RX_RECEIVE with a frame in the slot. -/
theorem rxReceive_full {s : State} {bytes : List Byte} (hr : s.ready = true) (hlen : bytes.length = s.slotLen.toNat)
    (hsize : bytes.length ≤ bufSize s.cfg) (hh : holds s.slot bytes) :
    rxReceive s = .ok (rearm (s.respond (s.slotLen :: bytes))) := by
  unfold rxReceive
  rw [if_pos hr, ← hlen, readBytes_zero_eq (a := .slot) hsize hh]

theorem rearm_inv {s : State} (h : Inv s) : Inv (rearm s) :=
  { config := h.config, txBufOk := h.txBufOk, rxAccOk := h.rxAccOk, slotOk := arrayOk_unspecified _ _, window := by simp
    idle := by simp, syncing := by simp, searching := by simp, index := by simp, reading := by simp
    readyAccepted := by simp, slotEmpty := by simp, slotFull := by simp
    busyPhase := h.busyPhase, sending := h.sending, left := h.left }

/-- RX_RECEIVE completes and keeps the invariant. -/
theorem rxReceive_inv {s : State} (h : Inv s) : ∃ s', rxReceive s = .ok s' ∧ Inv s' := by
  cases hr : s.ready with
  | false => exact ⟨_, by rw [rxReceive, if_neg (by simp [hr])], respond_inv h _⟩
  | true =>
    obtain ⟨hl, hlen, hc⟩ := h.slotFull hr
    obtain ⟨hl1, hl2⟩ := (lengthInRange_iff _ _).1 hl
    obtain ⟨bytes, hb, hh⟩ := exists_holds s.slot s.slotLen.toNat
    have hsize : bytes.length ≤ bufSize s.cfg := by
      rw [hb, hlen, length_sub_two (by omega)]
      show _ ≤ maxFrame s.cfg - 2
      omega
    exact ⟨_, rxReceive_full hr hb hsize hh, rearm_inv (respond_inv h _)⟩

/-- An enabled EMIT_END keeps the invariant. -/
theorem emitEnd_inv {s : State} (h : Inv s) (hp : s.txPhase = .emitting) (t : Time) : Inv (emitEnd t s) := by
  have hs := h.sending (by simp [hp])
  have hb := h.busyPhase.2 (by simp [hp])
  unfold emitEnd
  split
  · rename_i hpos
    have hsub : (s.txLeft - 1).toNat ≤ s.txLeft.toNat := by
      have h1 : (1 : Byte).toNat = 1 := rfl
      have := s.txLeft.isLt
      rw [BitVec.toNat_sub, h1]
      omega
    exact
      { config := h.config, txBufOk := h.txBufOk, rxAccOk := h.rxAccOk, slotOk := h.slotOk, window := h.window
        idle := h.idle, syncing := h.syncing, searching := h.searching, index := h.index, reading := h.reading
        readyAccepted := h.readyAccepted, slotEmpty := h.slotEmpty, slotFull := h.slotFull
        busyPhase := by simp [hb]
        sending := fun _ => hs
        left := hsub.trans h.left }
  · exact
      { config := h.config, txBufOk := h.txBufOk, rxAccOk := h.rxAccOk, slotOk := h.slotOk, window := h.window
        idle := h.idle, syncing := h.syncing, searching := h.searching, index := h.index, reading := h.reading
        readyAccepted := h.readyAccepted, slotEmpty := h.slotEmpty, slotFull := h.slotFull
        busyPhase := by simp, sending := by simp, left := h.left }

/-- RESET gives a state that keeps the invariant, whatever is drawn. -/
theorem resetBlock_inv {s : State} (h : configValid s.cfg = true) (k : Nat) : Inv (resetBlock (freeDraws k) s) :=
  { config := h, txBufOk := arrayOk_unspecified _ _, rxAccOk := arrayOk_unspecified _ _
    slotOk := arrayOk_unspecified _ _
    window := by simp [resetBlock], idle := by simp [resetBlock], syncing := by simp [resetBlock]
    searching := by simp [resetBlock], index := by simp [resetBlock], reading := by simp [resetBlock]
    readyAccepted := by simp [resetBlock], slotEmpty := by simp [resetBlock], slotFull := by simp [resetBlock]
    busyPhase := by simp [resetBlock], sending := by simp [resetBlock], left := by simp [resetBlock] }

end Sys2Proof.Machine
end

