-- ==== Sys2Proof/Laws/PerInstr.lean ====
section
/-! SUPPORT. Facts of every operation as syntax, one lemma for each constructor. -/

namespace Sys2Proof.Laws

/-- A host command's encoding has the length that spec/30_encoding.md R101 gives it. -/
def CommandLength.Statement (i : Instr) : Prop :=
  ∀ bytes, encode i = .command bytes → bytes.length = commandLength i

theorem CommandLength.sym0 (t0 : Time) : CommandLength.Statement (.sym0 t0) :=
  fun _ h => by cases h

theorem CommandLength.sym1 (t0 : Time) : CommandLength.Statement (.sym1 t0) :=
  fun _ h => by cases h

theorem CommandLength.sym2 (t0 : Time) : CommandLength.Statement (.sym2 t0) :=
  fun _ h => by cases h

theorem CommandLength.sym3 (t0 : Time) : CommandLength.Statement (.sym3 t0) :=
  fun _ h => by cases h

theorem CommandLength.edge (t : Time) : CommandLength.Statement (.edge t) :=
  fun _ h => by cases h

theorem CommandLength.nop : CommandLength.Statement .nop := by
  intro bytes h
  cases h
  rfl

theorem CommandLength.txSend (data : List Byte) : CommandLength.Statement (.txSend data) := by
  intro bytes h
  cases h
  simp only [List.length_cons, commandLength]
  omega

theorem CommandLength.rxStatus : CommandLength.Statement .rxStatus := by
  intro bytes h
  cases h
  rfl

theorem CommandLength.rxReceive : CommandLength.Statement .rxReceive := by
  intro bytes h
  cases h
  rfl

theorem CommandLength.reserved (op : Byte) : CommandLength.Statement (.reserved op) := by
  intro bytes h
  cases h
  rfl

theorem CommandLength.classify (c : Nat) : CommandLength.Statement (.classify c) :=
  fun _ h => by cases h

theorem CommandLength.crc16Update (c : Crc) (b : Byte) : CommandLength.Statement (.crc16Update c b) :=
  fun _ h => by cases h

theorem CommandLength.emitStart (ts : Time) : CommandLength.Statement (.emitStart ts) :=
  fun _ h => by cases h

theorem CommandLength.emitEnd (t : Time) : CommandLength.Statement (.emitEnd t) :=
  fun _ h => by cases h

theorem CommandLength.backoffEnd (t : Time) : CommandLength.Statement (.backoffEnd t) :=
  fun _ h => by cases h

theorem CommandLength.rxDisarm : CommandLength.Statement .rxDisarm :=
  fun _ h => by cases h

theorem CommandLength.rxSymbol (v : Sym) : CommandLength.Statement (.rxSymbol v) :=
  fun _ h => by cases h

theorem CommandLength.rxAbort (r : AbortReason) : CommandLength.Statement (.rxAbort r) :=
  fun _ h => by cases h

theorem CommandLength.idleSymbol (v : Sym) : CommandLength.Statement (.idleSymbol v) :=
  fun _ h => by cases h

theorem CommandLength.syncSymbol (v : Sym) : CommandLength.Statement (.syncSymbol v) :=
  fun _ h => by cases h

theorem CommandLength.byteSymbol (v : Sym) : CommandLength.Statement (.byteSymbol v) :=
  fun _ h => by cases h

theorem CommandLength.lengthCheckEqual : CommandLength.Statement .lengthCheckEqual :=
  fun _ h => by cases h

theorem CommandLength.lengthCheckRange : CommandLength.Statement .lengthCheckRange :=
  fun _ h => by cases h

theorem CommandLength.lengthCheckAccept : CommandLength.Statement .lengthCheckAccept :=
  fun _ h => by cases h

theorem CommandLength.bodyByte : CommandLength.Statement .bodyByte :=
  fun _ h => by cases h

theorem CommandLength.maj3 (a : Byte) (b : Byte) (c : Byte) : CommandLength.Statement (.maj3 a b c) :=
  fun _ h => by cases h

theorem CommandLength.completeAccept : CommandLength.Statement .completeAccept :=
  fun _ h => by cases h

theorem CommandLength.completeDiscard : CommandLength.Statement .completeDiscard :=
  fun _ h => by cases h

theorem CommandLength.reset : CommandLength.Statement .reset :=
  fun _ h => by cases h

end Sys2Proof.Laws
end

