-- ==== Sys2Proof/Laws/Sampler.lean ====
section
/-! SUPPORT. What an edge does, by its interval to the last accepted one. -/

namespace Sys2Proof.Machine

/-- An interval between two instants less than the wrap apart is their difference. -/
theorem dt_eq (a b : Nat) (h : a ≤ b) (hb : b - a < 2^32) : (BitVec.ofNat 32 b - BitVec.ofNat 32 a).toNat = b - a := by
  rw [BitVec.toNat_sub, BitVec.toNat_ofNat, BitVec.toNat_ofNat]; omega

/-- An edge the decoder listens to. -/
theorem edge_open {s : State} {t : Time} (h1 : s.txPhase ≠ .emitting) (h2 : s.ready = false) :
    exec (.edge t) s = toOutcome (decodeEdge t s) := by
  simp [exec, execEdge, edge, State.receiveMask, h1, h2]

/-- An edge inside a window is counted (R119). -/
theorem edge_count {s : State} {a b : Nat} (h1 : s.txPhase ≠ .emitting) (h2 : s.ready = false)
   (h3 : s.decLast = some (BitVec.ofNat 32 a)) (hab : a ≤ b) (hb : b - a < 2^32) (hd : s.cfg.pulseUs / 2 ≤ b - a) (hg : b - a < 2 * s.cfg.pulseUs) :
   exec (.edge (BitVec.ofNat 32 b)) s = .next { s with decLast := some (BitVec.ofNat 32 b), decCount := countEdge s.decCount } := by
  rw [edge_open h1 h2, decodeEdge, h3]
  simp only [dt_eq a b hab hb]
  rw [if_neg (by show ¬ (b - a < s.cfg.pulseUs / 2); omega), if_pos (by exact hg)]; rfl

/-- An edge that closes a window of a symbol's count delivers the symbol (R119, R122). -/
theorem edge_close {s : State} {a b : Nat} (h1 : s.txPhase ≠ .emitting) (h2 : s.ready = false)
   (h3 : s.decLast = some (BitVec.ofNat 32 a)) (hab : a ≤ b) (hb : b - a < 2^32) (hg : 2 * s.cfg.pulseUs ≤ b - a) (ha : b - a ≤ 8 * s.cfg.pulseUs)
   (v : Sym) (hv : s.decCount.val = 2 * (v.toNat + 1)) :
   exec (.edge (BitVec.ofNat 32 b)) s = exec (.rxSymbol v) { s with decLast := some (BitVec.ofNat 32 b), decCount := 1 } := by
  rw [edge_open h1 h2, decodeEdge, h3]
  simp only [dt_eq a b hab hb]
  rw [if_neg (by show ¬ (b - a < s.cfg.pulseUs / 2); omega), if_neg (by show ¬ (b - a < 2 * s.cfg.pulseUs); omega), closeWindow, if_neg (by rw [dt_eq a b hab hb]; show ¬ (8 * s.cfg.pulseUs < b - a); omega), hv]
  have : v = 0 ∨ v = 1 ∨ v = 2 ∨ v = 3 := (by decide : ∀ v : Sym, v = 0 ∨ v = 1 ∨ v = 2 ∨ v = 3) v
  rcases this with rfl | rfl | rfl | rfl <;> rfl

end Sys2Proof.Machine
end

