-- ==== Sys2Proof/Laws/Step.lean ====
section
/-! SUPPORT. What comes next in a state, and what a step is: one inversion lemma each. -/

namespace Sys2Proof.Machine

/-- Two states that differ in time, the coming turns and the host command port only. -/
def SameButTime (s s1 : State) : Prop :=
  s1 = { s with now := s1.now, clock := s1.clock, inputs := s1.inputs, hostIn := s1.hostIn }

theorem SameButTime.inv {s s1 : State} (h : SameButTime s s1) (hi : Inv s) : Inv s1 := by
  rw [h]; exact time_inv hi _ _ _ _

/-- The decoder answers only the host commands. -/
theorem decodeCommand_ok {bytes rest : List Byte} {i : Instr} (h : decodeCommand bytes = .ok (i, rest)) :
    i = .nop ∨ (∃ data, i = .txSend data) ∨ i = .rxStatus ∨ i = .rxReceive ∨ ∃ op, i = .reserved op := by
  cases bytes with
  | nil => cases h
  | cons op tail =>
    simp only [decodeCommand] at h
    split at h
    · cases h; simp
    split at h
    · split at h
      · cases h; simp
      · cases h
    split at h
    · cases h; simp
    split at h
    · cases h; simp
    · cases h; simp

/-- The Host's turn: a command of the port, or nothing. -/
theorem fetchCommand_cases (s : State) :
    (∃ i rest, decodeCommand s.hostIn = .ok (i, rest) ∧ fetchCommand s = .run i { s with hostIn := rest }) ∨
      (∃ e, decodeCommand s.hostIn = .error e ∧ fetchCommand s = .idle s) := by
  unfold fetchCommand
  cases h : decodeCommand s.hostIn with
  | error e => exact .inr ⟨e, rfl, rfl⟩
  | ok p => exact .inl ⟨p.1, p.2, rfl, rfl⟩

/-- What the next operation can be, and the state it runs in. -/
inductive NextOp (s : State) : Instr → State → Prop where
  | edge (s1 : State) : SameButTime s s1 → NextOp s (.edge s1.now) s1
  | command (s1 : State) (i : Instr) : SameButTime s s1 →
      (i = .nop ∨ (∃ data, i = .txSend data) ∨ i = .rxStatus ∨ i = .rxReceive ∨ ∃ op, i = .reserved op) → NextOp s i s1
  | reset (s1 : State) : SameButTime s s1 → NextOp s .reset s1
  | emitEnd (s1 : State) : SameButTime s s1 → s.txPhase = .emitting → s1.now = s.txNextT →
      NextOp s (.emitEnd s1.now) s1
  | backoffEnd (s1 : State) : SameButTime s s1 → s.txPhase = .backoff → s1.now = s.txNextT →
      NextOp s (.backoffEnd s1.now) s1

/-- What comes next at a turn. -/
theorem fetchTurn_cases (s : State) :
    (∃ i s1, fetchTurn s = .run i s1 ∧ NextOp s i s1) ∨ (∃ s1, fetchTurn s = .idle s1 ∧ SameButTime s s1) := by
  unfold fetchTurn
  split
  · exact .inr ⟨s, rfl, rfl⟩
  · rename_i u us _
    dsimp only
    split
    · exact .inl ⟨_, _, rfl, .edge _ rfl⟩
    · rcases fetchCommand_cases ({ s with inputs := us }.advance u.wait) with ⟨i, rest, hd, hf⟩ | ⟨e, -, hf⟩
      · exact .inl ⟨_, _, hf, .command _ _ rfl (decodeCommand_ok hd)⟩
      · exact .inr ⟨_, hf, rfl⟩
    · exact .inl ⟨_, _, rfl, .reset _ rfl⟩

theorem now_at_due (a b : Time) : a + BitVec.ofNat 32 (b - a).toNat = b := by
  rw [BitVec.ofNat_toNat, BitVec.setWidth_eq]
  rw [BitVec.add_comm, BitVec.sub_add_cancel]

/-- What comes next is a turn of the outside, a step of the TxEngine at its due time, or nothing. -/
theorem fetch_cases (s : State) :
    (∃ i s1, fetch s = .run i s1 ∧ NextOp s i s1) ∨ (∃ s1, fetch s = .idle s1 ∧ SameButTime s s1) := by
  unfold fetch
  split
  · exact fetchTurn_cases s
  · rename_i d hd
    split
    · refine .inl ?_
      unfold State.txDue at hd
      split at hd
      · cases hd
      · rename_i hoff
        cases hd
        unfold fetchTx
        dsimp only
        split
        · refine ⟨_, _, rfl, .emitEnd _ rfl ‹_› ?_⟩
          simp only [State.advance_now]; exact now_at_due _ _
        · rename_i hem
          refine ⟨_, _, rfl, .backoffEnd _ rfl ?_ ?_⟩
          · cases hp : s.txPhase <;> simp_all
          · simp only [State.advance_now]; exact now_at_due _ _
    · exact fetchTurn_cases s

/-- What one step can be: the next operation in a state that differs in time only, or the passing of time. -/
theorem step_cases {s : State} (h : configValid s.cfg = true) :
    (∃ i s1, NextOp s i s1 ∧ step s = exec i s1) ∨ (∃ s1, SameButTime s s1 ∧ step s = .next s1) := by
  unfold step
  rw [if_pos h]
  rcases fetch_cases s with ⟨i, s1, hf, hn⟩ | ⟨s1, hf, hs⟩
  · exact .inl ⟨i, s1, hn, by rw [hf]⟩
  · exact .inr ⟨s1, hs, by rw [hf]⟩

/-- The instant of a time reached before the TxEngine's next step: the TxEngine's instant stays. -/
theorem due_after {a b : Time} {w : Nat} (h : w ≤ (b - a).toNat) :
    w + (b - (a + BitVec.ofNat 32 w)).toNat = (b - a).toNat := by
  have hw : w < 2^32 := by have := (b-a).isLt; omega
  rw [BitVec.toNat_sub] at h ⊢
  rw [BitVec.toNat_sub, BitVec.toNat_add, BitVec.toNat_ofNat]
  have := a.isLt
  have := b.isLt
  omega

/-- The state of what comes next. -/
def Fetched.state : Fetched → State
  | .run _ s => s
  | .idle s => s

/-- Time does not run backwards, and does not pass the TxEngine's next step. -/
theorem fetch_time (s : State) : s.clock ≤ (fetch s).state.clock ∧
    (s.txPhase ≠ .off → (fetch s).state.clock + (s.txNextT - (fetch s).state.now).toNat = s.clock + (s.txNextT - s.now).toNat) := by
  have hturn : ∀ (h : ∀ u us, s.inputs = u :: us → s.txPhase ≠ .off → u.wait ≤ (s.txNextT - s.now).toNat),
    s.clock ≤ (fetchTurn s).state.clock ∧
    (s.txPhase ≠ .off → (fetchTurn s).state.clock + (s.txNextT - (fetchTurn s).state.now).toNat = s.clock + (s.txNextT - s.now).toNat) := by
    intro h
    unfold fetchTurn
    split
    · exact ⟨le_refl _, fun _ => rfl⟩
    · rename_i u us hu
      have key : ∀ f : Fetched, f.state.clock = s.clock + u.wait → f.state.now = s.now + BitVec.ofNat 32 u.wait → 
         s.clock ≤ f.state.clock ∧
    (s.txPhase ≠ .off → f.state.clock + (s.txNextT - f.state.now).toNat = s.clock + (s.txNextT - s.now).toNat) := by
        intro f h1 h2
        rw [h1, h2]
        refine ⟨by omega, fun hp => ?_⟩
        have := due_after (h u us hu hp)
        omega
      apply key
      · dsimp only; split <;> try rfl
        unfold fetchCommand; split <;> rfl
      · dsimp only; split <;> try rfl
        unfold fetchCommand; split <;> rfl
  unfold fetch State.txDue
  by_cases hp : s.txPhase = .off
  · simp only [hp, if_true]
    have := hturn (fun _ _ _ h => absurd hp h)
    rwa [hp] at this
  · simp only [hp, if_false]
    split
    · rename_i hb
      have : (fetchTx (s.txNextT - s.now).toNat s).state.clock = s.clock + (s.txNextT - s.now).toNat ∧
        (fetchTx (s.txNextT - s.now).toNat s).state.now = s.txNextT := by
        unfold fetchTx; dsimp only; split <;> exact ⟨rfl, now_at_due _ _⟩
      rw [this.1, this.2]
      simp
    · rename_i hb
      apply hturn
      intro u us hu _
      simp only [hu, txBeforeTurn, Bool.or_eq_true, decide_eq_true_eq, not_or] at hb
      omega

theorem fetch_next {s s1 : State} {i : Instr} (h : fetch s = .run i s1) : NextOp s i s1 := by
  rcases fetch_cases s with ⟨i', s1', hf, hn⟩ | ⟨s1', hf, hs⟩
  · rw [hf] at h; cases h; exact hn
  · rw [hf] at h; cases h

theorem NextOp.same {s s1 : State} {i : Instr} (h : NextOp s i s1) : SameButTime s s1 := by cases h <;> assumption

end Sys2Proof.Machine
end

