-- ==== Sys2Proof/Laws/Transmitter.lean ====
section
/-! SUPPORT. Lemmas about the waveform, the duration and the bytes of an emission. -/

namespace Sys2Proof.Machine

/-- How long a symbol sequence plays (R116, R150). -/
def symbolsDuration (T : Nat) (vs : List Sym) : Nat := (vs.map (symDuration T)).sum

/-- The four waveforms in one form: pulse `i` of a symbol `v` rises at `2i` and falls at `2i + 1` pulse widths. -/
theorem symWave_eq (T t0 : Nat) (v : Sym) : symWave T t0 v =
    (List.range (v.toNat + 1)).flatMap fun i => [⟨t0 + 2 * i * T, true⟩, ⟨t0 + (2 * i + 1) * T, false⟩] := by
  have : v = 0 ∨ v = 1 ∨ v = 2 ∨ v = 3 := by
    revert v; decide
  rcases this with rfl | rfl | rfl | rfl <;>
  simp [symWave, sym0Wave, sym1Wave, sym2Wave, sym3Wave, List.range_succ, List.range_zero] 

/-- A symbol's transitions lie in its time, and the last is `QUIET_US` before its end. -/
theorem symWave_mem {T t0 : Nat} {v : Sym} {e : Transition} (h : e ∈ symWave T t0 v) :
    t0 ≤ e.time ∧ e.time + 4 * T ≤ t0 + symDuration T v := by
  have hv := v.isLt
  rw [symWave_eq] at h
  simp only [List.mem_flatMap, List.mem_range, List.mem_cons, List.not_mem_nil, or_false] at h
  obtain ⟨i, hi, rfl | rfl⟩ := h <;> simp only [symDuration] <;> (try constructor) <;> try omega
  · have : 2 * i * T + 4 * T = (2 * i + 4) * T := by ring
    have : (2*i+4)*T ≤ (2 * v.toNat + 5) * T := Nat.mul_le_mul_right _ (by omega)
    omega
  · have : (2 * i + 1) * T + 4 * T = (2 * i + 5) * T := by ring
    have : (2*i+5)*T ≤ (2 * v.toNat + 5) * T := Nat.mul_le_mul_right _ (by omega)
    omega

/-- The transitions of an emission lie in its time, and the last is `QUIET_US` before its end. -/
theorem play_mem {T : Nat} (vs : List Sym) {t0 : Nat} {e : Transition} (h : e ∈ playSymbols T t0 vs) :
    t0 ≤ e.time ∧ e.time + 4 * T ≤ t0 + symbolsDuration T vs + 5 * T := by
  induction vs generalizing t0 with
  | nil =>
    simp only [playSymbols, sym0Wave, List.mem_cons, List.not_mem_nil, or_false] at h
    rcases h with rfl | rfl <;> simp [symbolsDuration] <;> omega
  | cons v vs ih =>
    simp only [playSymbols, List.mem_append] at h
    have ht : symbolsDuration T (v :: vs) = symDuration T v + symbolsDuration T vs := rfl
    rcases h with h | h
    · have := symWave_mem h; omega
    · have := ih h; omega

/-- An emission ends low. -/
theorem play_level {T : Nat} (vs : List Sym) (t0 : Nat) (l : Bool) :
    (playSymbols T t0 vs).foldl (fun _ e => e.level) l = false := by
  induction vs generalizing t0 l with
  | nil => rfl
  | cons v vs ih => simp only [playSymbols, List.foldl_append, ih]

theorem symbols_length (bytes : List Byte) : (symbols bytes).length = 4 * bytes.length := by
  induction bytes with
  | nil => rfl
  | cons b bs ih => simp only [symbols, List.flatMap_cons, List.length_append, List.length_cons] at ih ⊢; rw [ih]; simp [byteSymbols]; omega

theorem symbolsDuration_eq (T : Nat) (vs : List Sym) : symbolsDuration T vs = (2 * (vs.map (·.toNat)).sum + 5 * vs.length) * T := by
  induction vs with
  | nil => simp [symbolsDuration]
  | cons v vs ih =>
    have ht : symbolsDuration T (v :: vs) = symDuration T v + symbolsDuration T vs := rfl
    rw [ht, ih]; simp only [symDuration, List.map_cons, List.sum_cons, List.length_cons]; ring

/-- `DUR(E)` is the time of the symbols and of the trailer. -/
theorem duration_eq (T : Nat) (bytes : List Byte) : emissionDuration T bytes = symbolsDuration T (symbols bytes) + 5 * T := by
  rw [symbolsDuration_eq, symbols_length, emissionDuration, symbolSum]; ring

theorem symbolSum_append (a b : List Byte) : symbolSum (a ++ b) = symbolSum a + symbolSum b := by
  simp [symbolSum, symbols]

theorem byteSum_le (b : Byte) : ((byteSymbols b).map (·.toNat)).sum ≤ 12 := by
  have h := fun i => (b.extractLsb' i 2).isLt
  have := h 6; have := h 4; have := h 2; have := h 0
  simp only [byteSymbols, List.map_cons, List.map_nil, List.sum_cons, List.sum_nil]
  omega

/-- A byte's four symbols have values of at most 3. -/
theorem symbolSum_le (bytes : List Byte) : symbolSum bytes ≤ 12 * bytes.length := by
  induction bytes with
  | nil => simp [symbolSum, symbols]
  | cons b bs ih =>
    have : symbolSum (b :: bs) = symbolSum [b] + symbolSum bs := symbolSum_append [b] bs
    have := byteSum_le b
    have : symbolSum [b] = ((byteSymbols b).map (·.toNat)).sum := by simp [symbolSum, symbols]
    simp only [List.length_cons]; omega

theorem flatMap_triple_length (l : List Byte) : (l.flatMap triple).length = 3 * l.length := by
  induction l with
  | nil => rfl
  | cons b bs ih => simp only [List.flatMap_cons, List.length_append, ih, List.length_cons, triple, List.length_nil]; omega

theorem body_length (frame : List Byte) : (body frame).length = frame.length + 2 := by simp [body, crcBytes]

theorem emissionBytes_length (frame : List Byte) : (emissionBytes frame).length = 6 + 3 * (frame.length + 2) := by
  simp only [emissionBytes, List.length_append, flatMap_triple_length, body_length, triple, List.length_cons, List.length_nil]

/-- The duration of an emission is at most the bound at the longest frame, and at least `QUIET_US`. -/
theorem emission_le (c : Config) (frame : List Byte) (h : frame.length ≤ c.maxPayload + 4) :
    emissionDuration c.pulseUs (emissionBytes frame) ≤ longestEmissionUs c ∧
      4 * c.pulseUs ≤ emissionDuration c.pulseUs (emissionBytes frame) := by
  have e : symbolSum (emissionBytes frame) = 18 + symbolSum (triple (lengthByte frame) ++ (body frame).flatMap triple) := by
    rw [emissionBytes, List.append_assoc, symbolSum_append]; rfl
  have h2 := symbolSum_le (triple (lengthByte frame) ++ (body frame).flatMap triple)
  simp only [List.length_append, flatMap_triple_length, body_length, triple, List.length_cons, List.length_nil] at h2
  unfold emissionDuration longestEmissionUs maxFrame
  rw [emissionBytes_length]
  constructor <;> apply Nat.mul_le_mul_right <;> (rw [e]; simp only [triple] at h2 ⊢; omega)

/-- The level of the line is the last level of the transitions that have happened. -/
theorem levelAt_filter (w : List Transition) (t : Nat) : levelAt w t = finalLevel (w.filter (·.time ≤ t)) := by
  unfold levelAt finalLevel
  generalize false = l
  induction w generalizing l with
  | nil => rfl
  | cons e w ih =>
    simp only [List.foldl_cons, List.filter_cons]
    by_cases h : e.time ≤ t <;> simp [h, ih]

end Sys2Proof.Machine
end

