-- ==== Sys2Proof/Machine/Script.lean ====
section
/-! DEFINITION. The script notation of spec/30_encoding.md R102, as the coming turns and command bytes it stands for. It
is the notation of the programs of spec/95_test_vectors.md, no part of the block (log 24). -/

namespace Sys2Proof.Machine

/-- `flip k:j:m`: raw copy `j` of logical byte `k` (0 the length byte) is sent with the mask `m` exclusive-ored in. -/
structure Flip where
  k : Nat
  j : Nat
  m : Byte
deriving DecidableEq, Repr

/-- What one script line does at its time. -/
inductive ScriptOp where
  /-- `MNEMONIC [operands]`: the bytes of a host command. -/
  | command (bytes : List Byte)
  /-- `EDGE`. -/
  | edge
  /-- `EDGES [d1,d2,...]`. -/
  | edges (gaps : List Nat)
  /-- `WIRE <bytes>` with its flips: the edges of a remote emission with the same parameters. -/
  | wire (frame : List Byte) (flips : List Flip)
deriving DecidableEq, Repr

/-- `@<t> ...`. -/
structure ScriptLine where
  time : Nat
  op : ScriptOp
deriving DecidableEq, Repr

/-- Byte `i` of an emission under one flip: copy `j` of logical byte `k` stands at `3 + 3k + j` (R92). -/
def applyFlip (i : Nat) (b : Byte) (f : Flip) : Byte := if i = 3 + 3 * f.k + f.j then b ^^^ f.m else b

/-- The bytes on the wire of a `WIRE` line; the CRC is computed over the unflipped bytes. -/
def wireBytes (frame : List Byte) (flips : List Flip) : List Byte :=
  (emissionBytes frame).mapIdx fun i b => flips.foldl (applyFlip i) b

/-- The edge times of an emission of these bytes from `t` (spec/41_frame_transmitter.md R150). -/
def wireEdges (T t : Nat) (bytes : List Byte) : List Nat := (playSymbols T t (symbols bytes)).map (·.time)

/-- `t`, `t+d1`, `t+d1+d2`, and so on. -/
def edgeTimes : (t : Nat) → (gaps : List Nat) → List Nat
  | t, [] => [t]
  | t, d :: ds => t :: edgeTimes (t + d) ds

/-- The events of a line, with their times. -/
def lineEvents (T : Nat) (l : ScriptLine) : List (Nat × Event) :=
  match l.op with
  | .command _ => [(l.time, .host)]
  | .edge => [(l.time, .edge)]
  | .edges gaps => (edgeTimes l.time gaps).map fun t => (t, .edge)
  | .wire frame flips => (wireEdges T l.time (wireBytes frame flips)).map fun t => (t, .edge)

/-- The command bytes of a line. -/
def lineBytes (l : ScriptLine) : List Byte :=
  match l.op with
  | .command bytes => bytes
  | _ => []

/-- Insert an event behind those that are not later. -/
def insertEvent (e : Nat × Event) : List (Nat × Event) → List (Nat × Event)
  | [] => [e]
  | x :: xs => if x.1 ≤ e.1 then x :: insertEvent e xs else e :: x :: xs

/-- The events of all lines in time order. R13 leaves the order of events at one time open: they are taken in the order of
their lines; any other order can be placed as turns (DESIGN CHOICE, log 24 and log 9). -/
def scriptEvents (T : Nat) (lines : List ScriptLine) : List (Nat × Event) :=
  (lines.flatMap (lineEvents T)).foldl (fun es e => insertEvent e es) []

/-- Timed events as turns, the first counted from `t`. `order` says for each event how many TxEngine steps due at its own
instant go before it, which R13 leaves open; an event beyond its end goes before them all (DESIGN CHOICE, log 24). -/
def turnsFrom : (t : Nat) → (order : List Nat) → List (Nat × Event) → List Turn
  | _, _, [] => []
  | t, order, e :: es => ⟨e.1 - t, order.headD 0, e.2⟩ :: turnsFrom (max t e.1) order.tail es

/-- A state with a script's turns and command bytes to come, its times counted on the model's clock. Lines are given in
time order; `order` is that of `turnsFrom`. -/
def State.withScript (s : State) (order : List Nat) (lines : List ScriptLine) : State :=
  { s with
    inputs := turnsFrom s.clock order (scriptEvents s.cfg.pulseUs lines)
    hostIn := lines.flatMap lineBytes }

end Sys2Proof.Machine
end

