-- ==== Sys2Proof/Tests/Slice0.lean ====
section
/-! SUPPORT. The model's own tests: refusals of WellFormed, words written out from spec/30_encoding.md, single steps on values
of spec/95_test_vectors.md or worked out by hand from the rules, and for each statement with hypotheses a witness that meets
them. -/

namespace Sys2Proof.Tests

open Sys2Proof.Machine

/-! ### Helpers -/

/-- A test of the state an outcome answers; false where it stops. -/
def check (o : Host.Outcome State Fault Refusal) (p : State → Bool) : Bool :=
  match o with
  | .next s => p s
  | .fault _ => false
  | .refused _ => false

/-- The fault an outcome stops with. -/
def faultOf : Host.Outcome State Fault Refusal → Option Fault
  | .next _ => none
  | .fault f => some f
  | .refused _ => none

/-- The refusal an outcome stops with. -/
def refusalOf : Host.Outcome State Fault Refusal → Option Refusal
  | .next _ => none
  | .fault _ => none
  | .refused r => some r

/-- What an outcome answers as an existence. -/
theorem exists_of_check {o : Host.Outcome State Fault Refusal} {p : State → Bool} (h : check o p = true) :
    ∃ s', o = .next s' ∧ p s' = true := by
  cases o with
  | next s => exact ⟨s, rfl, h⟩
  | fault f => cases h
  | refused r => cases h

theorem exists_op {s s1 : State} {i : Instr} {p : State → Bool} (hf : fetch s = .run i s1) (h : check (exec i s1) p = true) :
    ∃ s1 s', fetch s = .run i s1 ∧ exec i s1 = .next s' ∧ p s' = true := by
  obtain ⟨s', h1, h2⟩ := exists_of_check h
  exact ⟨s1, s', hf, h1, h2⟩

/-- The reference frame of R158 in an array. -/
def frameCells : Memory := ⟨[(0, 0xBE), (1, 0xEF), (2, 0x01), (3, 0x05)], 0⟩

def frameBytes : List Byte := [0xBE, 0xEF, 0x01, 0x05]

/-- The decoder with an open window of `n` edges, the last at 1000. -/
def window (n : Fin 10) : State := { State.reset with decLast := some 1000, decCount := n }

/-- `ReadingBody` one symbol before the end of the reference frame: the symbol 2 completes the third copy of the last CRC
byte 0x96, and the window holds the six edges of that symbol (V-CRC-3). -/
def lastSymbol : State :=
  { State.reset with
    decLast := some 1000, decCount := 6, rxState := .readingBody, symAcc := 0x25, symN := 3
    copies := ⟨0x96, 0x96, 0x00⟩, copyN := 2, rxLen := 6, rxCrc := 0x9600, rxIdx := 5, rxAcc := frameCells }

/-- A full slot while the same frame's send is in its first backoff. -/
def fullSlot : State :=
  { State.reset with
    rxState := .accepted, rxLen := 6, rxAcc := frameCells, ready := true, slot := frameCells, slotLen := 4
    txPhase := .backoff, txBusy := true, txBuf := frameCells, txN := 4, txLeft := 2, txNextT := 76700, now := 74700
    clock := 74700, outTrace := [⟨1000, true⟩, ⟨74300, false⟩] }

/-- A send of the reference frame while its first emission plays; two transitions stand for the waveform. -/
def emittingOnce : State :=
  { State.reset with
    txPhase := .emitting, txBusy := true, txBuf := frameCells, txN := 4, txLeft := 3, txNextT := 74700, now := 1000
    clock := 1000, outTrace := [⟨1000, true⟩, ⟨74300, false⟩] }

/-- One coming turn of the Host, with the bytes of its port. -/
def hostTurn (bytes : List Byte) (s : State) : State := { s with hostIn := bytes, inputs := [⟨5, 0, .host⟩] }

/-! ### WellFormed refuses -/

theorem test_wellFormed_refuses_a_count_above_255 : Instr.wellFormed (.txSend (List.replicate 256 0)) = false := by decide +kernel

theorem test_wellFormed_refuses_a_command_as_reserved : Instr.wellFormed (.reserved 0x03) = false := by decide

theorem test_wellFormed_refuses_zero_edges : Instr.wellFormed (.classify 0) = false := by decide

theorem test_wellFormed_refuses_ten_edges : Instr.wellFormed (.classify 10) = false := by decide

/-! ### Words written out from the tables of R90 and R93 -/

theorem test_decode_nop : decodeTableWord 8 0b00000000 = some .nop := by decide +kernel

/-- The program P1's command `01 04 BE EF 01 05`. -/
theorem test_decode_txSend :
    decodeCommand [0b00000001, 0b00000100, 0xBE, 0xEF, 0x01, 0x05, 0x02] =
      .ok (.txSend [0xBE, 0xEF, 0x01, 0x05], [0x02]) := by decide

/-- The count is the second byte of the word, at bits 15..8. -/
theorem test_decode_txSend_word : decodeTableWord 16 0x0201 = some (.txSend [0x00, 0x00]) := by decide +kernel

theorem test_decode_rxStatus : decodeTableWord 8 0b00000010 = some .rxStatus := by decide +kernel

theorem test_decode_rxReceive : decodeTableWord 8 0b00000011 = some .rxReceive := by decide +kernel

/-- One word of each of the six RESERVED rows. -/
theorem test_decode_reserved :
    decodeTableWord 8 0b00000100 = some (.reserved 0x04) ∧ decodeTableWord 8 0b00001000 = some (.reserved 0x08) ∧
      decodeTableWord 8 0b00010000 = some (.reserved 0x10) ∧ decodeTableWord 8 0b00100000 = some (.reserved 0x20) ∧
      decodeTableWord 8 0b01000000 = some (.reserved 0x40) ∧ decodeTableWord 8 0b10000000 = some (.reserved 0x80) := by
  decide +kernel

theorem test_decode_symbols (t : Time) :
    decodeSymbol t 0b00 = .sym0 t ∧ decodeSymbol t 0b01 = .sym1 t ∧ decodeSymbol t 0b10 = .sym2 t ∧
      decodeSymbol t 0b11 = .sym3 t := ⟨rfl, rfl, rfl, rfl⟩

/-- V-BYTE-1 and V-BYTE-3. -/
theorem test_symbols_of_a_byte : byteSymbols 0xE4 = [3, 2, 1, 0] ∧ byteSymbols 0xD8 = [3, 1, 2, 0] := by decide

/-- RX_STATUS as the first operation after reset responds 00 (program P1, its first response). -/
theorem test_step_runs_a_table_word :
    check (step (State.reset.withFetchWord 8 0x02)) (fun s => decide (s.hostOut = [0x00])) = true := by decide +kernel

/-! ### Symbol Codec -/

/-- V-SYM-0 and V-SYM-1. -/
theorem test_sym0 :
    check (exec (.sym0 0) State.reset) (fun s => decide (s.outTrace = [⟨0, true⟩, ⟨100, false⟩])) = true := by decide

theorem test_sym1 :
    check (exec (.sym1 0) State.reset)
      (fun s => decide (s.outTrace = [⟨0, true⟩, ⟨100, false⟩, ⟨200, true⟩, ⟨300, false⟩])) = true := by decide

/-- V-SYM-2. -/
theorem test_sym2 :
    check (exec (.sym2 0) State.reset)
      (fun s => decide (s.outTrace =
        [⟨0, true⟩, ⟨100, false⟩, ⟨200, true⟩, ⟨300, false⟩, ⟨400, true⟩, ⟨500, false⟩])) = true := by decide

/-- V-SYM-3: the last fall. -/
theorem test_sym3 :
    check (exec (.sym3 0) State.reset) (fun s => decide (s.outTrace[7]? = some ⟨700, false⟩)) = true := by decide

theorem test_classify :
    check (exec (.classify 8) State.reset) (fun s => decide (s.result = .symbol (some 3))) = true ∧
      check (exec (.classify 9) State.reset) (fun s => decide (s.result = .symbol none)) = true := by decide

/-- V-DEC-8 and V-DEC-9: 800 closes the window, 801 aborts. -/
theorem test_edge_abort_boundary :
    check (exec (.edge 1800) (window 2)) (fun s => decide (s.rxState = .syncing ∧ s.syncSr = 0 ∧ s.syncN = 1)) = true ∧
      check (exec (.edge 1801) (window 2)) (fun s => decide (s.rxState = .idle ∧ s.trace = [.longGap 801])) = true := by decide

/-- V-DEC-4 and V-DEC-5: 49 is ignored, 50 counts. -/
theorem test_edge_debounce_boundary :
    check (exec (.edge 1049) (window 1)) (fun s => decide (s.decLast = some 1000 ∧ s.decCount = 1)) = true ∧
      check (exec (.edge 1050) (window 1)) (fun s => decide (s.decLast = some 1050 ∧ s.decCount = 2)) = true := by decide

/-! ### Frame Transmitter -/

/-- V-CRC-2. -/
theorem test_crc16Update :
    check (exec (.crc16Update 0x1234 0x56) State.reset) (fun s => decide (s.result = .crc 0x3C40)) = true ∧
      check (exec (.crc16Update 0x8000 0x00) State.reset) (fun s => decide (s.result = .crc 0x9188)) = true := by decide

/-- V-EMIT-1. -/
theorem test_emissionBytes :
    emissionBytes frameBytes =
      [0xE4, 0x1B, 0xD8, 0x06, 0x06, 0x06, 0xBE, 0xBE, 0xBE, 0xEF, 0xEF, 0xEF, 0x01, 0x01, 0x01, 0x05, 0x05, 0x05,
       0x60, 0x60, 0x60, 0x96, 0x96, 0x96] := by decide +kernel

/-- Program P1 at 76700: the second emission ends at 150400. -/
theorem test_emitStart :
    check (exec (.emitStart 76700) fullSlot)
      (fun s => decide (s.txNextT = 150400 ∧ s.txPhase = .emitting ∧ s.rxState = .accepted)) = true := by decide +kernel

/-- The waveform of V-EMIT-7, started at 76700: the first rise, and the trailer's fall 400 before the end. -/
theorem test_emitStart_waveform :
    check (exec (.emitStart 76700) { fullSlot with now := 76700, clock := 76700, outTrace := [] })
      (fun s => decide (s.outTrace.length = 446 ∧ s.outTrace[0]? = some ⟨76700, true⟩ ∧
        s.outTrace[445]? = some ⟨150000, false⟩)) = true := by decide +kernel

/-- The last EMIT_END of program P1. -/
theorem test_emitEnd_ends :
    check (exec (.emitEnd 74700) { emittingOnce with txLeft := 0 })
      (fun s => decide (s.txPhase = .off ∧ s.txBusy = false)) = true := by decide

/-- The first EMIT_END of program P1, whatever is drawn. -/
theorem test_emitEnd_backs_off :
    check (exec (.emitEnd 74700) emittingOnce) (fun s => decide (s.txPhase = .backoff ∧ s.txLeft = 2)) = true := by decide

theorem test_backoffEnd :
    check (exec (.backoffEnd 76700) fullSlot) (fun s => decide (s.txPhase = .emitting ∧ s.txNextT = 150400)) = true := by
  decide +kernel

/-- R156's example. -/
theorem test_rxDisarm :
    check (exec .rxDisarm lastSymbol)
      (fun s => decide (s.rxState = .idle ∧ s.decLast = none ∧ s.decCount = 0 ∧ s.trace = [.txMask])) = true := by decide

/-! ### Frame Receiver -/

/-- R171's example: in `Syncing` the symbol 3 is shifted into the sync register. -/
theorem test_rxSymbol :
    check (exec (.rxSymbol 3) { State.reset with rxState := .syncing, syncSr := 0x000003, syncN := 1 })
      (fun s => decide (s.syncSr = 0x00000F ∧ s.syncN = 2)) = true := by decide

/-- R173's example. -/
theorem test_idleSymbol :
    check (exec (.idleSymbol 3) State.reset) (fun s => decide (s.syncSr = 0x000003 ∧ s.syncN = 1 ∧ s.rxState = .syncing)) =
      true := by decide

/-- The twelfth symbol of the preamble (R174): 0x3906F6 shifted by the symbol 0. -/
theorem test_syncSymbol :
    check (exec (.syncSymbol 0) { State.reset with rxState := .syncing, syncSr := 0x3906F6, syncN := 11 })
      (fun s => decide (s.rxState = .readingLength ∧ s.syncN = 12)) = true ∧
    check (exec (.syncSymbol 0) { State.reset with rxState := .syncing, syncSr := 0x3906F6, syncN := 10 })
      (fun s => decide (s.rxState = .syncing ∧ s.syncN = 11)) = true := by decide

/-- The third copy completes the reference frame (V-BODY-1, V-CRC-3). -/
theorem test_byteSymbol :
    check (exec (.byteSymbol 2) lastSymbol)
      (fun s => decide (s.rxState = .accepted ∧ s.slotLen = 4 ∧ s.slot.cells = frameCells.cells ∧ s.rxCrc = 0)) = true := by decide

/-- V-LEN-2. -/
theorem test_lengthCheckEqual :
    check (exec .lengthCheckEqual { State.reset with rxState := .readingLength, copies := ⟨0x06, 0x06, 0x07⟩ })
      (fun s => decide (s.rxState = .idle ∧ s.trace = [.lenMismatch 0x06 0x06 0x07])) = true := by decide

/-- V-LEN-6 and V-LEN-5. -/
theorem test_lengthCheckRange :
    check (exec .lengthCheckRange { State.reset with rxState := .readingLength, copies := ⟨0x57, 0x57, 0x57⟩ })
      (fun s => decide (s.rxState = .idle ∧ s.trace = [.lenRange 0x57])) = true ∧
    check (exec .lengthCheckRange { State.reset with rxState := .readingLength, copies := ⟨0x56, 0x56, 0x56⟩ })
      (fun s => decide (s.rxState = .readingLength ∧ s.trace = [])) = true := by decide

/-- V-LEN-5. -/
theorem test_lengthCheckAccept :
    check (exec .lengthCheckAccept { State.reset with copies := ⟨0x56, 0x56, 0x56⟩ })
      (fun s => decide (s.rxState = .readingBody ∧ s.rxLen = 86 ∧ s.rxCrc = 0xDBC3)) = true := by decide

/-- V-BODY-4: the last CRC byte received as 97 in all copies. -/
theorem test_bodyByte_discards :
    check (exec .bodyByte { lastSymbol with copies := ⟨0x97, 0x97, 0x97⟩ })
      (fun s => decide (s.rxState = .idle ∧ s.trace = [.crcFail 0x1021] ∧ s.ready = false)) = true := by decide

/-- V-CRC-3's first body byte. -/
theorem test_bodyByte_stores :
    check (exec .bodyByte { State.reset with
        rxState := .readingBody, rxLen := 6, rxCrc := 0x8136, copies := ⟨0xBE, 0x41, 0xBE⟩ })
      (fun s => decide (s.rxCrc = 0xF1BC ∧ s.rxAcc.cells = [(0, 0xBE)] ∧ s.rxIdx = 1)) = true := by decide

/-- V-MAJ-2. -/
theorem test_maj3 :
    check (exec (.maj3 0x0F 0xF0 0x3C) State.reset) (fun s => decide (s.result = .byte 0x3C)) = true ∧
      check (exec (.maj3 0xEF 0xFF 0xFF) State.reset) (fun s => decide (s.result = .byte 0xFF)) = true := by decide

/-- R182's example. -/
theorem test_completeAccept :
    check (exec .completeAccept lastSymbol)
      (fun s => decide (s.slot.cells = frameCells.cells ∧ s.slotLen = 4 ∧ s.status = 0x11)) = true := by decide

theorem test_completeDiscard :
    check (exec .completeDiscard { lastSymbol with rxCrc := 0x045A })
      (fun s => decide (s.rxState = .idle ∧ s.trace = [.crcFail 0x045A] ∧ s.slot.cells = [])) = true := by decide

/-- R172's example. -/
theorem test_rxAbort :
    check (exec (.rxAbort (.badWindow 3)) lastSymbol) (fun s => decide (s.status = 0x00 ∧ s.trace = [.badWindow 3])) = true := by
  decide

/-- What R171 lets a model do in `Accepted`. -/
theorem test_rxSymbol_in_accepted : faultOf (exec (.rxSymbol 0) fullSlot) = some .symbolInAccepted := by decide

/-! ### Host commands and reset -/

theorem test_nop : check (exec .nop fullSlot) (fun s => decide (s = fullSlot)) = true := by decide

/-- V-HOST-1 and V-HOST-4. -/
theorem test_txSend_refused :
    check (exec (.txSend [1, 2, 3]) State.reset) (fun s => decide (s.contract = [.txLen 3] ∧ s.txBusy = false)) = true ∧
      check (exec (.txSend [1, 2, 3, 4]) emittingOnce)
        (fun s => decide (s.contract = [.txBusy 4] ∧ s.txBuf.cells = frameCells.cells)) = true := by decide

/-- Program P1 at 1000. -/
theorem test_txSend_accepted :
    check (exec (.txSend frameBytes) { State.reset with now := 1000, clock := 1000 })
      (fun s => decide (s.txBuf.cells = frameCells.cells ∧ s.txN = 4 ∧ s.txLeft = 3 ∧ s.txNextT = 74700 ∧ s.trace = [.txMask] ∧
        s.status = 0x02)) = true := by decide +kernel

/-- STATUS with the slot full and a send in progress: RDY, TXB and RXS = 4. -/
theorem test_rxStatus : check (exec .rxStatus fullSlot) (fun s => decide (s.hostOut = [0x13])) = true := by decide

/-- Program P2's second command; the empty slot of V-HOST-6. -/
theorem test_rxReceive :
    check (exec .rxReceive fullSlot)
      (fun s => decide (s.hostOut = [0x04, 0xBE, 0xEF, 0x01, 0x05] ∧ s.ready = false ∧ s.rxState = .idle)) = true ∧
    check (exec .rxReceive State.reset) (fun s => decide (s.hostOut = [0x00])) = true := by decide

/-- V-HOST-5. -/
theorem test_reserved :
    check (exec (.reserved 0x7F) State.reset) (fun s => decide (s.contract = [.reservedCmd 0x7F] ∧ s.hostOut = [])) = true := by
  decide

/-- R260: a line that is high falls at once, and the rest of the emission is gone. -/
theorem test_reset :
    check (exec .reset emittingOnce)
      (fun s => decide (s.outTrace = [⟨1000, true⟩, ⟨1000, false⟩] ∧ s.txPhase = .off ∧ s.txBusy = false)) = true := by decide

/-- R71: the last index reads, also where nothing has been written; the array's size does not. -/
theorem test_array_index :
    arrayRead .slot fullSlot 83 = .ok (Config.freeArrayByte 0 83) ∧
      arrayRead .slot fullSlot 84 = .error (.arrayIndex .slot 84) := ⟨rfl, rfl⟩

/-! ### Steps at one instant -/

/-- R13: an edge at the instant at which an emission ends and a backoff of 0 begins, let in after EMIT_END. -/
theorem test_edge_after_emitEnd :
    waitLess 73700 [⟨73700, 1, .edge⟩] = [⟨0, 0, .edge⟩] ∧
      check (step { emittingOnce with inputs := [⟨73700, 1, .edge⟩] })
        (fun s => decide (s.txPhase = .backoff ∧ s.inputs = [⟨0, 0, .edge⟩])) = true := by decide +kernel

/-- It is applied before BACKOFF_END, due at the same instant; a second turn that lets one step go first comes after it. -/
theorem test_edge_before_backoffEnd :
    check (step { emittingOnce with txPhase := .backoff, now := 74700, inputs := [⟨0, 0, .edge⟩, ⟨0, 1, .host⟩] })
        (fun s => decide (s.decLast = some 74700 ∧ s.inputs = [⟨0, 1, .host⟩])) = true ∧
      check (step { emittingOnce with txPhase := .backoff, now := 74700, inputs := [⟨0, 1, .host⟩] })
        (fun s => decide (s.txPhase = .emitting ∧ s.inputs = [⟨0, 0, .host⟩])) = true := by decide +kernel

/-! ### Witnesses: a state and operands that meet the hypotheses of each statement -/

/-- One symbol missing in `Syncing`. -/
def syncingState : State := { State.reset with rxState := .syncing, syncSr := 0x3906F6, syncN := 11 }

/-- Two equal length copies and the last symbol of the third to come. -/
def lengthState (c0 c1 : Byte) : State :=
  { State.reset with rxState := .readingLength, symAcc := 0x01, symN := 3, copies := ⟨c0, c1, 0x00⟩, copyN := 2 }

/-- The window of the last symbol of `lastSymbol`, closed by an edge at the Channel's turn. -/
def lastEdgeTurn : State := { lastSymbol with now := 1395, clock := 1395, inputs := [⟨5, 0, .edge⟩] }

theorem fullSlot_inv : Inv fullSlot where
  config := by decide
  txBufOk := by unfold arrayOk; decide
  rxAccOk := by unfold arrayOk; decide
  slotOk := by unfold arrayOk; decide
  window := by decide
  idle := by decide
  syncing := by decide
  searching := by decide
  index := by decide
  reading := by simp [fullSlot]
  readyAccepted := by decide
  slotEmpty := by decide
  slotFull := fun _ => ⟨by decide, by decide, by unfold covers; decide⟩
  busyPhase := by decide
  sending := fun _ => ⟨by decide, by decide, by unfold covers; decide⟩
  left := by decide

theorem lastSymbol_inv : Inv lastSymbol where
  config := by decide
  txBufOk := by unfold arrayOk; decide
  rxAccOk := by unfold arrayOk; decide
  slotOk := by unfold arrayOk; decide
  window := by decide
  idle := by decide
  syncing := by decide
  searching := by decide
  index := by decide
  reading := fun _ => ⟨by decide, by decide, by unfold covers; decide⟩
  readyAccepted := by decide
  slotEmpty := by decide
  slotFull := by simp [lastSymbol, State.reset]
  busyPhase := by decide
  sending := by simp [lastSymbol, State.reset]
  left := by decide

theorem syncingState_inv : Inv syncingState where
  config := by decide
  txBufOk := by unfold arrayOk; decide
  rxAccOk := by unfold arrayOk; decide
  slotOk := by unfold arrayOk; decide
  window := by decide
  idle := by decide
  syncing := by decide
  searching := by decide
  index := by decide
  reading := by simp [syncingState]
  readyAccepted := by decide
  slotEmpty := by decide
  slotFull := by simp [syncingState, State.reset]
  busyPhase := by decide
  sending := by simp [syncingState, State.reset]
  left := by decide

/-- In `Idle`, with a window open. -/
theorem window_inv : Inv (window 1) where
  config := by decide
  txBufOk := by unfold arrayOk; decide
  rxAccOk := by unfold arrayOk; decide
  slotOk := by unfold arrayOk; decide
  window := by decide
  idle := by decide
  syncing := by decide
  searching := by decide
  index := by decide
  reading := by simp [window, State.reset]
  readyAccepted := by decide
  slotEmpty := by decide
  slotFull := by simp [window, State.reset]
  busyPhase := by decide
  sending := by simp [window, State.reset]
  left := by decide

theorem fullSlot_lineInv : LineInv fullSlot where
  inv := fullSlot_inv
  fits := by decide
  low := by decide
  past := by decide
  coming := by decide

theorem witness_DecodingInvertsEncoding :
    Instr.wellFormed (.txSend frameBytes) = true ∧ Instr.wellFormed (.reserved 0x04) = true ∧
      Instr.wellFormed (.sym3 0) = true ∧ Instr.wellFormed (.classify 9) = true := by decide

theorem witness_DecodedCommandsReencode : decodeCommand [0x01, 0x01, 0xAA, 0x02] = .ok (.txSend [0xAA], [0x02]) := by decide

theorem witness_StepRunsTheHostsCommand :
    configValid (hostTurn [0x02, 0x03] fullSlot).cfg = true ∧
      (hostTurn [0x02, 0x03] fullSlot).inputs = ⟨5, 0, .host⟩ :: [] ∧
      turnFirst ⟨5, 0, .host⟩ (hostTurn [0x02, 0x03] fullSlot) ∧
      decodeCommand (hostTurn [0x02, 0x03] fullSlot).hostIn = .ok (.rxStatus, [0x03]) := by
  unfold turnFirst; decide

/-- Both events; and the equal-time turn that comes before the TxEngine's step. -/
theorem witness_StepRunsEdgesAndResets :
    configValid fullSlot.cfg = true ∧ turnFirst ⟨5, 1, .edge⟩ fullSlot ∧ turnFirst ⟨2000, 0, .reset⟩ fullSlot ∧
      ¬ turnFirst ⟨2000, 1, .reset⟩ fullSlot := by
  unfold turnFirst; decide

theorem witness_StepRunsTheTxEngineAtItsTime :
    configValid emittingOnce.cfg = true ∧ emittingOnce.inputs = [] ∧ emittingOnce.txPhase = .emitting ∧
      ¬ turnFirst ⟨2000, 1, .edge⟩ fullSlot ∧ fullSlot.txPhase = .backoff := by
  unfold turnFirst; decide

theorem witness_StepWithNothingToRun :
    configValid (window 1).cfg = true ∧ (window 1).inputs = [] ∧ (window 1).txPhase = .off ∧
      turnFirst ⟨5, 0, .host⟩ (hostTurn [0x01, 0x04, 0xBE] State.reset) ∧
      decodeCommand (hostTurn [0x01, 0x04, 0xBE] State.reset).hostIn = .error .dataMissing := by
  unfold turnFirst; decide

theorem witness_InvalidConfigurationIsRefused :
    (1 : Nat) < 2 ∧ refusalOf (step { State.reset with cfg := { Config.reference with pulseUs := 1 } }) = some .config := by
  decide

theorem witness_StepKeepsTheInvariant : Inv fullSlot ∧ ∃ s', step fullSlot = .next s' ∧ decide (s'.txPhase = .emitting) = true :=
  ⟨fullSlot_inv, exists_of_check (p := fun s => decide (s.txPhase = .emitting)) (by decide +kernel)⟩

theorem witness_InvariantStatesAlwaysStep : Inv lastEdgeTurn ∧ ∃ s', step lastEdgeTurn = .next s' ∧ s'.ready = true :=
  ⟨{ lastSymbol_inv with }, exists_of_check (p := fun s => s.ready) (by decide +kernel)⟩

theorem witness_StepKeepsTheOutputLineInvariant :
    LineInv fullSlot ∧ ∃ s', step fullSlot = .next s' ∧ decide (s'.txPhase = .emitting) = true :=
  ⟨fullSlot_lineInv, exists_of_check (p := fun s => decide (s.txPhase = .emitting)) (by decide +kernel)⟩

theorem witness_OutputLineIsLowOutsideEmissions : LineInv fullSlot ∧ fullSlot.txPhase ≠ .emitting :=
  ⟨fullSlot_lineInv, by decide⟩

theorem witness_ConfigurationNeverChanges : ∃ s', step emittingOnce = .next s' ∧ decide (s'.txLeft = 2) = true :=
  exists_of_check (p := fun s => decide (s.txLeft = 2)) (by decide +kernel)

theorem witness_StepAddsAtMostOneRecord :
    ∃ s', step (hostTurn [0x7F] fullSlot) = .next s' ∧ decide (s'.contract = [.reservedCmd 0x7F]) = true :=
  exists_of_check (p := fun s => decide (s.contract = [.reservedCmd 0x7F])) (by decide +kernel)

/-- `ready` falls at RX_RECEIVE; `tx_busy` rises at TX_SEND. -/
theorem witness_FlagsChangeOnlyAtTheirOperations :
    (fullSlot.ready = true ∧ ∃ s1 s', fetch (hostTurn [0x03] fullSlot) = .run .rxReceive s1 ∧ exec .rxReceive s1 = .next s' ∧
      (!s'.ready) = true) ∧
    ((window 1).txBusy = false ∧ ∃ s1 s', fetch (hostTurn (0x01 :: 0x04 :: frameBytes) (window 1)) =
        .run (.txSend frameBytes) s1 ∧ exec (.txSend frameBytes) s1 = .next s' ∧ s'.txBusy = true) := by
  refine ⟨⟨rfl, ?_⟩, ⟨rfl, ?_⟩⟩
  · exact exists_op (s1 := atTurn ⟨5, 0, .host⟩ [] (hostTurn [] fullSlot)) (p := fun s => !s.ready) (by decide +kernel)
      (by decide +kernel)
  · exact exists_op (s1 := atTurn ⟨5, 0, .host⟩ [] (hostTurn [] (window 1))) (p := fun s => s.txBusy) (by decide +kernel)
      (by decide +kernel)

/-- The edge that completes a frame, and an edge while the slot is full. -/
theorem witness_SlotChangesOnlyWithReady :
    (∃ s1 s', fetch lastEdgeTurn = .run (.edge 1400) s1 ∧ exec (.edge 1400) s1 = .next s' ∧ s'.ready = true) ∧
      fullSlot.ready = true ∧ ∃ s', exec (.edge 74705) fullSlot = .next s' ∧ decide (s' = fullSlot) = true := by
  exact ⟨exists_op (s1 := atTurn ⟨5, 0, .edge⟩ [] lastEdgeTurn) (p := fun s => s.ready) (by decide +kernel) (by decide +kernel),
    rfl, exists_of_check (p := fun s => decide (s = fullSlot)) (by decide +kernel)⟩

theorem witness_LatchedFrameStaysWhileBusy :
    emittingOnce.txBusy = true ∧ ∃ s1 s', fetch emittingOnce = .run (.emitEnd 74700) s1 ∧
      exec (.emitEnd 74700) s1 = .next s' ∧ decide (s'.txLeft = 2) = true := by
  exact ⟨rfl, exists_op (s1 := { emittingOnce with now := 74700, clock := 74700 }) (p := fun s => decide (s.txLeft = 2))
    (by decide +kernel) (by decide +kernel)⟩

theorem witness_ReceiveErrorsAreInvisible :
    ∃ s', exec (.edge 1400) { lastSymbol with rxCrc := 0x9601 } = .next s' ∧ decide (s'.trace ≠ []) = true :=
  exists_of_check (p := fun s => decide (s.trace ≠ [])) (by decide +kernel)

/-- The premises of each branch of EDGE, at the boundary values of the interval. -/
theorem witness_EdgeFollowsTheDecoder :
    emittingOnce.txPhase = .emitting ∧ fullSlot.ready = true ∧ State.reset.decLast = none ∧
      (window 6).decLast = some 1000 ∧ (window 6).txPhase ≠ .emitting ∧ (window 6).ready = false ∧
      ((1049 : Time) - 1000).toNat < 100 / 2 ∧ 100 / 2 ≤ ((1050 : Time) - 1000).toNat ∧
      ((1199 : Time) - 1000).toNat < 2 * 100 ∧ 2 * 100 ≤ ((1200 : Time) - 1000).toNat ∧
      ((1800 : Time) - 1000).toNat ≤ 8 * 100 ∧ 8 * 100 < ((1801 : Time) - 1000).toNat ∧
      (window 6).decCount.val = 2 * ((2 : Sym).toNat + 1) ∧
      ∀ v : Sym, (window 9).decCount.val ≠ 2 * (v.toNat + 1) := by decide

/-- The smallest and the largest pulse parameter of R125 for `T = 100`. -/
theorem witness_WindowDeliversItsSymbol :
    configValid (window 1).cfg = true ∧ (window 1).txPhase ≠ .emitting ∧ (window 1).ready = false ∧
      (window 1).decLast = some (BitVec.ofNat 32 1000) ∧ (window 1).decCount = 1 ∧
      ((window 1).cfg.pulseUs + 1) / 2 ≤ 50 ∧ 199 ≤ 2 * (window 1).cfg.pulseUs - 1 := by decide

/-- The pulse parameters just outside R125 for `T = 100`. -/
theorem witness_SymbolZeroIsLostOutsideTheTolerance :
    configValid (window 1).cfg = true ∧ (window 1).txPhase ≠ .emitting ∧ (window 1).ready = false ∧
      (window 1).rxState = .idle ∧ (window 1).decLast = some (BitVec.ofNat 32 1000) ∧ (window 1).decCount = 1 ∧
      49 < ((window 1).cfg.pulseUs + 1) / 2 ∧ 2 * (window 1).cfg.pulseUs - 1 < 200 ∧ 4 * 200 < 2 ^ 32 := by decide

theorem witness_EmitStartPlaysTheLatchedFrame :
    frameBytes.length = fullSlot.txN.toNat ∧ frameBytes.length ≤ fullSlot.cfg.maxPayload + 4 ∧
      holds fullSlot.txBuf frameBytes := by
  unfold holds; decide

theorem witness_EmitEndBacksOffOrEnds :
    emittingOnce.cfg.backoffMinUs ≤ emittingOnce.cfg.backoffMaxUs ∧ emittingOnce.txPhase = .emitting ∧
      emittingOnce.txNextT = 74700 ∧ 0 < emittingOnce.txLeft.toNat ∧ { emittingOnce with txLeft := 0 }.txLeft = 0 ∧
      fullSlot.txPhase ≠ .emitting ∧ emittingOnce.txNextT ≠ 74699 := by decide

theorem witness_BackoffEndStartsTheSameFrame :
    fullSlot.txPhase = .backoff ∧ fullSlot.txNextT = 76700 ∧ frameBytes.length = fullSlot.txN.toNat ∧
      frameBytes.length ≤ fullSlot.cfg.maxPayload + 4 ∧ holds fullSlot.txBuf frameBytes ∧
      emittingOnce.txPhase ≠ .backoff := by
  unfold holds; decide

theorem witness_DrawsFillTheBackoffRange :
    Config.reference.backoffMinUs ≤ Config.reference.backoffMaxUs ∧ Config.reference.backoffMinUs ≤ 5000 ∧
      5000 ≤ Config.reference.backoffMaxUs := by decide

theorem witness_RxDisarmKeepsAnAcceptedFrame : fullSlot.rxState = .accepted ∧ lastSymbol.rxState ≠ .accepted := by decide

theorem witness_SendMakesOnePlusResendEmissions :
    Inv syncingState ∧ syncingState.inputs = [] ∧ syncingState.txBusy = false ∧ 4 ≤ frameBytes.length ∧
      frameBytes.length ≤ syncingState.cfg.maxPayload + 4 ∧
      emissionDuration syncingState.cfg.pulseUs (emissionBytes frameBytes) < 2 ^ 32 :=
  ⟨syncingState_inv, by decide +kernel⟩

theorem witness_RxSymbolDispatchesOnTheState :
    (window 2).rxState = .idle ∧ syncingState.rxState = .syncing ∧ (lengthState 6 6).rxState = .readingLength ∧
      lastSymbol.rxState = .readingBody ∧ fullSlot.rxState = .accepted := by decide

theorem witness_SamplerOperationsComplete : Inv lastSymbol ∧ lastSymbol.rxState = .readingBody :=
  ⟨lastSymbol_inv, by decide⟩

theorem witness_RxAbortReturnsToIdle : Inv (window 1) ∧ (window 1).rxState = .idle := ⟨window_inv, by decide⟩

/-- The twelfth symbol of the preamble, and the same symbol as the eleventh. -/
theorem witness_SyncSymbolMatchesThePreamble :
    (countSync syncingState.syncN).val = 12 ∧ ((syncingState.syncSr <<< 2) ||| (0 : Sym).setWidth 24) = 0xE41BD8#24 ∧
      (countSync 10).val = 11 := by decide

theorem witness_PreambleIsAlwaysFound : (window 1).rxState = .idle ∧ syncingState.rxState = .syncing := by decide

/-- The premises of each branch of BYTE_SYMBOL. -/
theorem witness_ByteSymbolAssemblesCopies :
    (window 1).symN ≠ 3 ∧ (lengthState 6 6).symN = 3 ∧ (lengthState 6 6).copyN = 2 ∧
      { lengthState 6 6 with copyN := 0 }.copyN = 0 ∧ { lengthState 6 6 with copyN := 1 }.copyN = 1 ∧
      ((0x01 : Byte) <<< 2 ||| (2 : Sym).setWidth 8) = 6 ∧ (6 : Byte) ≠ 7 ∧ lastSymbol.rxState ≠ .readingLength := by decide

/-- The four boundary lengths under `MAX_PAYLOAD = 80`. -/
theorem witness_LengthChecksAbandonBadLengths :
    6 ≤ (0x06 : Byte).toNat ∧ (0x56 : Byte).toNat ≤ 80 + 6 ∧ (0x05 : Byte).toNat < 6 ∧ 80 + 6 < (0x57 : Byte).toNat ∧
      ¬ ((6 : Byte) = 6 ∧ (6 : Byte) = 7) := by decide

/-- The last byte with a zero and a nonzero CRC, the first CRC byte, and the last frame byte. -/
theorem witness_BodyByteVotesStoresAndCompletes :
    6 ≤ lastSymbol.rxLen.toNat ∧ lastSymbol.rxLen.toNat ≤ lastSymbol.cfg.maxPayload + 6 ∧
      lastSymbol.rxIdx + 1 = lastSymbol.rxLen.toNat ∧ crc16Update lastSymbol.rxCrc 0x96 = 0 ∧
      crc16Update lastSymbol.rxCrc 0x97 ≠ 0 ∧ lastSymbol.rxLen.toNat - 2 ≤ 4 ∧ 4 + 1 ≠ lastSymbol.rxLen.toNat ∧
      3 < lastSymbol.rxLen.toNat - 2 := by decide

theorem witness_CompleteAcceptFillsTheSlot :
    6 ≤ lastSymbol.rxLen.toNat ∧ lastSymbol.rxLen.toNat ≤ lastSymbol.cfg.maxPayload + 6 ∧
      frameBytes.length = lastSymbol.rxLen.toNat - 2 ∧ holds lastSymbol.rxAcc frameBytes := by
  unfold holds; decide

theorem witness_EmittedSymbolsDeliverTheFrame :
    Inv syncingState ∧ syncingState.rxState = .syncing ∧ 4 ≤ frameBytes.length ∧
      frameBytes.length ≤ syncingState.cfg.maxPayload + 4 := ⟨syncingState_inv, by decide⟩

theorem witness_EmittedEdgesDeliverTheFrame :
    Inv syncingState ∧ syncingState.rxState = .syncing ∧ syncingState.txPhase ≠ .emitting ∧ syncingState.decLast = none ∧
      4 ≤ frameBytes.length ∧ frameBytes.length ≤ syncingState.cfg.maxPayload + 4 ∧
      (syncingState.cfg.pulseUs + 1) / 2 ≤ 50 ∧ 199 ≤ 2 * syncingState.cfg.pulseUs - 1 := ⟨syncingState_inv, by decide⟩

/-- A busy block; the counts 3 and 85 that are refused, 4 and 84 that are not; and the program P1's instant. -/
theorem witness_TxSendLatchesAndEmits :
    emittingOnce.cfg.maxPayload ≤ 249 ∧ emittingOnce.txBusy = true ∧ State.reset.txBusy = false ∧ (3 : Nat) < 4 ∧
      State.reset.cfg.maxPayload + 4 < (List.replicate 85 (0 : Byte)).length ∧
      4 ≤ frameBytes.length ∧ (List.replicate 84 (0 : Byte)).length ≤ State.reset.cfg.maxPayload + 4 ∧
      { State.reset with now := 1000 }.cfg = Config.reference ∧ { State.reset with now := 1000 }.now = 1000 := by decide +kernel

theorem witness_RxReceiveEmptiesTheSlot :
    State.reset.ready = false ∧ fullSlot.ready = true ∧ frameBytes.length = fullSlot.slotLen.toNat ∧
      frameBytes.length ≤ fullSlot.cfg.maxPayload + 4 ∧ holds fullSlot.slot frameBytes := by
  unfold holds; decide

theorem witness_ReservedCommandsAreIgnored : 4 ≤ (0x04 : Byte).toNat ∧ 4 ≤ (0xFF : Byte).toNat := by decide

/-- The last index of the array and the first one outside it. -/
theorem witness_ArrayPrimitivesMoveOneByte :
    83 < State.reset.cfg.maxPayload + 4 ∧ State.reset.cfg.maxPayload + 4 ≤ 84 := by decide

theorem witness_ClassifyMapsEvenCountsToSymbols :
    classify 2 = some 0 ∧ classify 4 = some 1 ∧ classify 6 = some 2 ∧ classify 8 = some 3 ∧ classify 1 = none ∧
      classify 9 = none := by decide

theorem witness_EmissionLayout : 3 < frameBytes.length ∧ (emissionBytes frameBytes)[6 + 3 * 3 + 2]? = some 0x05 := by
  decide +kernel

/-- Two copies with the same wrong bit. -/
theorem witness_MajorityCorrectsOneCopy :
    (4 : Nat) < 8 ∧ (0xFF : Byte).getLsbD 4 = (! (0xEF : Byte).getLsbD 4) ∧ maj3 0xEF 0xFF 0xFF = 0xFF := by decide

end Sys2Proof.Tests
end

section
/-! What a step runs at a turn of the outside, at a turn with nothing to run and under an invalid configuration
(spec/00_scope.md R10, R12, R13). -/

namespace Sys2Proof.Machine

/-! ### The step of a fetched operation -/

theorem step_of_run {s s1 : State} {i : Instr} (hc : configValid s.cfg = true) (hf : fetch s = .run i s1) :
    step s = exec i s1 := by
  rw [step, if_pos hc, hf]

theorem step_of_idle {s s1 : State} (hc : configValid s.cfg = true) (hf : fetch s = .idle s1) : step s = .next s1 := by
  rw [step, if_pos hc, hf]

theorem step_of_invalid {s : State} (hc : configValid s.cfg ≠ true) : step s = .refused .config := by
  rw [step, if_neg hc]

/-! ### What is fetched at a turn -/

/-- `turnFirst` says in arithmetic what `txBeforeTurn` decides. -/
theorem txBeforeTurn_of_turnFirst {u : Turn} {s : State} (h : turnFirst u s) (hp : s.txPhase ≠ .off) (us : List Turn) :
    txBeforeTurn (s.txNextT - s.now).toNat (u :: us) = false := by
  simp only [turnFirst, hp, false_or] at h
  simp only [txBeforeTurn, Bool.or_eq_false_iff, Bool.and_eq_false_iff, decide_eq_false_iff_not]
  omega

theorem fetch_eq_fetchTurn_of_off {s : State} (h : s.txPhase = .off) : fetch s = fetchTurn s := by
  simp [fetch, State.txDue, h]

/-- A turn that is first is what comes next (R13). -/
theorem fetch_eq_fetchTurn {s : State} {u : Turn} {us : List Turn} (hi : s.inputs = u :: us) (h : turnFirst u s) :
    fetch s = fetchTurn s := by
  by_cases hp : s.txPhase = .off
  · exact fetch_eq_fetchTurn_of_off hp
  · have hdue : s.txDue = some (s.txNextT - s.now).toNat := if_neg hp
    simp only [fetch, hdue, hi, txBeforeTurn_of_turnFirst h hp us, Bool.false_eq_true, if_false]

theorem fetchTurn_nil {s : State} (hi : s.inputs = []) : fetchTurn s = .idle s := by
  rw [fetchTurn, hi]

theorem fetchTurn_edge {s : State} {u : Turn} {us : List Turn} (hi : s.inputs = u :: us) (he : u.event = .edge) :
    fetchTurn s = .run (.edge (atTurn u us s).now) (atTurn u us s) := by
  simp [fetchTurn, hi, he, State.advance, atTurn]

theorem fetchTurn_host {s : State} {u : Turn} {us : List Turn} (hi : s.inputs = u :: us) (he : u.event = .host) :
    fetchTurn s = fetchCommand (atTurn u us s) := by
  simp [fetchTurn, hi, he, State.advance, atTurn]

theorem fetchTurn_reset {s : State} {u : Turn} {us : List Turn} (hi : s.inputs = u :: us) (he : u.event = .reset) :
    fetchTurn s = .run .reset (atTurn u us s) := by
  simp [fetchTurn, hi, he, State.advance, atTurn]

theorem fetchCommand_of_ok {s : State} {i : Instr} {rest : List Byte} (h : decodeCommand s.hostIn = .ok (i, rest)) :
    fetchCommand s = .run i { s with hostIn := rest } := by
  rw [fetchCommand, h]

theorem fetchCommand_of_error {s : State} {e : DecodeError} (h : decodeCommand s.hostIn = .error e) :
    fetchCommand s = .idle s := by
  rw [fetchCommand, h]

/-! ### The statements -/

/-- Settles O5: the Host's turn is fetched, and its command is the decoded one. -/
theorem stepRunsTheHostsCommand : Obligations.StepRunsTheHostsCommand := by
  intro s u us i rest hc hi hfirst he hd
  have hcmd : fetchCommand (atTurn u us s) = .run i { atTurn u us s with hostIn := rest } := fetchCommand_of_ok hd
  exact step_of_run hc ((fetch_eq_fetchTurn hi hfirst).trans ((fetchTurn_host hi he).trans hcmd))

/-- Settles O6: the turn that is first is fetched, and `fetchTurn` reads its event. -/
theorem stepRunsEdgesAndResets : Obligations.StepRunsEdgesAndResets := by
  intro s u us hc hi hfirst
  have hf : fetch s = fetchTurn s := fetch_eq_fetchTurn hi hfirst
  exact ⟨fun he => step_of_run hc (hf.trans (fetchTurn_edge hi he)),
    fun he => step_of_run hc (hf.trans (fetchTurn_reset hi he))⟩

/-- Settles O8: both clauses fetch no operation. -/
theorem stepWithNothingToRun : Obligations.StepWithNothingToRun := by
  refine ⟨fun s hc hi hoff => ?_, fun s u us e hc hi hfirst he hd => ?_⟩
  · exact step_of_idle hc ((fetch_eq_fetchTurn_of_off hoff).trans (fetchTurn_nil hi))
  · have hcmd : fetchCommand (atTurn u us s) = .idle (atTurn u us s) := fetchCommand_of_error hd
    exact step_of_idle hc ((fetch_eq_fetchTurn hi hfirst).trans ((fetchTurn_host hi he).trans hcmd))

/-- Settles O9: `configValid` is the conjunction of R9's six constraints. -/
theorem invalidConfigurationIsRefused : Obligations.InvalidConfigurationIsRefused :=
  fun s hbad => step_of_invalid fun hc => hbad ((configValid_iff s.cfg).1 hc)

end Sys2Proof.Machine
end

section
/-! The configuration is a port no operation of a run writes (spec/00_scope.md R9, spec/10_state.md R52). -/

namespace Sys2Proof.Machine

/-! ### The configuration after each operation a step can run -/

/-- Closing a window changes the receiver only: an abort, or the symbol of the window. -/
theorem closeWindow_only {c : Nat} {dt : Time} {s s' : State} (h : closeWindow c dt s = .ok s') : OnlyReceiver s s' := by
  unfold closeWindow at h
  split at h
  · cases h; exact rxAbort_only _ s
  · split at h
    · cases h; exact rxAbort_only _ s
    · exact rxSymbol_only h

theorem decodeEdge_cfg {t : Time} {s s' : State} (h : decodeEdge t s = .ok s') : s'.cfg = s.cfg := by
  unfold decodeEdge at h
  split at h
  · cases h; rfl
  · dsimp only at h
    split at h
    · cases h; rfl
    · split at h
      · cases h; rfl
      · exact (closeWindow_only h).cfg

theorem edge_cfg {t : Time} {s s' : State} (h : edge t s = .ok s') : s'.cfg = s.cfg := by
  unfold edge at h
  split at h
  · cases h; rfl
  · split at h
    · cases h; rfl
    · exact decodeEdge_cfg h

@[simp] theorem disarmed_cfg (s : State) : (disarmed s).cfg = s.cfg := by rw [← rxDisarm_eq, rxDisarm_cfg]

theorem emitStart_cfg {ts : Time} {s s' : State} (h : emitStart ts s = .ok s') : s'.cfg = s.cfg := by
  obtain ⟨frame, -, -, -, rfl⟩ := emitStart_ok h
  exact disarmed_cfg s

theorem emitEnd_cfg (t : Time) (s : State) : (emitEnd t s).cfg = s.cfg := by
  unfold emitEnd; split <;> rfl

theorem sendFrame_cfg {data : List Byte} {t : Time} {s s' : State} (h : sendFrame data t s = .ok s') :
    s'.cfg = s.cfg := by
  unfold sendFrame at h
  split at h
  · cases h
  · rename_i s1 hw
    obtain ⟨rfl, -⟩ := writeBytes_ok hw
    exact (emitStart_cfg h).trans (State.withArray_cfg s _ _)

theorem txSend_cfg {data : List Byte} {t : Time} {s s' : State} (h : txSend data t s = .ok s') : s'.cfg = s.cfg := by
  unfold txSend at h
  split at h
  · cases h; rfl
  · split at h
    · cases h; rfl
    · exact sendFrame_cfg h

theorem rxReceive_cfg {s s' : State} (h : rxReceive s = .ok s') : s'.cfg = s.cfg := by
  unfold rxReceive at h
  split at h
  · split at h
    · cases h
    · cases h; rfl
  · cases h; rfl

theorem execEmitEnd_cfg {t : Time} {s s' : State} (h : execEmitEnd t s = .next s') : s'.cfg = s.cfg := by
  unfold execEmitEnd at h
  split at h
  · cases h; exact emitEnd_cfg t s
  · cases h; rfl

theorem execBackoffEnd_cfg {t : Time} {s s' : State} (h : execBackoffEnd t s = .next s') : s'.cfg = s.cfg := by
  unfold execBackoffEnd at h
  split at h
  · exact emitStart_cfg (toOutcome_eq_next.1 h)
  · cases h; rfl

/-! ### The configuration after a step -/

theorem SameButTime.cfg {s s1 : State} (h : SameButTime s s1) : s1.cfg = s.cfg := by rw [h]

/-- Every operation a step can run leaves the configuration. -/
theorem NextOp.exec_cfg {s s1 s' : State} {i : Instr} (hn : NextOp s i s1) (h : exec i s1 = .next s') :
    s'.cfg = s1.cfg := by
  cases hn with
  | edge => exact edge_cfg (toOutcome_eq_next.1 h)
  | command _ _ _ hcmd =>
    rcases hcmd with rfl | ⟨data, rfl⟩ | rfl | rfl | ⟨op, rfl⟩
    · cases h; rfl
    · exact txSend_cfg (toOutcome_eq_next.1 h)
    · cases h; rfl
    · exact rxReceive_cfg (toOutcome_eq_next.1 h)
    · cases h; rfl
  | reset => cases h; rfl
  | emitEnd => exact execEmitEnd_cfg h
  | backoffEnd => exact execBackoffEnd_cfg h

/-- Settles O15: time leaves the configuration, and so does the operation that runs; a refused step has no next state. -/
theorem configurationNeverChanges : Obligations.ConfigurationNeverChanges := by
  intro s s' h
  by_cases hc : configValid s.cfg = true
  · rcases step_cases hc with ⟨i, s1, hn, hrun⟩ | ⟨s1, hsame, hidle⟩
    · exact (hn.exec_cfg (hrun ▸ h)).trans hn.same.cfg
    · rw [hidle] at h
      cases h
      exact hsame.cfg
  · rw [step_of_invalid hc] at h
    cases h

end Sys2Proof.Machine
end

section
/-! The TxEngine's turn (spec/00_scope.md R13, spec/10_state.md R46, R49): when no coming turn is first, its step is fetched. -/

namespace Sys2Proof.Machine

/-- With no turn to come, or with a first turn that lets the TxEngine go first, the TxEngine's step comes next. -/
theorem txBeforeTurn_of_not_turnFirst {s : State} (h : s.inputs = [] ∨ ∃ u us, s.inputs = u :: us ∧ ¬ turnFirst u s) :
    txBeforeTurn (s.txNextT - s.now).toNat s.inputs = true := by
  rcases h with hnil | ⟨u, us, hi, hlater⟩
  · rw [hnil]; rfl
  · simp only [turnFirst, not_or, not_and] at hlater
    obtain ⟨-, hwait, hequal⟩ := hlater
    simp only [hi, txBeforeTurn, Bool.or_eq_true, Bool.and_eq_true, decide_eq_true_eq]
    omega

theorem fetch_eq_fetchTx {s : State} (hp : s.txPhase ≠ .off)
    (h : s.inputs = [] ∨ ∃ u us, s.inputs = u :: us ∧ ¬ turnFirst u s) :
    fetch s = fetchTx (s.txNextT - s.now).toNat s := by
  have hdue : s.txDue = some (s.txNextT - s.now).toNat := if_neg hp
  simp only [fetch, hdue, txBeforeTurn_of_not_turnFirst h, if_true]

/-- The state in which the TxEngine's step runs: the time base reads `tx_next_t`. -/
def atTxStep (s : State) : State :=
  { s with
    now := s.txNextT, clock := s.clock + (s.txNextT - s.now).toNat
    inputs := waitLess (s.txNextT - s.now).toNat s.inputs }

theorem fetchTx_emitting {s : State} (hp : s.txPhase = .emitting) :
    fetchTx (s.txNextT - s.now).toNat s = .run (.emitEnd s.txNextT) (atTxStep s) := by
  simp only [fetchTx, State.advance, now_at_due, atTxStep, hp, if_true]

theorem fetchTx_backoff {s : State} (hp : s.txPhase = .backoff) :
    fetchTx (s.txNextT - s.now).toNat s = .run (.backoffEnd s.txNextT) (atTxStep s) := by
  simp only [fetchTx, State.advance, now_at_due, atTxStep, hp, reduceCtorEq, if_false]

/-- Settles O7: the TxEngine's step is fetched, and `fetchTx` reads the phase. -/
theorem stepRunsTheTxEngineAtItsTime : Obligations.StepRunsTheTxEngineAtItsTime := by
  rintro s d hc rfl hno
  exact ⟨fun hp => step_of_run hc ((fetch_eq_fetchTx (by simp [hp]) hno).trans (fetchTx_emitting hp)),
    fun hp => step_of_run hc ((fetch_eq_fetchTx (by simp [hp]) hno).trans (fetchTx_backoff hp))⟩

end Sys2Proof.Machine
end

section
/-! What the operations a step can run do, by the state they answer: the frame of EDGE, of TX_SEND, of RX_RECEIVE and of
the TxEngine's steps. -/

namespace Sys2Proof.Machine

/-! ### Time passes -/

theorem SameButTime.ready {s s1 : State} (h : SameButTime s s1) : s1.ready = s.ready := by rw [h]

theorem SameButTime.txPhase {s s1 : State} (h : SameButTime s s1) : s1.txPhase = s.txPhase := by rw [h]

theorem SameButTime.txBusy {s s1 : State} (h : SameButTime s s1) : s1.txBusy = s.txBusy := by rw [h]

theorem SameButTime.txNextT {s s1 : State} (h : SameButTime s s1) : s1.txNextT = s.txNextT := by rw [h]

theorem SameButTime.outTrace {s s1 : State} (h : SameButTime s s1) : s1.outTrace = s.outTrace := by rw [h]

/-! ### EDGE -/

/-- An edge the decoder listens to changes the decoder and what a symbol or an abort changes. -/
theorem decodeEdge_only {t : Time} {s s' : State} (h : decodeEdge t s = .ok s') :
    ∃ l c, OnlyReceiver { s with decLast := l, decCount := c } s' := by
  unfold decodeEdge at h
  split at h
  · cases h; exact ⟨_, _, .refl _⟩
  · dsimp only at h
    split at h
    · cases h; exact ⟨s.decLast, s.decCount, .refl s⟩
    · split at h
      · cases h; exact ⟨_, _, .refl _⟩
      · exact ⟨_, _, closeWindow_only h⟩

/-- An edge under the receive mask or with a full slot changes nothing (R184, R186); any other goes to the decoder. -/
theorem edge_ok {t : Time} {s s' : State} (h : edge t s = .ok s') :
    s' = s ∨ s.ready = false ∧ ∃ l c, OnlyReceiver { s with decLast := l, decCount := c } s' := by
  unfold edge at h
  split at h
  · cases h; exact .inl rfl
  · split at h
    · cases h; exact .inl rfl
    · rename_i hr
      exact .inr ⟨by simpa using hr, decodeEdge_only h⟩

theorem edge_only {t : Time} {s s' : State} (h : edge t s = .ok s') :
    ∃ l c, OnlyReceiver { s with decLast := l, decCount := c } s' := by
  rcases edge_ok h with rfl | ⟨-, hdec⟩
  · exact ⟨s'.decLast, s'.decCount, .refl s'⟩
  · exact hdec

/-! ### EMIT_START and TX_SEND -/

@[simp] theorem disarmed_ready (s : State) : (disarmed s).ready = s.ready := by rw [← rxDisarm_eq, rxDisarm_ready]

@[simp] theorem disarmed_txBusy (s : State) : (disarmed s).txBusy = s.txBusy := by rw [← rxDisarm_eq, rxDisarm_txBusy]

@[simp] theorem disarmed_now (s : State) : (disarmed s).now = s.now := by rw [← rxDisarm_eq, rxDisarm_now]

@[simp] theorem disarmed_clock (s : State) : (disarmed s).clock = s.clock := by rw [← rxDisarm_eq, rxDisarm_clock]

/-- An accepted TX_SEND emits from the state in which its frame is latched. -/
theorem sendFrame_ok {data : List Byte} {t : Time} {s s' : State} (h : sendFrame data t s = .ok s') :
    ∃ frame, s' = emitting frame t (latched data s) := by
  unfold sendFrame at h
  split at h
  · cases h
  · rename_i s1 hw
    obtain ⟨rfl, -⟩ := writeBytes_ok hw
    obtain ⟨frame, -, -, -, rfl⟩ := emitStart_ok h
    exact ⟨frame, rfl⟩

/-- TX_SEND records a host-contract error, or starts an emission of the latched frame from an idle transmitter. -/
theorem txSend_ok {data : List Byte} {t : Time} {s s' : State} (h : txSend data t s = .ok s') :
    (∃ r, s' = s.recordContract r) ∨ s.txBusy = false ∧ ∃ frame, s' = emitting frame t (latched data s) := by
  unfold txSend at h
  split at h
  · cases h; exact .inl ⟨_, rfl⟩
  · rename_i hb
    split at h
    · cases h; exact .inl ⟨_, rfl⟩
    · exact .inr ⟨by simpa using hb, sendFrame_ok h⟩

/-! ### RX_RECEIVE -/

/-- RX_RECEIVE responds, and re-arms the receiver when the slot was full (R215). -/
theorem rxReceive_ok {s s' : State} (h : rxReceive s = .ok s') :
    (s.ready = true ∧ ∃ bytes, s' = rearm (s.respond (s.slotLen :: bytes))) ∨
      (s.ready = false ∧ s' = s.respond [0x00]) := by
  unfold rxReceive at h
  split at h
  · rename_i hr
    split at h
    · cases h
    · cases h; exact .inl ⟨hr, _, rfl⟩
  · rename_i hr
    cases h; exact .inr ⟨by simpa using hr, rfl⟩

/-! ### The TxEngine's steps -/

theorem execEmitEnd_enabled {s : State} {t : Time} (hp : s.txPhase = .emitting) (ht : t = s.txNextT) :
    execEmitEnd t s = .next (emitEnd t s) := if_pos ⟨hp, ht⟩

theorem execBackoffEnd_enabled {s : State} {t : Time} (hp : s.txPhase = .backoff) (ht : t = s.txNextT) :
    execBackoffEnd t s = toOutcome (emitStart t s) := if_pos ⟨hp, ht⟩

@[simp] theorem emitEnd_ready (t : Time) (s : State) : (emitEnd t s).ready = s.ready := by
  unfold emitEnd; split <;> rfl

@[simp] theorem emitEnd_clock (t : Time) (s : State) : (emitEnd t s).clock = s.clock := by
  unfold emitEnd; split <;> rfl

@[simp] theorem emitEnd_outTrace (t : Time) (s : State) : (emitEnd t s).outTrace = s.outTrace := by
  unfold emitEnd; split <;> rfl

theorem emitEnd_txPhase_ne_emitting (t : Time) (s : State) : (emitEnd t s).txPhase ≠ .emitting := by
  unfold emitEnd; split <;> simp

theorem emitEnd_txBusy_of_idle {t : Time} {s : State} (h : s.txBusy = false) : (emitEnd t s).txBusy = false := by
  unfold emitEnd; split
  · exact h
  · rfl

/-- The fetched end of an emission is enabled. -/
theorem SameButTime.execEmitEnd_eq {s s1 : State} (hs : SameButTime s s1) (hp : s.txPhase = .emitting)
    (ht : s1.now = s.txNextT) : exec (.emitEnd s1.now) s1 = .next (emitEnd s1.now s1) :=
  execEmitEnd_enabled (hs.txPhase.trans hp) (ht.trans hs.txNextT.symm)

/-- The fetched end of a backoff is enabled. -/
theorem SameButTime.execBackoffEnd_eq {s s1 : State} (hs : SameButTime s s1) (hp : s.txPhase = .backoff)
    (ht : s1.now = s.txNextT) : exec (.backoffEnd s1.now) s1 = toOutcome (emitStart s1.now s1) :=
  execBackoffEnd_enabled (hs.txPhase.trans hp) (ht.trans hs.txNextT.symm)

end Sys2Proof.Machine
end

section
/-! The block's invariant holds after reset and is kept by every step (spec/10_state.md R34 to R48). -/

namespace Sys2Proof.Machine

theorem toOutcome_inv {r : Except Fault State} (h : ∃ s', r = .ok s' ∧ Inv s') :
    ∃ s', toOutcome r = .next s' ∧ Inv s' :=
  h.imp fun _ hs => ⟨toOutcome_eq_next.2 hs.1, hs.2⟩

/-- From the invariant every operation that comes next completes, and keeps it. -/
theorem NextOp.exec_inv {s s1 : State} {i : Instr} (hn : NextOp s i s1) (h : Inv s1) :
    ∃ s', exec i s1 = .next s' ∧ Inv s' := by
  cases hn with
  | edge => exact toOutcome_inv (edge_inv h s1.now)
  | command _ _ _ hcmd =>
    rcases hcmd with rfl | ⟨data, rfl⟩ | rfl | rfl | ⟨op, rfl⟩
    · exact ⟨s1, rfl, h⟩
    · exact toOutcome_inv (txSend_inv h data s1.now)
    · exact ⟨_, rfl, respond_inv h _⟩
    · exact toOutcome_inv (rxReceive_inv h)
    · exact ⟨_, rfl, record_inv h _⟩
  | reset => exact ⟨_, rfl, { resetBlock_inv h.config s1.drawN with }⟩
  | emitEnd _ hs hp ht => exact ⟨_, hs.execEmitEnd_eq hp ht, emitEnd_inv h (hs.txPhase.trans hp) s1.now⟩
  | backoffEnd _ hs hp ht =>
    have hp1 : s1.txPhase ≠ .off := by simp [hs.txPhase, hp]
    obtain ⟨hmin, hmax, hcov⟩ := h.sending hp1
    rw [hs.execBackoffEnd_eq hp ht]
    exact toOutcome_inv (emitStart_inv h (h.busyPhase.2 hp1) hmin hmax hcov s1.now)

/-- From the invariant every step is taken, and keeps it. -/
theorem step_inv {s : State} (h : Inv s) : ∃ s', step s = .next s' ∧ Inv s' := by
  rcases step_cases h.config with ⟨i, s1, hn, hrun⟩ | ⟨s1, hsame, hidle⟩
  · rw [hrun]; exact hn.exec_inv (hn.same.inv h)
  · exact ⟨s1, hidle, hsame.inv h⟩

/-- Settles O11: the next operation runs in a state that differs in time only, and keeps the invariant. -/
theorem stepKeepsTheInvariant : Obligations.StepKeepsTheInvariant := by
  intro s s' h hstep
  obtain ⟨s'', hnext, hinv⟩ := step_inv h
  rw [hstep] at hnext
  cases hnext
  exact hinv

theorem reset_inv : Inv State.reset where
  config := by decide
  txBufOk := arrayOk_unspecified _ 2
  rxAccOk := arrayOk_unspecified _ 0
  slotOk := arrayOk_unspecified _ 1
  window := by decide
  idle _ := ⟨rfl, rfl⟩
  syncing := by decide
  searching _ := ⟨rfl, rfl, rfl, rfl⟩
  index := Nat.zero_le _
  reading := nofun
  readyAccepted := by decide
  slotEmpty _ := rfl
  slotFull := nofun
  busyPhase := by decide
  sending hp := absurd rfl hp
  left := Nat.zero_le _

theorem reset_lineInv : LineInv State.reset where
  inv := reset_inv
  fits := by decide
  low := rfl
  past _ := by simp [State.reset]
  coming := nofun

/-- Settles O10: every element has the value R56 gives it, and nothing has been emitted. -/
theorem resetStateKeepsTheInvariants : Obligations.ResetStateKeepsTheInvariants := ⟨reset_inv, reset_lineInv⟩

end Sys2Proof.Machine
end

section
/-! The output line: low for `QUIET_US` before the end of each emission, and outside emissions (spec/10_state.md R44,
spec/40_symbol_codec.md R117, spec/41_frame_transmitter.md R150, spec/70_reset_and_hazards.md R260). -/

namespace Sys2Proof.Machine

/-! ### What leaves the line alone -/

/-- The two states agree in every element that the output line's invariant reads beside the block's. -/
structure SameLine (s s' : State) : Prop where
  cfg : s'.cfg = s.cfg
  txPhase : s'.txPhase = s.txPhase
  txNextT : s'.txNextT = s.txNextT
  now : s'.now = s.now
  clock : s'.clock = s.clock
  outTrace : s'.outTrace = s.outTrace

theorem SameLine.lineInv {s s' : State} (hl : SameLine s s') (h : LineInv s) (hinv : Inv s') : LineInv s' where
  inv := hinv
  fits := by rw [hl.cfg]; exact h.fits
  low := by rw [hl.outTrace]; exact h.low
  past := by rw [hl.txPhase, hl.outTrace, hl.clock]; exact h.past
  coming := by rw [hl.txPhase, hl.outTrace, hl.cfg, hl.clock, hl.txNextT, hl.now]; exact h.coming

theorem edge_sameLine {t : Time} {s s' : State} (h : edge t s = .ok s') : SameLine s s' := by
  obtain ⟨l, c, ho⟩ := edge_only h
  exact ⟨ho.cfg, ho.txPhase, ho.txNextT, ho.now, ho.clock, ho.outTrace⟩

theorem record_lineInv {s : State} (h : LineInv s) (r : ContractRecord) : LineInv (s.recordContract r) :=
  ⟨record_inv h.inv r, h.fits, h.low, h.past, h.coming⟩

theorem respond_lineInv {s : State} (h : LineInv s) (b : List Byte) : LineInv (s.respond b) :=
  ⟨respond_inv h.inv b, h.fits, h.low, h.past, h.coming⟩

theorem rxReceive_sameLine {s s' : State} (h : rxReceive s = .ok s') : SameLine s s' := by
  rcases rxReceive_ok h with ⟨-, bytes, rfl⟩ | ⟨-, rfl⟩ <;> exact ⟨rfl, rfl, rfl, rfl, rfl, rfl⟩

/-! ### Time passes -/

theorem fetch_state_same (s : State) : SameButTime s (fetch s).state := by
  rcases fetch_cases s with ⟨i, s1, hf, hn⟩ | ⟨s1, hf, hs⟩
  · rw [hf]; exact hn.same
  · rw [hf]; exact hs

/-- Time passes up to the next operation and not past the TxEngine's instant, so the line's invariant stays. -/
theorem fetch_lineInv {s : State} (h : LineInv s) : LineInv (fetch s).state := by
  have hs := fetch_state_same s
  obtain ⟨hclock, hdue⟩ := fetch_time s
  exact
    { inv := hs.inv h.inv
      fits := by rw [hs.cfg]; exact h.fits
      low := by rw [hs.outTrace]; exact h.low
      past := by
        rw [hs.txPhase, hs.outTrace]
        exact fun hp e he => (h.past hp e he).trans hclock
      coming := by
        rw [hs.txPhase, hs.outTrace, hs.cfg, hs.txNextT]
        intro hp e he
        rw [hdue (by simp [hp])]
        exact h.coming hp e he }

/-! ### Emissions begin and end -/

theorem finalLevel_append_low {w v : List Transition} (h : ∀ l, v.foldl (fun _ e => e.level) l = false) :
    finalLevel (w ++ v) = false := by
  rw [finalLevel, List.foldl_append]; exact h _

/-- An emission started now, after everything before it has been played, ends low and `QUIET_US` before its end step:
its duration is below the time base's wrap, so the wrapped `tx_next_t` is its real end (log 8). -/
theorem emitting_lineInv {s : State} {frame : List Byte} (hinv : Inv (emitting frame s.now s))
    (hfits : longestEmissionUs s.cfg < 2 ^ 32) (hpast : ∀ e ∈ s.outTrace, e.time ≤ s.clock)
    (hlen : frame.length ≤ txMax s.cfg) : LineInv (emitting frame s.now s) := by
  have hcfg : (emitting frame s.now s).cfg = s.cfg := disarmed_cfg s
  obtain ⟨hmost, hleast⟩ := emission_le s.cfg frame hlen
  have hinstant : s.instant s.now = s.clock := by simp [State.instant]
  refine ⟨hinv, by rwa [hcfg], finalLevel_append_low (play_level _ _), fun hp => absurd rfl hp, fun _ e he => ?_⟩
  have hclock : (emitting frame s.now s).clock = s.clock := disarmed_clock s
  have hend : ((emitting frame s.now s).txNextT - (emitting frame s.now s).now).toNat =
      emissionDuration s.cfg.pulseUs (emissionBytes frame) := by
    have hnow : (emitting frame s.now s).now = s.now := disarmed_now s
    rw [hnow, emitting, BitVec.add_comm, BitVec.add_sub_cancel, BitVec.toNat_ofNat]
    exact Nat.mod_eq_of_lt (by omega)
  rw [hcfg, hclock, hend, quietUs]
  rcases List.mem_append.1 he with hold | hnew
  · have := hpast e hold
    omega
  · have := (play_mem _ hnew).2
    rw [hinstant] at this
    rw [duration_eq]
    omega

/-- At the end of an emission all of it has been played. -/
theorem emitEnd_lineInv {s : State} (h : LineInv s) (hp : s.txPhase = .emitting) (ht : s.now = s.txNextT) :
    LineInv (emitEnd s.now s) where
  inv := emitEnd_inv h.inv hp s.now
  fits := by rw [emitEnd_cfg]; exact h.fits
  low := by rw [emitEnd_outTrace]; exact h.low
  past _ := by
    rw [emitEnd_outTrace, emitEnd_clock]
    intro e he
    have := h.coming hp e he
    rw [ht, BitVec.sub_self] at this
    exact (Nat.le_add_right _ _).trans this
  coming hp' := absurd hp' (emitEnd_txPhase_ne_emitting s.now s)

theorem txSend_lineInv {data : List Byte} {s s' : State} (h : LineInv s) (hs : txSend data s.now s = .ok s')
    (hinv : Inv s') : LineInv s' := by
  obtain ⟨-, -, hmp, -⟩ := (configValid_iff _).1 h.inv.config
  rw [txSend_eq hmp] at hs
  split at hs
  · cases hs; exact record_lineInv h _
  · rename_i hb
    split at hs
    · cases hs; exact record_lineInv h _
    · rename_i hlen
      cases hs
      have hoff : s.txPhase = .off := by
        by_contra hne
        exact hb (h.inv.busyPhase.2 hne)
      exact emitting_lineInv (s := latched data s) hinv h.fits (h.past (by simp [hoff]))
        (Nat.le_of_not_lt (not_or.1 hlen).2)

theorem emitStart_lineInv {s s' : State} (h : LineInv s) (hp : s.txPhase = .backoff)
    (hs : emitStart s.now s = .ok s') (hinv : Inv s') : LineInv s' := by
  obtain ⟨frame, hlen, -, -, rfl⟩ := emitStart_ok hs
  obtain ⟨-, hmax, -⟩ := h.inv.sending (by simp [hp])
  exact emitting_lineInv hinv h.fits (h.past (by simp [hp])) (hlen ▸ hmax)

/-! ### RESET -/

theorem cutTrace_past {w : List Transition} {t : Nat} {e : Transition} (he : e ∈ cutTrace w t) : e.time ≤ t := by
  unfold cutTrace at he
  dsimp only at he
  split at he
  · rcases List.mem_append.1 he with he | he
    · exact of_decide_eq_true (List.mem_filter.1 he).2
    · rw [List.mem_singleton.1 he]
  · exact of_decide_eq_true (List.mem_filter.1 he).2

/-- The cut line ends low: a high line falls, a low one was low at the last transition kept. -/
theorem cutTrace_low (w : List Transition) (t : Nat) : finalLevel (cutTrace w t) = false := by
  unfold cutTrace
  dsimp only
  split
  · exact finalLevel_append_low fun _ => rfl
  · rename_i hlow
    rw [← levelAt_filter]
    simpa using hlow

theorem execReset_lineInv {s s' : State} (h : LineInv s) (hs : execReset s = .next s') (hinv : Inv s') : LineInv s' := by
  cases hs
  exact ⟨hinv, h.fits, cutTrace_low _ _, fun _ _ he => cutTrace_past he, nofun⟩

/-! ### The statements -/

/-- Every operation a step can run keeps the output line's invariant. -/
theorem NextOp.exec_lineInv {s s1 s' : State} {i : Instr} (hn : NextOp s i s1) (h : LineInv s1)
    (hs : exec i s1 = .next s') : LineInv s' := by
  obtain ⟨s'', hnext, hinv⟩ := hn.exec_inv h.inv
  rw [hs] at hnext
  cases hnext
  cases hn with
  | edge => exact (edge_sameLine (toOutcome_eq_next.1 hs)).lineInv h hinv
  | command _ _ _ hcmd =>
    rcases hcmd with rfl | ⟨data, rfl⟩ | rfl | rfl | ⟨op, rfl⟩
    · cases hs; exact h
    · exact txSend_lineInv h (toOutcome_eq_next.1 hs) hinv
    · cases hs; exact respond_lineInv h _
    · exact (rxReceive_sameLine (toOutcome_eq_next.1 hs)).lineInv h hinv
    · cases hs; exact record_lineInv h _
  | reset => exact execReset_lineInv h hs hinv
  | emitEnd _ hsame hp ht =>
    rw [hsame.execEmitEnd_eq hp ht] at hs
    cases hs
    exact emitEnd_lineInv h (hsame.txPhase.trans hp) (ht.trans hsame.txNextT.symm)
  | backoffEnd _ hsame hp ht =>
    rw [hsame.execBackoffEnd_eq hp ht] at hs
    exact emitStart_lineInv h (hsame.txPhase.trans hp) (toOutcome_eq_next.1 hs) hinv

/-- Settles O13: time passes up to the next operation, which keeps the line's invariant. -/
theorem stepKeepsTheOutputLineInvariant : Obligations.StepKeepsTheOutputLineInvariant := by
  intro s s' h hstep
  have hl := fetch_lineInv h
  cases hf : fetch s with
  | run i s1 =>
    rw [step_of_run h.inv.config hf] at hstep
    rw [hf] at hl
    exact (fetch_next hf).exec_lineInv hl hstep
  | idle s1 =>
    rw [step_of_idle h.inv.config hf] at hstep
    rw [hf] at hl
    cases hstep
    exact hl

/-- Settles O14: outside emissions every transition is past, so the level is the one the trace ends at. -/
theorem outputLineIsLowOutsideEmissions : Obligations.OutputLineIsLowOutsideEmissions := by
  intro s h hp
  have hall : s.outTrace.filter (·.time ≤ s.clock) = s.outTrace :=
    List.filter_eq_self.2 fun e he => decide_eq_true (h.past hp e he)
  rw [State.txOut, levelAt_filter, hall]
  exact h.low

end Sys2Proof.Machine
end

section
/-! The flags: what raises `tx_busy` and what takes `ready` away (spec/10_state.md R42, R46). -/

namespace Sys2Proof.Machine

/-- Only RX_RECEIVE and RESET take `ready` away. -/
theorem NextOp.exec_ready {s s1 s' : State} {i : Instr} (hn : NextOp s i s1) (h : exec i s1 = .next s')
    (hr : s1.ready = true) : s'.ready = true ∨ i = .rxReceive ∨ i = .reset := by
  cases hn with
  | edge =>
    rcases edge_ok (toOutcome_eq_next.1 h) with rfl | ⟨hempty, -⟩
    · exact .inl hr
    · rw [hr] at hempty; cases hempty
  | command _ _ _ hcmd =>
    rcases hcmd with rfl | ⟨data, rfl⟩ | rfl | rfl | ⟨op, rfl⟩
    · cases h; exact .inl hr
    · rcases txSend_ok (toOutcome_eq_next.1 h) with ⟨r, rfl⟩ | ⟨-, frame, rfl⟩
      · exact .inl hr
      · exact .inl ((disarmed_ready _).trans hr)
    · cases h; exact .inl hr
    · exact .inr (.inl rfl)
    · cases h; exact .inl hr
  | reset => exact .inr (.inr rfl)
  | emitEnd _ hs hp ht =>
    rw [hs.execEmitEnd_eq hp ht] at h
    cases h
    exact .inl ((emitEnd_ready _ _).trans hr)
  | backoffEnd _ hs hp ht =>
    rw [hs.execBackoffEnd_eq hp ht] at h
    obtain ⟨frame, -, -, -, rfl⟩ := emitStart_ok (toOutcome_eq_next.1 h)
    exact .inl ((disarmed_ready _).trans hr)

/-- Only TX_SEND raises `tx_busy`. -/
theorem NextOp.exec_txBusy {s s1 s' : State} {i : Instr} (hn : NextOp s i s1) (h : exec i s1 = .next s')
    (hb : s1.txBusy = false) : s'.txBusy = false ∨ ∃ data, i = .txSend data := by
  cases hn with
  | edge =>
    obtain ⟨l, c, honly⟩ := edge_only (toOutcome_eq_next.1 h)
    exact .inl (honly.txBusy.trans hb)
  | command _ _ _ hcmd =>
    rcases hcmd with rfl | ⟨data, rfl⟩ | rfl | rfl | ⟨op, rfl⟩
    · cases h; exact .inl hb
    · exact .inr ⟨data, rfl⟩
    · cases h; exact .inl hb
    · rcases rxReceive_ok (toOutcome_eq_next.1 h) with ⟨-, bytes, rfl⟩ | ⟨-, rfl⟩ <;> exact .inl hb
    · cases h; exact .inl hb
  | reset => cases h; exact .inl rfl
  | emitEnd _ hs hp ht =>
    rw [hs.execEmitEnd_eq hp ht] at h
    cases h
    exact .inl (emitEnd_txBusy_of_idle hb)
  | backoffEnd _ hs hp ht =>
    rw [hs.execBackoffEnd_eq hp ht] at h
    obtain ⟨frame, -, -, -, rfl⟩ := emitStart_ok (toOutcome_eq_next.1 h)
    exact .inl ((disarmed_txBusy _).trans hb)

/-- Settles O17: time leaves the flags, and one lemma a flag says which operation changes it. -/
theorem flagsChangeOnlyAtTheirOperations : Obligations.FlagsChangeOnlyAtTheirOperations := by
  intro s s1 s' i hf h
  have hn := fetch_next hf
  exact ⟨fun hr => hn.exec_ready h (hn.same.ready.trans hr), fun hb => hn.exec_txBusy h (hn.same.txBusy.trans hb)⟩

end Sys2Proof.Machine
end

section
/-! The array primitives (spec/20_memory.md R71), and the two hand-offs of the arrays: the receiver's slot (R81) and the
latched frame of the transmitter (R82, spec/10_state.md R47). -/

namespace Sys2Proof.Machine

/-! ### One byte moves, and a bad index faults -/

theorem bufSize_eq (c : Config) : bufSize c = c.maxPayload + 4 := rfl

theorem arrayRead_fault {a : ArrayName} {s : State} {i : Nat} (hi : bufSize s.cfg ≤ i) :
    arrayRead a s i = .error (.arrayIndex a i) := if_neg (Nat.not_lt.2 hi)

theorem arrayWrite_fault {a : ArrayName} {s : State} {i : Nat} (hi : bufSize s.cfg ≤ i) (v : Byte) :
    arrayWrite a s i v = .error (.arrayIndex a i) := if_neg (Nat.not_lt.2 hi)

/-- What a write stored is read back. -/
theorem arrayRead_write_same {a : ArrayName} {s : State} {i : Nat} (hi : i < bufSize s.cfg) (v : Byte) :
    arrayRead a (s.withArray a ((s.array a).write i v)) i = .ok v := by
  rw [arrayRead_eq (by rwa [State.withArray_cfg]), State.array_withArray_same, Memory.read_write_same]

/-- Settles O58: the array after the write is `Memory.write`; the two faults are the failed bound. -/
theorem arrayPrimitivesMoveOneByte : Obligations.ArrayPrimitivesMoveOneByte := by
  intro a s i v
  rw [← bufSize_eq]
  refine ⟨fun hi => ⟨(s.array a).write i v, arrayWrite_eq hi v, Memory.read_write_same _ i v, ?_, ?_⟩,
    fun hi => arrayRead_eq hi, fun hi => ⟨arrayWrite_fault hi v, arrayRead_fault hi⟩⟩
  · exact fun j hj => Memory.read_write_other _ hj v
  · exact arrayRead_write_same hi v

/-! ### The receive hand-off -/

/-- SLOT and its length are the same. -/
structure SameSlot (s s' : State) : Prop where
  slot : s'.slot = s.slot
  slotLen : s'.slotLen = s.slotLen

/-- What the receiver may do to the slot: leave it, or fill it and raise `ready`. -/
def SlotHandedOff (s s' : State) : Prop := SameSlot s s' ∨ s'.ready = true

theorem SameSlot.refl (s : State) : SameSlot s s := ⟨rfl, rfl⟩

theorem SameSlot.handedOff {s t u : State} (h : SameSlot s t) (k : SlotHandedOff t u) : SlotHandedOff s u :=
  k.imp_left fun k => ⟨k.slot.trans h.slot, k.slotLen.trans h.slotLen⟩

theorem rxAbort_sameSlot (r : AbortReason) (s : State) : SameSlot s (rxAbort r s) := ⟨rfl, rfl⟩

theorem syncSymbol_sameSlot (v : Sym) (s : State) : SameSlot s (syncSymbol v s) := by
  unfold syncSymbol; dsimp only; split <;> exact ⟨rfl, rfl⟩

theorem lengthCheck_sameSlot (s : State) : SameSlot s (lengthCheck s) := by
  unfold lengthCheck
  split
  · split
    · exact ⟨rfl, rfl⟩
    · exact rxAbort_sameSlot _ s
  · exact rxAbort_sameSlot _ s

/-- The end of a body fills the slot and raises `ready`, or discards the frame. -/
theorem complete_handedOff {s s' : State} (h : complete s = .ok s') : SlotHandedOff s s' := by
  unfold complete at h
  split at h
  · obtain ⟨bytes, -, -, -, rfl⟩ := completeAccept_ok h
    exact .inr rfl
  · cases h; exact .inl (rxAbort_sameSlot _ s)

theorem bodyByte_handedOff {s s' : State} (h : bodyByte s = .ok s') : SlotHandedOff s s' := by
  have hstored : SameSlot s (bodyStored s) := ⟨rfl, rfl⟩
  rw [bodyByte_eq (bodyByte_ok h)] at h
  split at h
  · exact hstored.handedOff (complete_handedOff h)
  · cases h; exact .inl hstored

theorem byteSymbol_handedOff {v : Sym} {s s' : State} (h : byteSymbol v s = .ok s') : SlotHandedOff s s' := by
  have hstored : SameSlot s (copyStored v s) := ⟨rfl, rfl⟩
  rw [byteSymbol_eq] at h
  split at h
  · cases h; exact .inl ⟨rfl, rfl⟩
  · split at h
    · cases h; exact .inl hstored
    · split at h
      · cases h; exact hstored.handedOff (.inl (lengthCheck_sameSlot _))
      · exact hstored.handedOff (bodyByte_handedOff h)

theorem rxSymbol_handedOff {v : Sym} {s s' : State} (h : rxSymbol v s = .ok s') : SlotHandedOff s s' := by
  unfold rxSymbol at h
  split at h
  · cases h; exact .inl ⟨rfl, rfl⟩
  · cases h; exact .inl (syncSymbol_sameSlot v s)
  · exact byteSymbol_handedOff h
  · exact byteSymbol_handedOff h
  · cases h

theorem closeWindow_handedOff {c : Nat} {dt : Time} {s s' : State} (h : closeWindow c dt s = .ok s') :
    SlotHandedOff s s' := by
  unfold closeWindow at h
  split at h
  · cases h; exact .inl (rxAbort_sameSlot _ s)
  · split at h
    · cases h; exact .inl (rxAbort_sameSlot _ s)
    · exact rxSymbol_handedOff h

theorem decodeEdge_handedOff {t : Time} {s s' : State} (h : decodeEdge t s = .ok s') : SlotHandedOff s s' := by
  unfold decodeEdge at h
  split at h
  · cases h; exact .inl ⟨rfl, rfl⟩
  · dsimp only at h
    split at h
    · cases h; exact .inl (.refl s)
    · split at h
      · cases h; exact .inl ⟨rfl, rfl⟩
      · have hopened : SameSlot s { s with decLast := some t, decCount := 1 } := ⟨rfl, rfl⟩
        exact hopened.handedOff (closeWindow_handedOff h)

/-- An edge leaves the state, or finds the slot empty and may fill it (R184). -/
theorem edge_handedOff {t : Time} {s s' : State} (h : edge t s = .ok s') :
    s' = s ∨ s.ready = false ∧ SlotHandedOff s s' := by
  unfold edge at h
  split at h
  · cases h; exact .inl rfl
  · split at h
    · cases h; exact .inl rfl
    · rename_i hr
      exact .inr ⟨by simpa using hr, decodeEdge_handedOff h⟩

/-- The receive side's arrays are the same: the slot, its length and RXACC. -/
structure SameRxArrays (s s' : State) : Prop extends SameSlot s s' where
  rxAcc : s'.rxAcc = s.rxAcc

theorem SameRxArrays.refl (s : State) : SameRxArrays s s := ⟨.refl s, rfl⟩

theorem SameRxArrays.trans {s t u : State} (h : SameRxArrays s t) (k : SameRxArrays t u) : SameRxArrays s u :=
  ⟨⟨k.slot.trans h.slot, k.slotLen.trans h.slotLen⟩, k.rxAcc.trans h.rxAcc⟩

theorem SameButTime.sameRxArrays {s s1 : State} (h : SameButTime s s1) : SameRxArrays s s1 := by
  rw [h]; exact ⟨⟨rfl, rfl⟩, rfl⟩

theorem disarmed_sameRxArrays (s : State) : SameRxArrays s (disarmed s) := by
  rw [← rxDisarm_eq]; exact ⟨⟨rxDisarm_slot s, rxDisarm_slotLen s⟩, rxDisarm_rxAcc s⟩

theorem emitting_sameRxArrays (frame : List Byte) (ts : Time) (s : State) : SameRxArrays s (emitting frame ts s) :=
  (disarmed_sameRxArrays s).trans ⟨⟨rfl, rfl⟩, rfl⟩

theorem emitEnd_sameRxArrays (t : Time) (s : State) : SameRxArrays s (emitEnd t s) := by
  unfold emitEnd; split <;> exact ⟨⟨rfl, rfl⟩, rfl⟩

theorem txSend_sameRxArrays {data : List Byte} {t : Time} {s s' : State} (h : txSend data t s = .ok s') :
    SameRxArrays s s' := by
  rcases txSend_ok h with ⟨r, rfl⟩ | ⟨-, frame, rfl⟩
  · exact ⟨⟨rfl, rfl⟩, rfl⟩
  · have hlatched : SameRxArrays s (latched data s) := ⟨⟨rfl, rfl⟩, rfl⟩
    exact hlatched.trans (emitting_sameRxArrays frame t _)

/-- Outside RX_RECEIVE and RESET the receive side's arrays change at an edge that finds the slot empty only. -/
theorem NextOp.exec_rxArrays {s s1 s' : State} {i : Instr} (hn : NextOp s i s1) (h : exec i s1 = .next s')
    (hreceive : i ≠ .rxReceive) (hreset : i ≠ .reset) :
    SameRxArrays s1 s' ∨ (∃ t, i = .edge t) ∧ s1.ready = false ∧ SlotHandedOff s1 s' := by
  cases hn with
  | edge =>
    rcases edge_handedOff (toOutcome_eq_next.1 h) with rfl | hoff
    · exact .inl (.refl _)
    · exact .inr ⟨⟨_, rfl⟩, hoff⟩
  | command _ _ _ hcmd =>
    rcases hcmd with rfl | ⟨data, rfl⟩ | rfl | rfl | ⟨op, rfl⟩
    · cases h; exact .inl (.refl _)
    · exact .inl (txSend_sameRxArrays (toOutcome_eq_next.1 h))
    · cases h; exact .inl ⟨⟨rfl, rfl⟩, rfl⟩
    · exact absurd rfl hreceive
    · cases h; exact .inl ⟨⟨rfl, rfl⟩, rfl⟩
  | reset => exact absurd rfl hreset
  | emitEnd _ hs hp ht =>
    rw [hs.execEmitEnd_eq hp ht] at h
    cases h
    exact .inl (emitEnd_sameRxArrays _ _)
  | backoffEnd _ hs hp ht =>
    rw [hs.execBackoffEnd_eq hp ht] at h
    obtain ⟨frame, -, -, -, rfl⟩ := emitStart_ok (toOutcome_eq_next.1 h)
    exact .inl (emitting_sameRxArrays _ _ _)

/-- Settles O18: the operation keeps the arrays, or is an edge at an empty slot that hands the slot off. -/
theorem slotChangesOnlyWithReady : Obligations.SlotChangesOnlyWithReady := by
  intro s s1 s' i hf h hreceive hreset
  have hn := fetch_next hf
  have htime : SameRxArrays s s1 := hn.same.sameRxArrays
  rcases hn.exec_rxArrays h hreceive hreset with hsame | ⟨hedge, hempty, hoff⟩
  · have hall := htime.trans hsame
    exact ⟨.inl ⟨hall.slot, hall.slotLen⟩, fun _ => hall.rxAcc⟩
  · have hempty : s.ready = false := hn.same.ready.symm.trans hempty
    refine ⟨?_, fun hr => by simp [hempty] at hr⟩
    rcases htime.toSameSlot.handedOff hoff with hslot | hready
    · exact .inl ⟨hslot.slot, hslot.slotLen⟩
    · exact .inr ⟨hedge, hempty, hready⟩

/-! ### The transmit hand-off -/

/-- The latched frame is the same: TXBUF and its count. -/
structure SameFrame (s s' : State) : Prop where
  txBuf : s'.txBuf = s.txBuf
  txN : s'.txN = s.txN

theorem SameFrame.trans {s t u : State} (h : SameFrame s t) (k : SameFrame t u) : SameFrame s u :=
  ⟨k.txBuf.trans h.txBuf, k.txN.trans h.txN⟩

theorem SameButTime.sameFrame {s s1 : State} (h : SameButTime s s1) : SameFrame s s1 := by
  rw [h]; exact ⟨rfl, rfl⟩

theorem emitting_sameFrame (frame : List Byte) (ts : Time) (s : State) : SameFrame s (emitting frame ts s) := by
  have hdisarmed : SameFrame s (disarmed s) := by
    rw [← rxDisarm_eq]; exact ⟨rxDisarm_txBuf s, rxDisarm_txN s⟩
  exact hdisarmed.trans ⟨rfl, rfl⟩

theorem emitEnd_sameFrame (t : Time) (s : State) : SameFrame s (emitEnd t s) := by
  unfold emitEnd; split <;> exact ⟨rfl, rfl⟩

/-- While a send is in progress every operation but RESET keeps the latched frame: TX_SEND is ignored (R213). -/
theorem NextOp.exec_sameFrame {s s1 s' : State} {i : Instr} (hn : NextOp s i s1) (h : exec i s1 = .next s')
    (hreset : i ≠ .reset) (hb : s1.txBusy = true) : SameFrame s1 s' := by
  cases hn with
  | edge =>
    obtain ⟨l, c, honly⟩ := edge_only (toOutcome_eq_next.1 h)
    exact ⟨honly.txBuf, honly.txN⟩
  | command _ _ _ hcmd =>
    rcases hcmd with rfl | ⟨data, rfl⟩ | rfl | rfl | ⟨op, rfl⟩
    · cases h; exact ⟨rfl, rfl⟩
    · rcases txSend_ok (toOutcome_eq_next.1 h) with ⟨r, rfl⟩ | ⟨hidle, -⟩
      · exact ⟨rfl, rfl⟩
      · rw [hb] at hidle; cases hidle
    · cases h; exact ⟨rfl, rfl⟩
    · rcases rxReceive_ok (toOutcome_eq_next.1 h) with ⟨-, bytes, rfl⟩ | ⟨-, rfl⟩ <;> exact ⟨rfl, rfl⟩
    · cases h; exact ⟨rfl, rfl⟩
  | reset => exact absurd rfl hreset
  | emitEnd _ hs hp ht =>
    rw [hs.execEmitEnd_eq hp ht] at h
    cases h
    exact emitEnd_sameFrame _ _
  | backoffEnd _ hs hp ht =>
    rw [hs.execBackoffEnd_eq hp ht] at h
    obtain ⟨frame, -, -, -, rfl⟩ := emitStart_ok (toOutcome_eq_next.1 h)
    exact emitting_sameFrame _ _ _

/-- Settles O19: time and every operation but RESET keep the latched frame. -/
theorem latchedFrameStaysWhileBusy : Obligations.LatchedFrameStaysWhileBusy := by
  intro s s1 s' i hf h hreset hb
  have hn := fetch_next hf
  have hall := hn.same.sameFrame.trans (hn.exec_sameFrame h hreset (hn.same.txBusy.trans hb))
  exact ⟨hall.txBuf, hall.txN⟩

end Sys2Proof.Machine
end

section
/-! No step reads an unspecified array byte (spec/10_state.md R57): each operation a step can run commutes with a redraw
of the three arrays, because it reads only what `Inv` says has been written, or what it has just written itself. -/

namespace Sys2Proof.Machine

section
variable (a b c : Nat)

/-! ### The elements and the array accesses under a redraw -/

@[simp] theorem redrawn_cfg (s : State) : (redrawn a b c s).cfg = s.cfg := rfl
@[simp] theorem redrawn_decLast (s : State) : (redrawn a b c s).decLast = s.decLast := rfl
@[simp] theorem redrawn_rxState (s : State) : (redrawn a b c s).rxState = s.rxState := rfl
@[simp] theorem redrawn_symN (s : State) : (redrawn a b c s).symN = s.symN := rfl
@[simp] theorem redrawn_copyN (s : State) : (redrawn a b c s).copyN = s.copyN := rfl
@[simp] theorem redrawn_rxLen (s : State) : (redrawn a b c s).rxLen = s.rxLen := rfl
@[simp] theorem redrawn_rxCrc (s : State) : (redrawn a b c s).rxCrc = s.rxCrc := rfl
@[simp] theorem redrawn_rxIdx (s : State) : (redrawn a b c s).rxIdx = s.rxIdx := rfl
@[simp] theorem redrawn_ready (s : State) : (redrawn a b c s).ready = s.ready := rfl
@[simp] theorem redrawn_slotLen (s : State) : (redrawn a b c s).slotLen = s.slotLen := rfl
@[simp] theorem redrawn_txBusy (s : State) : (redrawn a b c s).txBusy = s.txBusy := rfl
@[simp] theorem redrawn_txN (s : State) : (redrawn a b c s).txN = s.txN := rfl
@[simp] theorem redrawn_hostIn (s : State) : (redrawn a b c s).hostIn = s.hostIn := rfl
@[simp] theorem redrawn_inputs (s : State) : (redrawn a b c s).inputs = s.inputs := rfl

/-- A redraw leaves the written cells of each array, with some draw. -/
theorem redrawn_array (s : State) (x : ArrayName) :
    ∃ k, (redrawn a b c s).array x = { s.array x with drawn := k } := by
  cases x
  · exact ⟨c, rfl⟩
  · exact ⟨a, rfl⟩
  · exact ⟨b, rfl⟩

theorem arrayRead_redrawn {x : ArrayName} {s : State} {i : Nat} (hw : (s.array x).written i = true) :
    arrayRead x (redrawn a b c s) i = arrayRead x s i := by
  obtain ⟨k, hk⟩ := redrawn_array a b c s x
  have hread : ((redrawn a b c s).array x).read i = (s.array x).read i := by rw [hk, Memory.read_redrawn hw]
  rw [arrayRead, arrayRead, redrawn_cfg, hread]

/-- A run of reads of written bytes does not depend on the draws. -/
theorem readBytes_redrawn_from {x : ArrayName} {s : State} {i n : Nat}
    (hw : ∀ j, i ≤ j → j < i + n → (s.array x).written j = true) :
    readBytes x (redrawn a b c s) i n = readBytes x s i n := by
  induction n generalizing i with
  | zero => rfl
  | succ n ih =>
    have hfirst : arrayRead x (redrawn a b c s) i = arrayRead x s i :=
      arrayRead_redrawn a b c (hw i (Nat.le_refl i) (by omega))
    rw [readBytes, readBytes, hfirst, ih fun j h1 h2 => hw j (by omega) (by omega)]

theorem readBytes_redrawn {x : ArrayName} {s : State} {n : Nat} (hc : covers (s.array x) n) :
    readBytes x (redrawn a b c s) 0 n = readBytes x s 0 n :=
  readBytes_redrawn_from a b c fun j _ hj => hc j (by omega)

theorem arrayWrite_redrawn (x : ArrayName) (s : State) (i : Nat) (v : Byte) :
    arrayWrite x (redrawn a b c s) i v = (arrayWrite x s i v).map (redrawn a b c) := by
  rw [arrayWrite, arrayWrite, redrawn_cfg]
  split
  · cases x <;> rfl
  · rfl

theorem writeBytes_redrawn (x : ArrayName) (s : State) (i : Nat) (bytes : List Byte) :
    writeBytes x (redrawn a b c s) i bytes = (writeBytes x s i bytes).map (redrawn a b c) := by
  induction bytes generalizing s i with
  | nil => rfl
  | cons v vs ih =>
    rw [writeBytes, writeBytes, arrayWrite_redrawn]
    cases arrayWrite x s i v with
    | error f => rfl
    | ok s1 => exact ih s1 (i + 1)

/-! ### The receiver under a redraw -/

theorem syncSymbol_redrawn (v : Sym) (s : State) :
    syncSymbol v (redrawn a b c s) = redrawn a b c (syncSymbol v s) := by
  simp only [syncSymbol, apply_ite (redrawn a b c)]
  rfl

theorem lengthCheck_redrawn (s : State) : lengthCheck (redrawn a b c s) = redrawn a b c (lengthCheck s) := by
  simp only [lengthCheck, apply_ite (redrawn a b c)]
  rfl

/-- COMPLETE_ACCEPT reads the logical frame, which RXACC holds when the body is complete. -/
theorem completeAccept_redrawn {s : State} (hc : covers s.rxAcc (s.rxLen - 2).toNat) :
    completeAccept (redrawn a b c s) = (completeAccept s).map (redrawn a b c) := by
  rw [completeAccept, completeAccept, redrawn_rxLen, readBytes_redrawn a b c (x := .rxAcc) hc]
  cases readBytes .rxAcc s 0 (s.rxLen - 2).toNat with
  | error f => rfl
  | ok bytes =>
    dsimp only
    rw [writeBytes_redrawn]
    cases writeBytes .slot s 0 bytes <;> rfl

theorem complete_redrawn {s : State} (hc : covers s.rxAcc (s.rxLen - 2).toNat) :
    complete (redrawn a b c s) = (complete s).map (redrawn a b c) := by
  rw [complete, complete, redrawn_rxCrc]
  split
  · exact completeAccept_redrawn a b c hc
  · rfl

theorem bodyStored_redrawn (s : State) : bodyStored (redrawn a b c s) = redrawn a b c (bodyStored s) := by
  by_cases h : s.rxIdx < (s.rxLen - 2).toNat
  · simp only [bodyStored, redrawn, h, if_true]; rfl
  · simp only [bodyStored, redrawn, h, if_false]

/-- In `ReadingBody` the bytes below the next index are in RXACC once the voted byte is stored. -/
theorem covers_bodyStored {s : State} (h : Inv s) (hs : s.rxState = .readingBody) :
    covers (bodyStored s).rxAcc (min (s.rxIdx + 1) (s.rxLen.toNat - 2)) := by
  obtain ⟨hl, -, hc⟩ := h.reading hs
  obtain ⟨hmin, -⟩ := (lengthInRange_iff _ _).1 hl
  simp only [bodyStored, length_sub_two (show 2 ≤ s.rxLen.toNat by omega)]
  split
  · rw [show min s.rxIdx (s.rxLen.toNat - 2) = s.rxIdx by omega] at hc
    exact covers_mono (covers_write_next hc _) (Nat.min_le_left _ _)
  · exact covers_mono hc (by omega)

theorem bodyByte_redrawn {s : State} (h : Inv s) (hs : s.rxState = .readingBody) :
    bodyByte (redrawn a b c s) = (bodyByte s).map (redrawn a b c) := by
  obtain ⟨hl, -, -⟩ := h.reading hs
  obtain ⟨hmin, hmax⟩ := (lengthInRange_iff _ _).1 hl
  have hsub : (s.rxLen - 2).toNat = s.rxLen.toNat - 2 := length_sub_two (by omega)
  have hindex : s.rxIdx < (s.rxLen - 2).toNat → s.rxIdx < bufSize s.cfg := by
    intro hlt
    rw [show bufSize s.cfg = maxFrame s.cfg - 2 from rfl]
    omega
  rw [bodyByte_eq hindex, bodyByte_eq (s := redrawn a b c s) hindex, bodyStored_redrawn, redrawn_rxIdx, redrawn_rxLen]
  split
  · have hcov : covers (bodyStored s).rxAcc (s.rxLen - 2).toNat :=
      covers_mono (covers_bodyStored h hs) (by omega)
    exact complete_redrawn a b c (s := bodyStored s) hcov
  · rfl

theorem byteSymbol_redrawn {s : State} (h : Inv s) (hs : s.rxState = .readingLength ∨ s.rxState = .readingBody)
    (v : Sym) : byteSymbol v (redrawn a b c s) = (byteSymbol v s).map (redrawn a b c) := by
  have hcopy : copyStored v (redrawn a b c s) = redrawn a b c (copyStored v s) := rfl
  rw [byteSymbol_eq, byteSymbol_eq, redrawn_symN, redrawn_copyN, redrawn_rxState, hcopy]
  split
  · rfl
  · split
    · rfl
    · split
      · rw [lengthCheck_redrawn]; rfl
      · exact bodyByte_redrawn a b c (copyStored_inv h hs v) (hs.resolve_left ‹_›)

theorem rxSymbol_redrawn {s : State} (h : Inv s) (v : Sym) :
    rxSymbol v (redrawn a b c s) = (rxSymbol v s).map (redrawn a b c) := by
  rw [rxSymbol, rxSymbol, redrawn_rxState]
  cases hs : s.rxState with
  | idle => rfl
  | syncing => exact congrArg Except.ok (syncSymbol_redrawn a b c v s)
  | readingLength => exact byteSymbol_redrawn a b c h (.inl hs) v
  | readingBody => exact byteSymbol_redrawn a b c h (.inr hs) v
  | accepted => rfl

theorem closeWindow_redrawn {s : State} (h : Inv s) (n : Nat) (dt : Time) :
    closeWindow n dt (redrawn a b c s) = (closeWindow n dt s).map (redrawn a b c) := by
  rw [closeWindow, closeWindow, redrawn_cfg]
  split
  · rfl
  · cases classify n with
    | none => rfl
    | some v => exact rxSymbol_redrawn a b c h v

theorem decodeEdge_redrawn {s : State} (h : Inv s) (t : Time) :
    decodeEdge t (redrawn a b c s) = (decodeEdge t s).map (redrawn a b c) := by
  rw [decodeEdge, decodeEdge, redrawn_decLast, redrawn_cfg]
  cases s.decLast with
  | none => rfl
  | some t0 =>
    dsimp only
    split
    · rfl
    · split
      · rfl
      · exact closeWindow_redrawn a b c (decoder_inv h (some t) 1 (by simp)) _ _

theorem edge_redrawn {s : State} (h : Inv s) (t : Time) :
    edge t (redrawn a b c s) = (edge t s).map (redrawn a b c) := by
  have hmask : (redrawn a b c s).receiveMask = s.receiveMask := rfl
  rw [edge, edge, hmask, redrawn_ready]
  split
  · rfl
  · split
    · rfl
    · exact decodeEdge_redrawn a b c h t

/-! ### The transmitter and the host commands under a redraw -/

theorem rxDisarm_redrawn (s : State) : rxDisarm (redrawn a b c s) = redrawn a b c (rxDisarm s) := by
  simp only [rxDisarm, apply_ite (redrawn a b c)]
  rfl

/-- EMIT_START reads the latched frame. -/
theorem emitStart_redrawn {s : State} (hc : covers s.txBuf s.txN.toNat) (ts : Time) :
    emitStart ts (redrawn a b c s) = (emitStart ts s).map (redrawn a b c) := by
  have hdisarm : rxDisarm { redrawn a b c s with txPhase := .emitting } =
      redrawn a b c (rxDisarm { s with txPhase := .emitting }) :=
    rxDisarm_redrawn a b c { s with txPhase := .emitting }
  have hcov : covers (rxDisarm { s with txPhase := .emitting }).txBuf
      (rxDisarm { s with txPhase := .emitting }).txN.toNat := by
    rwa [rxDisarm_txBuf, rxDisarm_txN]
  simp only [emitStart, hdisarm]
  generalize rxDisarm { s with txPhase := .emitting } = s1 at hcov ⊢
  rw [redrawn_txN, readBytes_redrawn a b c (x := .txBuf) hcov]
  cases readBytes .txBuf s1 0 s1.txN.toNat <;> rfl

/-- An accepted TX_SEND reads back what it has just written. -/
theorem sendFrame_redrawn (data : List Byte) (t : Time) (s : State) :
    sendFrame data t (redrawn a b c s) = (sendFrame data t s).map (redrawn a b c) := by
  rw [sendFrame, sendFrame, writeBytes_redrawn]
  cases hw : writeBytes .txBuf s 0 data with
  | error f => rfl
  | ok s1 =>
    have hcov : covers s1.txBuf (BitVec.ofNat 8 data.length).toNat := by
      obtain ⟨rfl, -⟩ := writeBytes_ok hw
      exact covers_mono (covers_writeList s.txBuf data) (by rw [BitVec.toNat_ofNat]; exact Nat.mod_le _ _)
    exact emitStart_redrawn a b c (s := { s1 with
      txN := BitVec.ofNat 8 data.length, txLeft := BitVec.ofNat 8 s1.cfg.resendCount, txBusy := true }) hcov t

theorem txSend_redrawn (data : List Byte) (t : Time) (s : State) :
    txSend data t (redrawn a b c s) = (txSend data t s).map (redrawn a b c) := by
  rw [txSend, txSend, redrawn_txBusy, redrawn_cfg]
  split
  · rfl
  · split
    · rfl
    · exact sendFrame_redrawn a b c data t s

/-- RX_RECEIVE reads a full slot, which holds its frame, and gives SLOT a new draw. -/
theorem rxReceive_redrawn {s : State} (h : Inv s) :
    rxReceive (redrawn a b c s) = (rxReceive s).map (redrawn a (if s.ready then s.drawN else b) c) := by
  rw [rxReceive, rxReceive, redrawn_ready]
  split
  case isTrue hr =>
    obtain ⟨-, -, hc⟩ := h.slotFull hr
    rw [redrawn_slotLen, readBytes_redrawn a b c (x := .slot) hc]
    cases readBytes .slot s 0 s.slotLen.toNat <;> rfl
  case isFalse => rfl

theorem emitEnd_redrawn (t : Time) (s : State) :
    emitEnd t (redrawn a b c s) = redrawn a b c (emitEnd t s) := by
  simp only [emitEnd, apply_ite (redrawn a b c)]
  rfl

/-! ### A step under a redraw -/

/-- What comes next, in the state with other draws. -/
def Fetched.redrawn : Fetched → Fetched
  | .run i s => .run i (Machine.redrawn a b c s)
  | .idle s => .idle (Machine.redrawn a b c s)

theorem fetchCommand_redrawn (s : State) :
    fetchCommand (redrawn a b c s) = (fetchCommand s).redrawn a b c := by
  rw [fetchCommand, fetchCommand, redrawn_hostIn]
  cases decodeCommand s.hostIn <;> rfl

theorem fetchTurn_redrawn (s : State) : fetchTurn (redrawn a b c s) = (fetchTurn s).redrawn a b c := by
  rw [fetchTurn, fetchTurn, redrawn_inputs]
  cases s.inputs with
  | nil => rfl
  | cons u us =>
    dsimp only
    cases u.event with
    | edge => rfl
    | host => exact fetchCommand_redrawn a b c ({ s with inputs := us }.advance u.wait)
    | reset => rfl

theorem fetchTx_redrawn (d : Nat) (s : State) : fetchTx d (redrawn a b c s) = (fetchTx d s).redrawn a b c := by
  simp only [fetchTx, apply_ite (Fetched.redrawn a b c)]
  rfl

/-- What comes next does not look at the arrays. -/
theorem fetch_redrawn (s : State) : fetch (redrawn a b c s) = (fetch s).redrawn a b c := by
  have hdue : (redrawn a b c s).txDue = s.txDue := rfl
  rw [fetch, fetch, hdue, redrawn_inputs]
  cases s.txDue with
  | none => exact fetchTurn_redrawn a b c s
  | some d =>
    dsimp only
    split
    · exact fetchTx_redrawn a b c d s
    · exact fetchTurn_redrawn a b c s

theorem toOutcome_map_next {r : Except Fault State} {s : State} (h : toOutcome r = .next s) (f : State → State) :
    toOutcome (r.map f) = .next (f s) := by
  rw [toOutcome_eq_next.1 h]; rfl

/-- Every operation a step can run answers the same state under a redraw, but for the draws. -/
theorem NextOp.exec_redrawn {s s1 s' : State} {i : Instr} (hn : NextOp s i s1) (h : Inv s1)
    (hx : exec i s1 = .next s') :
    ∃ a' b' c', exec i (redrawn a b c s1) = .next (redrawn a' b' c' s') := by
  cases hn with
  | edge => exact ⟨a, b, c, (congrArg toOutcome (edge_redrawn a b c h s1.now)).trans (toOutcome_map_next hx _)⟩
  | command _ _ _ hcmd =>
    rcases hcmd with rfl | ⟨data, rfl⟩ | rfl | rfl | ⟨op, rfl⟩
    · cases hx; exact ⟨a, b, c, rfl⟩
    · exact ⟨a, b, c, (congrArg toOutcome (txSend_redrawn a b c data s1.now s1)).trans (toOutcome_map_next hx _)⟩
    · cases hx; exact ⟨a, b, c, rfl⟩
    · exact ⟨a, _, c, (congrArg toOutcome (rxReceive_redrawn a b c h)).trans (toOutcome_map_next hx _)⟩
    · cases hx; exact ⟨a, b, c, rfl⟩
  | reset => cases hx; exact ⟨s1.drawN, s1.drawN + 1, s1.drawN + 2, rfl⟩
  | emitEnd _ hs hp ht =>
    have hen : exec (.emitEnd s1.now) (redrawn a b c s1) = .next (Machine.emitEnd s1.now (redrawn a b c s1)) :=
      execEmitEnd_enabled (hs.txPhase.trans hp) (ht.trans hs.txNextT.symm)
    rw [hs.execEmitEnd_eq hp ht] at hx
    cases hx
    exact ⟨a, b, c, by rw [hen, emitEnd_redrawn]⟩
  | backoffEnd _ hs hp ht =>
    have hp1 : s1.txPhase = .backoff := hs.txPhase.trans hp
    have hen : exec (.backoffEnd s1.now) (redrawn a b c s1) = toOutcome (emitStart s1.now (redrawn a b c s1)) :=
      execBackoffEnd_enabled hp1 (ht.trans hs.txNextT.symm)
    obtain ⟨-, -, hc⟩ := h.sending (by simp [hp1])
    rw [hs.execBackoffEnd_eq hp ht] at hx
    exact ⟨a, b, c, by rw [hen, emitStart_redrawn a b c hc]; exact toOutcome_map_next hx _⟩

/-- A step from the invariant gives the same state under a redraw, but for the draws. -/
theorem step_redrawn {s s' : State} (h : Inv s) (hstep : step s = .next s') :
    ∃ a' b' c', step (redrawn a b c s) = .next (redrawn a' b' c' s') := by
  have hfetch := fetch_redrawn a b c s
  cases hf : fetch s with
  | run i s1 =>
    have hn := fetch_next hf
    rw [step_of_run h.config hf] at hstep
    rw [hf] at hfetch
    rw [step_of_run (s := redrawn a b c s) h.config hfetch]
    exact hn.exec_redrawn a b c (hn.same.inv h) hstep
  | idle s1 =>
    rw [step_of_idle h.config hf] at hstep
    rw [hf] at hfetch
    cases hstep
    exact ⟨a, b, c, step_of_idle (s := redrawn a b c s) h.config hfetch⟩

end

/-- Settles O12: `step_inv` takes the step, and `step_redrawn` compares it with the one from other free values. -/
theorem invariantStatesAlwaysStep : Obligations.InvariantStatesAlwaysStep := by
  intro s h
  obtain ⟨s', hstep, -⟩ := step_inv h
  exact ⟨s', hstep, fun a b c => step_redrawn a b c h hstep⟩

end Sys2Proof.Machine
end

section
/-! The host command port's decoder and the encoder are inverse (spec/30_encoding.md R90, R93, R97, R98, R101), and a
reserved command is ignored (spec/43_host_interface.md R216). -/

namespace Sys2Proof.Machine

/-! ### What the decoder answers, by the command byte -/

theorem commandByte_cases (op : Byte) : op = 0x00 ∨ op = 0x01 ∨ op = 0x02 ∨ op = 0x03 ∨ 4 ≤ op.toNat := by
  bv_omega

theorem decodeCommand_nop (rest : List Byte) : decodeCommand (0x00 :: rest) = .ok (.nop, rest) := rfl

theorem decodeCommand_send (rest : List Byte) :
    decodeCommand (0x01 :: rest) = (decodeSendOperands rest).map fun p => (.txSend p.1, p.2) := by
  rw [decodeCommand, if_neg (by decide), if_pos rfl]
  cases decodeSendOperands rest <;> rfl

theorem decodeCommand_rxStatus (rest : List Byte) : decodeCommand (0x02 :: rest) = .ok (.rxStatus, rest) := rfl

theorem decodeCommand_rxReceive (rest : List Byte) : decodeCommand (0x03 :: rest) = .ok (.rxReceive, rest) := rfl

theorem decodeCommand_reserved {op : Byte} (h : 4 ≤ op.toNat) (rest : List Byte) :
    decodeCommand (op :: rest) = .ok (.reserved op, rest) := by
  have hne : op ≠ 0x00 ∧ op ≠ 0x01 ∧ op ≠ 0x02 ∧ op ≠ 0x03 := by
    refine ⟨?_, ?_, ?_, ?_⟩ <;> bv_omega
  obtain ⟨h0, h1, h2, h3⟩ := hne
  rw [decodeCommand, if_neg h0, if_neg h1, if_neg h2, if_neg h3]

/-- The operands of a TX_SEND are a count byte and as many data bytes, whatever follows (R93, R96). -/
theorem decodeSendOperands_ok_iff {bytes data rest : List Byte} :
    decodeSendOperands bytes = .ok (data, rest) ↔
      data.length ≤ 255 ∧ BitVec.ofNat 8 data.length :: data ++ rest = bytes := by
  constructor
  · intro h
    cases bytes with
    | nil => cases h
    | cons n tail =>
      rw [decodeSendOperands] at h
      split at h
      · cases h
      · next hn =>
        cases h
        have hlen : (tail.take n.toNat).length = n.toNat := List.length_take_of_le (Nat.not_lt.1 hn)
        refine ⟨by omega, ?_⟩
        rw [hlen, BitVec.ofNat_toNat, BitVec.setWidth_eq, List.cons_append, List.take_append_drop]
  · rintro ⟨h8, rfl⟩
    have hn : (BitVec.ofNat 8 data.length).toNat = data.length := by
      rw [BitVec.toNat_ofNat, Nat.mod_eq_of_lt (by omega)]
    simp [decodeSendOperands, hn]

/-! ### The two directions of the round trip -/

/-- The decoder reads a well-formed command's bytes as that command and leaves what follows. -/
theorem decodeCommand_encode {i : Instr} {cmd : List Byte} (hw : i.wellFormed = true) (h : encode i = .command cmd)
    (rest : List Byte) : decodeCommand (cmd ++ rest) = .ok (i, rest) := by
  cases i with
  | nop => cases h; exact decodeCommand_nop rest
  | txSend data =>
    cases h
    have hd := decodeSendOperands_ok_iff.2 ⟨of_decide_eq_true hw, rfl (a := _ :: data ++ rest)⟩
    rw [List.cons_append, decodeCommand_send, hd]
    rfl
  | rxStatus => cases h; exact decodeCommand_rxStatus rest
  | rxReceive => cases h; exact decodeCommand_rxReceive rest
  | reserved op => cases h; exact decodeCommand_reserved (of_decide_eq_true hw) rest
  | _ => cases h

/-- What the decoder answers is well formed, and the bytes it took are that command's encoding. -/
theorem encode_decodeCommand {bytes rest : List Byte} {i : Instr} (h : decodeCommand bytes = .ok (i, rest)) :
    i.wellFormed = true ∧ ∃ cmd, encode i = .command cmd ∧ cmd ++ rest = bytes := by
  cases bytes with
  | nil => cases h
  | cons op tail =>
    rcases commandByte_cases op with rfl | rfl | rfl | rfl | hop
    · cases h; exact ⟨rfl, _, rfl, rfl⟩
    · rw [decodeCommand_send] at h
      cases hd : decodeSendOperands tail with
      | error e => rw [hd] at h; cases h
      | ok p =>
        rw [hd] at h
        cases h
        obtain ⟨h8, rfl⟩ := decodeSendOperands_ok_iff.1 hd
        exact ⟨decide_eq_true h8, _, rfl, rfl⟩
    · cases h; exact ⟨rfl, _, rfl, rfl⟩
    · cases h; exact ⟨rfl, _, rfl, rfl⟩
    · rw [decodeCommand_reserved hop] at h
      cases h
      exact ⟨decide_eq_true hop, _, rfl, rfl⟩

/-- A symbol's code is the code of that symbol, played from its start time (R90). -/
theorem decodeSymbol_encode {i : Instr} {v : Sym} (h : encode i = .symbol v) : ∃ t0, decodeSymbol t0 v = i := by
  cases i with
  | sym0 t0 | sym1 t0 | sym2 t0 | sym3 t0 => cases h; exact ⟨t0, rfl⟩
  | _ => cases h

/-- The length of a decoded command's bytes (R101). -/
theorem encode_command_length {i : Instr} {cmd : List Byte} (h : encode i = .command cmd) :
    cmd.length = commandLength i := by
  cases i with
  | nop => exact Laws.CommandLength.nop cmd h
  | txSend data => exact Laws.CommandLength.txSend data cmd h
  | rxStatus => exact Laws.CommandLength.rxStatus cmd h
  | rxReceive => exact Laws.CommandLength.rxReceive cmd h
  | reserved op => exact Laws.CommandLength.reserved op cmd h
  | _ => cases h

/-- Settles O1: by the kind of the encoding; what has none is never decoded, because what is decoded has one. -/
theorem decodingInvertsEncoding : Obligations.DecodingInvertsEncoding := by
  intro i hw
  cases h : encode i with
  | command cmd => exact decodeCommand_encode hw h
  | symbol v => exact decodeSymbol_encode h
  | unencoded =>
    intro bytes rest hd
    obtain ⟨-, cmd, hc, -⟩ := encode_decodeCommand hd
    rw [h] at hc
    cases hc

/-- Settles O2: `encode_decodeCommand` and the length of an encoding. -/
theorem decodedCommandsReencode : Obligations.DecodedCommandsReencode := by
  intro bytes i rest h
  obtain ⟨hw, cmd, hc, hbytes⟩ := encode_decodeCommand h
  refine ⟨hw, cmd, hc, hbytes, (encode_command_length hc).trans ?_⟩
  cases i <;> rfl

/-! ### The rows of the opcode table and the reserved bytes -/

/-- One row of the table covers a byte, a reserved one exactly from 0x04 on (checked at all 256 bytes). -/
theorem commandRows_covering (op : Byte) :
    (commandRows.filter fun r => r.covers op).map CommandRow.isReserved = [decide (4 ≤ op.toNat)] := by
  revert op
  decide

theorem decodeCommand_reserved_iff (op : Byte) :
    (∀ rest, decodeCommand (op :: rest) = .ok (.reserved op, rest)) ↔ 4 ≤ op.toNat := by
  refine ⟨fun h => ?_, decodeCommand_reserved⟩
  obtain ⟨hw, -⟩ := encode_decodeCommand (h [])
  exact of_decide_eq_true hw

/-- Settles O4: the covering row is reserved from 0x04 on, as the decoder is. -/
theorem everyByteIsInOneCommandRow : Obligations.EveryByteIsInOneCommandRow := by
  intro op
  obtain ⟨r, hr, hres⟩ := List.map_eq_singleton_iff.1 (commandRows_covering op)
  exact ⟨r, hr, by rw [hres, decide_eq_true_iff, decodeCommand_reserved_iff]⟩

/-- Settles O3: the decoder run on each row. -/
theorem commandBytesOfTheTable : Obligations.CommandBytesOfTheTable := by
  unfold Obligations.CommandBytesOfTheTable
  decide

/-- Settles O57: the reserved branch of the decoder, and RESERVED only records its byte. -/
theorem reservedCommandsAreIgnored : Obligations.ReservedCommandsAreIgnored :=
  fun _ _ h => ⟨decodeCommand_reserved h, rfl⟩

end Sys2Proof.Machine
end

section
/-! The status byte of RX_STATUS (spec/10_state.md R51, spec/43_host_interface.md R214). -/

namespace Sys2Proof.Machine

/-- The flags fill bits 1 and 0 only. -/
theorem flags_fields (r b : Bool) :
    (flagByte r ||| flagByte b <<< 1).getLsbD 0 = r ∧ (flagByte r ||| flagByte b <<< 1).getLsbD 1 = b ∧
      (flagByte r ||| flagByte b <<< 1).extractLsb' 2 3 = 0#3 ∧
      (flagByte r ||| flagByte b <<< 1).extractLsb' 5 3 = 0#3 := by
  revert r b
  decide

/-- The receiver's code fills bits 4 to 2 only. -/
theorem rxCode_fields (x : RxState) :
    (rxCode x <<< 2).getLsbD 0 = false ∧ (rxCode x <<< 2).getLsbD 1 = false ∧
      (rxCode x <<< 2).extractLsb' 2 3 = (rxCode x).setWidth 3 ∧ (rxCode x <<< 2).extractLsb' 5 3 = 0#3 := by
  cases x <;> decide

/-- Settles O55: the flags and the receiver's code do not overlap in the status byte. -/
theorem rxStatusRespondsWithTheStatusByte : Obligations.RxStatusRespondsWithTheStatusByte := by
  intro s
  obtain ⟨hready, hbusy, hflags, hflags'⟩ := flags_fields s.ready s.txBusy
  obtain ⟨hrx0, hrx1, hrx, hrx'⟩ := rxCode_fields s.rxState
  refine ⟨s.status, rfl, ?_, ?_, ?_, ?_⟩
  · rw [State.status, BitVec.getLsbD_or, hready, hrx0, Bool.or_false]
  · rw [State.status, BitVec.getLsbD_or, hbusy, hrx1, Bool.or_false]
  · rw [State.status, BitVec.extractLsb'_or, hflags, hrx, BitVec.zero_or]
    cases s.rxState <;> rfl
  · rw [State.status, BitVec.extractLsb'_or, hflags', hrx', BitVec.zero_or]

end Sys2Proof.Machine
end

section
/-! The layout of an emission (spec/30_encoding.md R92, spec/41_frame_transmitter.md R143, R145). -/

namespace Sys2Proof.Machine

/-- Three copies of each byte: the byte `k` stands at `3 k`, `3 k + 1` and `3 k + 2`. -/
theorem flatMap_triple_getElem? (l : List Byte) (k : Nat) {j : Nat} (hj : j < 3) :
    (l.flatMap triple)[3 * k + j]? = l[k]? := by
  induction l generalizing k with
  | nil => rfl
  | cons b bs ih =>
    have htriple : (triple b).length = 3 := rfl
    cases k with
    | zero =>
      rw [List.flatMap_cons, List.getElem?_append_left (by omega)]
      interval_cases j <;> rfl
    | succ k =>
      rw [List.flatMap_cons, List.getElem?_append_right (by omega), htriple,
        show 3 * (k + 1) + j - 3 = 3 * k + j by omega, ih, List.getElem?_cons_succ]

/-- The copies of the body's byte `k` follow the six bytes of the preamble and the length. -/
theorem emissionBytes_getElem? (frame : List Byte) (k : Nat) {j : Nat} (hj : j < 3) :
    (emissionBytes frame)[6 + 3 * k + j]? = (body frame)[k]? := by
  rw [← flatMap_triple_getElem? (body frame) k hj, emissionBytes, Nat.add_assoc, Nat.add_comm 6]
  rfl

/-- Settles O28: the body's byte at each offset is a byte of the frame or of the checksum. -/
theorem emissionLayout : Obligations.EmissionLayout := by
  refine fun frame => ⟨emissionBytes_length frame, rfl, fun k j hk hj => ?_, fun j hj => ⟨?_, ?_⟩⟩
  · rw [emissionBytes_getElem? frame k hj, body, List.getElem?_append_left hk]
  · rw [emissionBytes_getElem? frame _ hj, body, List.getElem?_append_right (le_refl _), Nat.sub_self]
    rfl
  · rw [emissionBytes_getElem? frame _ hj, body, List.getElem?_append_right (by omega), Nat.add_sub_cancel_left]
    rfl

end Sys2Proof.Machine
end

section
/-! The decoder's step EDGE by its branches, CLASSIFY, and the tolerance on the symbol 0 (spec/40_symbol_codec.md R119
to R125, spec/42_frame_receiver.md R184, R186). -/

namespace Sys2Proof.Machine

/-! ### CLASSIFY -/

theorem classify_count (v : Sym) : classify (2 * (v.toNat + 1)) = some v := by
  revert v; decide

/-- A count that is no symbol's is invalid. -/
theorem classify_invalid {c : Nat} (h : ∀ v : Sym, c ≠ 2 * (v.toNat + 1)) : classify c = none := by
  refine if_neg fun hc => ?_
  rcases hc with rfl | rfl | rfl | rfl
  · exact h 0 rfl
  · exact h 1 rfl
  · exact h 2 rfl
  · exact h 3 rfl

/-- The count of a window with one edge is no symbol's. -/
theorem one_ne_count (v : Sym) : 1 ≠ 2 * (v.toNat + 1) := by omega

/-- Settles O22: CLASSIFY's value is the model's `classify`, evaluated at each count. -/
theorem classifyMapsEvenCountsToSymbols : Obligations.ClassifyMapsEvenCountsToSymbols := by
  intro c s
  refine ⟨classify c, rfl, ?_, ?_, ?_, ?_, fun h2 h4 h6 h8 => if_neg (by omega)⟩ <;> rintro rfl
  · exact classify_count 0
  · exact classify_count 1
  · exact classify_count 2
  · exact classify_count 3

/-! ### EDGE, one lemma a branch -/

/-- Under the receive mask and with a full slot an edge is ignored (R184, R186). -/
theorem edge_ignored {s : State} (t : Time) (h : s.txPhase = .emitting ∨ s.ready = true) :
    exec (.edge t) s = .next s := by
  rcases h with h | h <;> simp [exec, execEdge, edge, State.receiveMask, h, toOutcome]

section
variable {s : State} (hphase : s.txPhase ≠ .emitting) (hready : s.ready = false)
include hphase hready

/-- The first edge opens a window (R121). -/
theorem edge_opens (t : Time) (hlast : s.decLast = none) :
    exec (.edge t) s = .next { s with decLast := some t, decCount := 1 } := by
  rw [edge_open hphase hready, decodeEdge, hlast, toOutcome_ok]

variable {t t0 : Time} (hlast : s.decLast = some t0)
include hlast

/-- An edge inside the refractory interval is not accepted (R121). -/
theorem edge_debounced (hdt : (t - t0).toNat < debounceUs s.cfg) : exec (.edge t) s = .next s := by
  simp only [edge_open hphase hready, decodeEdge, hlast, if_pos hdt, toOutcome_ok]

/-- An edge between the two thresholds is counted. -/
theorem edge_counted (hdeb : debounceUs s.cfg ≤ (t - t0).toNat) (hgap : (t - t0).toNat < gapUs s.cfg) :
    exec (.edge t) s = .next { s with decLast := some t, decCount := countEdge s.decCount } := by
  simp only [edge_open hphase hready, decodeEdge, hlast, if_neg (Nat.not_lt.2 hdeb), if_pos hgap, toOutcome_ok]

/-- An edge at or above the gap threshold closes the window and opens the next (R122, R123). -/
theorem edge_closes (hgap : gapUs s.cfg ≤ (t - t0).toNat) :
    exec (.edge t) s =
      toOutcome (closeWindow s.decCount.val (t - t0) { s with decLast := some t, decCount := 1 }) := by
  have hdeb : debounceUs s.cfg ≤ (t - t0).toNat := by
    unfold debounceUs; unfold gapUs at hgap; omega
  simp only [edge_open hphase hready, decodeEdge, hlast, if_neg (Nat.not_lt.2 hdeb), if_neg (Nat.not_lt.2 hgap)]

end

/-- A gap above the abort threshold abandons the frame (R124). -/
theorem closeWindow_longGap {c : Nat} {dt : Time} {s : State} (h : abortUs s.cfg < dt.toNat) :
    toOutcome (closeWindow c dt s) = exec (.rxAbort (.longGap dt)) s := by
  rw [closeWindow, if_pos h]; rfl

/-- A window of a symbol's count delivers the symbol. -/
theorem closeWindow_symbol {dt : Time} {s : State} (h : dt.toNat ≤ abortUs s.cfg) (v : Sym) :
    toOutcome (closeWindow (2 * (v.toNat + 1)) dt s) = exec (.rxSymbol v) s := by
  rw [closeWindow, if_neg (Nat.not_lt.2 h), classify_count]; rfl

/-- A window of any other count abandons the frame. -/
theorem closeWindow_badWindow {c : Nat} {dt : Time} {s : State} (h : dt.toNat ≤ abortUs s.cfg)
    (hc : ∀ v : Sym, c ≠ 2 * (v.toNat + 1)) :
    toOutcome (closeWindow c dt s) = exec (.rxAbort (.badWindow c)) s := by
  rw [closeWindow, if_neg (Nat.not_lt.2 h), classify_invalid hc]; rfl

/-- Settles O23: one lemma above for each branch; the bounds of the statement are those of R9 written out. -/
theorem edgeFollowsTheDecoder : Obligations.EdgeFollowsTheDecoder := by
  intro t s
  refine ⟨edge_ignored t, fun hp hr hl => edge_opens hp hr t hl, ?_⟩
  rintro t0 T dt hp hr hl rfl rfl
  refine ⟨edge_debounced hp hr hl, fun hdeb hgap => ⟨_, rfl, edge_counted hp hr hl hdeb hgap⟩, ?_, ?_⟩
  · intro _ hgap hlong
    exact (edge_closes hp hr hl hgap).trans (closeWindow_longGap hlong)
  · intro _ hgap hshort
    rw [edge_closes hp hr hl hgap]
    refine ⟨fun v hv => ?_, closeWindow_badWindow hshort⟩
    rw [hv]
    exact closeWindow_symbol (s := { s with decLast := some t, decCount := 1 }) hshort v

/-! ### Operations one after another -/

theorem execAll_cons {i : Instr} {s s1 : State} (h : exec i s = .next s1) (is : List Instr) :
    execAll (i :: is) s = execAll is s1 := by
  rw [execAll, h]

theorem execAll_singleton (i : Instr) (s : State) : execAll [i] s = exec i s := by
  rw [execAll]
  cases exec i s <;> rfl

theorem execAll_append {is : List Instr} {s s1 : State} (h : execAll is s = .next s1) (js : List Instr) :
    execAll (is ++ js) s = execAll js s1 := by
  induction is generalizing s with
  | nil => cases h; rfl
  | cons i is ih =>
    cases hi : exec i s with
    | next s2 =>
      rw [execAll_cons hi] at h
      rw [List.cons_append, execAll_cons hi, ih h]
    | fault f => rw [execAll, hi] at h; cases h
    | refused r => rw [execAll, hi] at h; cases h

/-! ### Outside the tolerance -/

/-- The receiver is in `Idle` and the decoder listens, with an open window of `n` edges, the last at `a`. -/
structure IdleWindow (n : Fin 10) (a : Nat) (s : State) : Prop where
  phase : s.txPhase ≠ .emitting
  ready : s.ready = false
  idle : s.rxState = .idle
  last : s.decLast = some (BitVec.ofNat 32 a)
  count : s.decCount = n

/-- A window of one edge is abandoned at the edge that closes it, which opens the next. -/
theorem IdleWindow.edge_abandons {s : State} {a b : Nat} (h : IdleWindow 1 a s) (hab : a ≤ b) (hwrap : b - a < 2 ^ 32)
    (hgap : gapUs s.cfg ≤ b - a) :
    ∃ s', exec (.edge (BitVec.ofNat 32 b)) s = .next s' ∧ IdleWindow 1 b s' := by
  rw [← dt_eq a b hab hwrap] at hgap
  rw [edge_closes h.phase h.ready h.last hgap, h.count]
  by_cases hlong : abortUs s.cfg < (BitVec.ofNat 32 b - BitVec.ofNat 32 a).toNat
  · exact ⟨_, closeWindow_longGap hlong, ⟨h.phase, h.ready, rfl, rfl, rfl⟩⟩
  · exact ⟨_, closeWindow_badWindow (Nat.le_of_not_lt hlong) one_ne_count, ⟨h.phase, h.ready, rfl, rfl, rfl⟩⟩

/-- An edge delivers nothing when it stays inside the window, or when the window has one edge. -/
theorem IdleWindow.edge_idle {s : State} {n : Fin 10} {a b : Nat} (h : IdleWindow n a s) (hab : a ≤ b)
    (hwrap : b - a < 2 ^ 32) (hn : n = 1 ∨ b - a < gapUs s.cfg) :
    ∃ s', exec (.edge (BitVec.ofNat 32 b)) s = .next s' ∧ s'.rxState = .idle := by
  by_cases hgap : b - a < gapUs s.cfg
  · rw [← dt_eq a b hab hwrap] at hgap
    by_cases hdeb : (BitVec.ofNat 32 b - BitVec.ofNat 32 a).toNat < debounceUs s.cfg
    · exact ⟨s, edge_debounced h.phase h.ready h.last hdeb, h.idle⟩
    · exact ⟨_, edge_counted h.phase h.ready h.last (Nat.le_of_not_lt hdeb) hgap, h.idle⟩
  · obtain rfl : n = 1 := hn.resolve_right hgap
    obtain ⟨s', hs', hw⟩ := h.edge_abandons hab hwrap (Nat.le_of_not_lt hgap)
    exact ⟨s', hs', hw.idle⟩

/-- What the second edge of a symbol 0 outside the tolerance leaves, and when it was accepted: the window it opened by
abandoning the old one, the old window when it came too early, or (at half of an odd pulse width) one with two edges,
which the next symbol's first edge is too early to close. -/
theorem IdleWindow.pulse_outside_tolerance {s : State} {t Ttx : Nat} (h : IdleWindow 1 t s)
    (hT : 8 * s.cfg.pulseUs < 2 ^ 32) (hout : Ttx < (s.cfg.pulseUs + 1) / 2 ∨ 2 * s.cfg.pulseUs - 1 < Ttx)
    (hwrap : 4 * Ttx < 2 ^ 32) :
    ∃ s' n a, exec (.edge (BitVec.ofNat 32 (t + Ttx))) s = .next s' ∧ IdleWindow n a s' ∧
      a ≤ t + 5 * Ttx ∧ t + 5 * Ttx - a < 2 ^ 32 ∧ (n = 1 ∨ t + 5 * Ttx - a < gapUs s'.cfg) := by
  have hdt : (BitVec.ofNat 32 (t + Ttx) - BitVec.ofNat 32 t).toNat = t + Ttx - t :=
    dt_eq t (t + Ttx) (Nat.le_add_right t Ttx) (by omega)
  by_cases hgap : gapUs s.cfg ≤ Ttx
  · obtain ⟨s', hs', hw⟩ := h.edge_abandons (Nat.le_add_right t Ttx) (by omega) (by omega)
    exact ⟨s', 1, t + Ttx, hs', hw, by omega, by omega, .inl rfl⟩
  · have hshort : Ttx < (s.cfg.pulseUs + 1) / 2 := by unfold gapUs at hgap; omega
    by_cases hdeb : Ttx < debounceUs s.cfg
    · exact ⟨s, 1, t, edge_debounced h.phase h.ready h.last (by omega), h, by omega, by omega, .inl rfl⟩
    · refine ⟨_, countEdge s.decCount, t + Ttx, edge_counted h.phase h.ready h.last (by omega) (by omega),
        ⟨h.phase, h.ready, h.idle, rfl, rfl⟩, by omega, by omega, .inr ?_⟩
      unfold debounceUs at hdeb
      unfold gapUs
      dsimp only
      omega

/-- Settles O25: neither of the two edges delivers a symbol. -/
theorem symbolZeroIsLostOutsideTheTolerance : Obligations.SymbolZeroIsLostOutsideTheTolerance := by
  intro s t Ttx hcfg hp hr hidle hlast hcount hout hwrap
  obtain ⟨-, hT, -⟩ := (configValid_iff _).1 hcfg
  have hw : IdleWindow 1 t s := ⟨hp, hr, hidle, hlast, hcount⟩
  obtain ⟨s1, n, a, hs1, hw1, hle, hlt, hn⟩ := hw.pulse_outside_tolerance hT hout hwrap
  have hzero : symDuration Ttx 0 = 5 * Ttx := rfl
  rw [execAll_cons hs1, execAll_singleton, hzero]
  exact hw1.edge_idle hle hlt hn

end Sys2Proof.Machine
end

section
/-! The waveforms of the symbols and of an emission, and what a decoder inside the tolerance makes of a symbol's edges
(spec/40_symbol_codec.md R112 to R116, R125, R128, spec/41_frame_transmitter.md R149, R150). -/

namespace Sys2Proof.Machine

theorem symbol_cases (v : Sym) : v = 0 ∨ v = 1 ∨ v = 2 ∨ v = 3 := by revert v; decide

/-! ### The waveforms -/

theorem sym2Wave_eq (T a : Nat) : sym2Wave T a =
    [⟨a, true⟩, ⟨a + T, false⟩, ⟨a + 2 * T, true⟩, ⟨a + 3 * T, false⟩, ⟨a + 4 * T, true⟩, ⟨a + 5 * T, false⟩] := by
  simp [sym2Wave, List.range_succ]

theorem sym3Wave_eq (T a : Nat) : sym3Wave T a =
    [⟨a, true⟩, ⟨a + T, false⟩, ⟨a + 2 * T, true⟩, ⟨a + 3 * T, false⟩, ⟨a + 4 * T, true⟩, ⟨a + 5 * T, false⟩,
      ⟨a + 6 * T, true⟩, ⟨a + 7 * T, false⟩] := by
  simp [sym3Wave, List.range_succ]

/-- Settles O21: each operation appends the model's waveform, and `playSymbols` goes on after `symDuration`. -/
theorem symbolsPlayTheirWaveforms : Obligations.SymbolsPlayTheirWaveforms := by
  rintro t0 s T a rfl rfl
  refine ⟨rfl, rfl, ?_, ?_, rfl, fun _ => rfl, fun _ => rfl, fun _ => rfl, fun _ => rfl⟩
  · rw [← sym2Wave_eq]; rfl
  · rw [← sym3Wave_eq]; rfl

theorem symWave_head (T t : Nat) (v : Sym) : symWave T t v = ⟨t, true⟩ :: (symWave T t v).tail := by
  simp [symWave_eq, List.range_succ_eq_map]

theorem symWave_length (T t : Nat) (v : Sym) : (symWave T t v).length = 2 * (v.toNat + 1) := by
  simp [symWave_eq, List.length_flatMap, Nat.mul_comm]

theorem playSymbols_head (T t : Nat) (vs : List Sym) :
    playSymbols T t vs = ⟨t, true⟩ :: (playSymbols T t vs).tail := by
  cases vs with
  | nil => rfl
  | cons v vs => rw [playSymbols, symWave_head]; rfl

/-- The last transition is the trailer's fall. -/
theorem playSymbols_getLast (T t : Nat) (vs : List Sym) :
    (playSymbols T t vs).getLast? = some ⟨t + symbolsDuration T vs + T, false⟩ := by
  induction vs generalizing t with
  | nil => rfl
  | cons v vs ih =>
    have hsum : symbolsDuration T (v :: vs) = symDuration T v + symbolsDuration T vs := rfl
    rw [playSymbols, List.getLast?_append, ih, hsum, ← Nat.add_assoc]
    rfl

theorem playSymbols_length (T t : Nat) (vs : List Sym) :
    (playSymbols T t vs).length = 2 * (vs.map (·.toNat)).sum + 2 * vs.length + 2 := by
  induction vs generalizing t with
  | nil => rfl
  | cons v vs ih =>
    rw [playSymbols, List.length_append, symWave_length, ih, List.map_cons, List.sum_cons, List.length_cons]
    omega

/-- Settles O29: the duration is the symbols' and the trailer's (`duration_eq`); the rest is the shape of
`playSymbols`. -/
theorem emissionWaveformFillsItsDuration : Obligations.EmissionWaveformFillsItsDuration := by
  intro T ts bytes
  have hdur : emissionDuration T bytes = symbolsDuration T (symbols bytes) + 5 * T := duration_eq T bytes
  refine ⟨?_, ?_, fun e he => ?_, ?_⟩
  · rw [playSymbols_head, List.head?_cons]
  · rw [playSymbols_getLast, hdur]
    congr 2
    omega
  · rw [hdur, ← Nat.add_assoc]
    exact play_mem (symbols bytes) he
  · rw [playSymbols_length, symbols_length, symbolSum]
    omega

/-! ### A symbol's edges, inside the tolerance -/

/-- `EDGE` at each transition of a waveform. -/
def waveEdges (w : List Transition) : List Instr := w.map fun e => Instr.edge (BitVec.ofNat 32 e.time)

/-- `n` edges, `T` apart, the first `T` after `a`. -/
def pulseEdges (T : Nat) : (a n : Nat) → List Instr
  | _, 0 => []
  | a, n + 1 => .edge (BitVec.ofNat 32 (a + T)) :: pulseEdges T (a + T) n

/-- After its first rise a symbol's transitions are evenly spaced. -/
theorem symWave_tail_edges (T t : Nat) (v : Sym) :
    waveEdges (symWave T t v).tail = pulseEdges T t (2 * v.toNat + 1) := by
  rcases symbol_cases v with rfl | rfl | rfl | rfl <;>
    simp [waveEdges, pulseEdges, symWave, sym0Wave, sym1Wave, sym2Wave_eq, sym3Wave_eq] <;> ring_nf <;> simp

/-- The pulse width `T` of a transmitter is inside the tolerance of a receiver (R125), whose abort threshold fits the
time base (R9). -/
structure InTolerance (c : Config) (T : Nat) : Prop where
  pulse : 0 < c.pulseUs
  abort : 8 * c.pulseUs < 2 ^ 32
  above : (c.pulseUs + 1) / 2 ≤ T
  below : T ≤ 2 * c.pulseUs - 1

theorem InTolerance.of_valid {c : Config} {T : Nat} (hc : configValid c = true) (habove : (c.pulseUs + 1) / 2 ≤ T)
    (hbelow : T ≤ 2 * c.pulseUs - 1) : InTolerance c T := by
  obtain ⟨hmin, habort, -⟩ := (configValid_iff _).1 hc
  exact ⟨by omega, habort, habove, hbelow⟩

/-- The decoder listens to a transmitter inside its tolerance, with a window open whose last edge was accepted at
`a`. -/
structure WindowOpen (T a : Nat) (s : State) : Prop where
  phase : s.txPhase ≠ .emitting
  ready : s.ready = false
  last : s.decLast = some (BitVec.ofNat 32 a)
  tolerance : InTolerance s.cfg T

/-- The next accepted edge. -/
theorem WindowOpen.moved {T a : Nat} {s : State} (h : WindowOpen T a s) (b : Nat) (c : Fin 10) :
    WindowOpen T b { s with decLast := some (BitVec.ofNat 32 b), decCount := c } :=
  ⟨h.phase, h.ready, rfl, h.tolerance⟩

/-- Evenly spaced edges all count into the window. -/
theorem WindowOpen.pulses {T a : Nat} {s : State} (h : WindowOpen T a s) (n : Nat) {c : Fin 10}
    (hc : c.val = s.decCount.val + n) :
    execAll (pulseEdges T a n) s =
      .next { s with decLast := some (BitVec.ofNat 32 (a + n * T)), decCount := c } := by
  induction n generalizing s a with
  | zero =>
    obtain rfl : c = s.decCount := Fin.ext hc
    rw [Nat.zero_mul, Nat.add_zero, ← h.last]
    rfl
  | succ n ih =>
    have hlt := c.isLt
    obtain ⟨hp, hr, hlast, ⟨hpos, habort, habove, hbelow⟩⟩ := id h
    have hcount : (countEdge s.decCount).val = s.decCount.val + 1 := Nat.min_eq_left (by omega)
    have hfirst := edge_count (b := a + T) hp hr hlast (Nat.le_add_right a T) (by omega) (by omega) (by omega)
    have hrest : c.val = (countEdge s.decCount).val + n := by rw [hcount, hc, Nat.add_right_comm]; rfl
    rw [pulseEdges, execAll_cons hfirst, ih (h.moved (a + T) (countEdge s.decCount)) hrest,
      show a + T + n * T = a + (n + 1) * T by ring]

/-- `QUIET_US` of the transmitter is a gap of the receiver, and no abort. -/
theorem WindowOpen.closes {T a : Nat} {s : State} (h : WindowOpen T a s) (v : Sym)
    (hcount : s.decCount.val = 2 * (v.toNat + 1)) :
    exec (.edge (BitVec.ofNat 32 (a + 4 * T))) s =
      exec (.rxSymbol v) { s with decLast := some (BitVec.ofNat 32 (a + 4 * T)), decCount := 1 } := by
  obtain ⟨hp, hr, hlast, ⟨hpos, habort, habove, hbelow⟩⟩ := h
  exact edge_close hp hr hlast (by omega) (by omega) (by omega) (by omega) v hcount

/-- A window just opened takes the symbol's other edges, and the next symbol's first edge closes it. -/
theorem WindowOpen.symbol {T a : Nat} {s : State} (h : WindowOpen T a s) (hcount : s.decCount = 1) (v : Sym) :
    execAll (waveEdges (symWave T a v).tail ++ [.edge (BitVec.ofNat 32 (a + symDuration T v))]) s =
      exec (.rxSymbol v) { s with decLast := some (BitVec.ofNat 32 (a + symDuration T v)), decCount := 1 } := by
  have hv := v.isLt
  have hall : 2 * (v.toNat + 1) = s.decCount.val + (2 * v.toNat + 1) := by
    rw [hcount, show (1 : Fin 10).val = 1 from rfl]
    omega
  have hcounted := h.pulses (2 * v.toNat + 1) (c := ⟨2 * (v.toNat + 1), by omega⟩) hall
  have hend : a + symDuration T v = a + (2 * v.toNat + 1) * T + 4 * T := by unfold symDuration; ring
  rw [symWave_tail_edges, execAll_append hcounted, execAll_singleton, hend]
  exact (h.moved _ _).closes v rfl

/-- Settles O24: the window is open in a valid configuration, so `WindowOpen.symbol` applies. -/
theorem windowDeliversItsSymbol : Obligations.WindowDeliversItsSymbol := by
  intro s v t Ttx hcfg hp hr hlast hcount habove hbelow
  exact WindowOpen.symbol ⟨hp, hr, hlast, .of_valid hcfg habove hbelow⟩ hcount v

end Sys2Proof.Machine
end

section
/-! The Sampler's operations complete under the block's invariant (spec/40_symbol_codec.md R119,
spec/42_frame_receiver.md R171, R175, R179). -/

namespace Sys2Proof.Machine

/-- Settles O39: each operation is the outcome of its procedure, which completes and keeps the invariant. -/
theorem samplerOperationsComplete : Obligations.SamplerOperationsComplete := fun _ h =>
  ⟨fun t => toOutcome_inv (edge_inv h t),
    fun v hs => toOutcome_inv (rxSymbol_inv h (ready_false_of_state h hs) v),
    fun v hs => toOutcome_inv (byteSymbol_inv h hs v),
    fun hs => toOutcome_inv (bodyByte_inv h hs)⟩

end Sys2Proof.Machine
end

section
/-! The receiver's registers: the sync register, the byte being assembled, the running CRC (spec/30_encoding.md R91,
spec/41_frame_transmitter.md R141 to R144, spec/42_frame_receiver.md R174, R175). -/

namespace Sys2Proof.Machine

/-! ### Symbols shifted into a register -/

/-- A symbol shifted in is a digit at base 4. -/
theorem shl_or_symbol_toNat {w : Nat} (hw : 2 ≤ w) (x : BitVec w) (v : Sym) :
    ((x <<< 2) ||| v.setWidth w).toNat = (4 * x.toNat + v.toNat) % 2 ^ w := by
  have hv : v.toNat < 2 ^ 2 := v.isLt
  have hwide : 2 ^ 2 ≤ 2 ^ w := Nat.pow_le_pow_right (by omega) hw
  have hsplit : x <<< 2 ||| v.setWidth w = (x ++ v).setWidth w := by
    ext i hi
    simp only [BitVec.getElem_or, BitVec.getElem_shiftLeft, BitVec.getElem_setWidth, BitVec.getLsbD_append]
    by_cases h2 : i < 2
    · simp [h2]
    · simp [h2, BitVec.getLsbD_eq_getElem (show i - 2 < w by omega), BitVec.getLsbD_of_ge v i (by omega)]
  rw [hsplit, BitVec.toNat_setWidth, BitVec.toNat_append, ← Nat.shiftLeft_add_eq_or_of_lt hv, Nat.shiftLeft_eq,
    Nat.mul_comm]

theorem shiftSync_toNat (sr : BitVec 24) (v : Sym) : (shiftSync sr v).toNat = (4 * sr.toNat + v.toNat) % 2 ^ 24 :=
  shl_or_symbol_toNat (by decide) sr v

theorem shiftByte_toNat (acc : Byte) (v : Sym) : (shiftByte acc v).toNat = (4 * acc.toNat + v.toNat) % 2 ^ 8 :=
  shl_or_symbol_toNat (by decide) acc v

/-- A byte's four symbols, most significant first, assemble it. -/
theorem shiftByte_byteSymbols (b : Byte) : (byteSymbols b).foldl shiftByte 0 = b := by
  apply BitVec.eq_of_toNat_eq
  have hb : b.toNat < 256 := b.isLt
  simp only [byteSymbols, List.foldl_cons, List.foldl_nil, shiftByte_toNat, BitVec.extractLsb'_toNat,
    Nat.shiftRight_eq_div_pow, BitVec.reduceToNat]
  omega

/-- The preamble ends with the symbols 2 and 0. -/
theorem shiftSync_ne_syncWord {u v : Sym} (h : ¬ (u = 2 ∧ v = 0)) (sr : BitVec 24) :
    shiftSync (shiftSync sr u) v ≠ syncWord := by
  intro heq
  have hdigits : (4 * ((4 * sr.toNat + u.toNat) % 2 ^ 24) + v.toNat) % 2 ^ 24 = 0xE41BD8 := by
    rw [← shiftSync_toNat, ← shiftSync_toNat, heq]; rfl
  have hu := u.isLt
  have hv := v.isLt
  exact h ⟨BitVec.eq_of_toNat_eq (by change _ = 2; omega), BitVec.eq_of_toNat_eq (by change _ = 0; omega)⟩

/-- A preamble is not complete at a symbol other than its last one. -/
theorem shiftSync_ne_syncWord_of_ne_zero {v : Sym} (h : v ≠ 0) (sr : BitVec 24) : shiftSync sr v ≠ syncWord := by
  intro heq
  have hdigit : (4 * sr.toNat + v.toNat) % 2 ^ 24 = 0xE41BD8 := by rw [← shiftSync_toNat, heq]; rfl
  have hv := v.isLt
  exact h (BitVec.eq_of_toNat_eq (by change _ = 0; omega))

/-- The symbols of the preamble but its last. -/
def preambleSymbols : List Sym := [3, 2, 1, 0, 0, 1, 2, 3, 3, 1, 2]

theorem symbols_preamble : symbols [sync0, sync1, sync2] = preambleSymbols ++ [0] := by decide

/-- Twelve symbols fill the sync register, whatever it held. -/
theorem shiftSync_preamble (sr : BitVec 24) : shiftSync (preambleSymbols.foldl shiftSync sr) 0 = syncWord := by
  apply BitVec.eq_of_toNat_eq
  change _ = 0xE41BD8
  simp only [preambleSymbols, List.foldl_cons, List.foldl_nil, shiftSync_toNat, BitVec.reduceToNat]
  omega

/-! ### The CRC of a frame and its checksum -/

/-- While no bit reaches the top the CRC's shifts are plain shifts. -/
theorem crcShifts_of_lt {k : Nat} {c : Crc} (h : c.toNat * 2 ^ k < 2 ^ 16) : crcShifts k c = c <<< k := by
  induction k generalizing c with
  | zero => exact (BitVec.shiftLeft_zero c).symm
  | succ k ih =>
    have hdouble : c.toNat * 2 ^ (k + 1) = c.toNat * 2 * 2 ^ k := by ring
    have hsmall : c.toNat * 2 < 2 ^ 16 := (Nat.le_mul_of_pos_right _ (Nat.two_pow_pos k)).trans_lt (hdouble ▸ h)
    have htop : c.getLsbD 15 = false := Nat.testBit_eq_false_of_lt (by omega)
    have hshift : crcShift c = c <<< 1 := if_neg (Bool.eq_false_iff.1 htop)
    have hnat : (c <<< 1).toNat = c.toNat * 2 := by
      rw [BitVec.toNat_shiftLeft, Nat.shiftLeft_eq, Nat.pow_one, Nat.mod_eq_of_lt hsmall]
    rw [crcShifts, hshift, ih (by rw [hnat, ← hdouble]; exact h), ← BitVec.shiftLeft_add, Nat.add_comm]

/-- Exclusive-oring the high byte of a register out leaves its low byte. -/
theorem xor_highByte (c : Crc) :
    c ^^^ ((c.extractLsb' 8 8).setWidth 16 <<< 8) = (c.extractLsb' 0 8).setWidth 16 := by
  ext i hi
  by_cases h8 : i < 8
  · simp [h8, BitVec.getLsbD_eq_getElem hi]
  · simp [h8, show i - 8 < 8 by omega, show 8 + (i - 8) = i by omega, BitVec.getLsbD_eq_getElem hi]

/-- A CRC register fed its own two bytes, high byte first, is zero (R144). -/
theorem crcFold_crcBytes (c : Crc) : crcFold c (crcBytes c) = 0 := by
  have hlow : ((c.extractLsb' 0 8).setWidth 16).toNat * 2 ^ 8 < 2 ^ 16 := by
    have := (c.extractLsb' 0 8).isLt
    rw [BitVec.toNat_setWidth, Nat.mod_eq_of_lt (by omega)]
    omega
  have hhigh : crc16Update c (c.extractLsb' 8 8) = (c.extractLsb' 0 8).setWidth 16 <<< 8 := by
    rw [crc16Update, xor_highByte, crcShifts_of_lt hlow]
  rw [crcFold, crcBytes, List.foldl_cons, List.foldl_cons, List.foldl_nil, hhigh, crc16Update, BitVec.xor_self]
  rfl

/-- The running CRC of a length byte and its frame completes to zero over the frame and the checksum's bytes (R144). -/
theorem crcFold_body (frame : List Byte) : crcFold (crc16Update crcInit (lengthByte frame)) (body frame) = 0 := by
  have hframe : crcFold (crc16Update crcInit (lengthByte frame)) frame = checksum frame := rfl
  rw [body, crcFold, List.foldl_append]
  exact (congrArg (fun c => crcFold c (crcBytes (checksum frame))) hframe).trans (crcFold_crcBytes _)

end Sys2Proof.Machine
end

section
/-! The receiver over the symbols of one emission: the preamble, the length byte three times, the body's bytes three
times each (spec/42_frame_receiver.md R173 to R182). -/

namespace Sys2Proof.Machine

/-- RX_SYMBOL for each symbol of the bytes. -/
def byteRun (bytes : List Byte) : List Instr := (symbols bytes).map Instr.rxSymbol

theorem byteRun_append (a b : List Byte) : byteRun (a ++ b) = byteRun a ++ byteRun b := by
  simp [byteRun, symbols]

/-! ### The preamble -/

/-- The state of a search that has gone on over some symbols. -/
def searched (vs : List Sym) (s : State) : State :=
  { s with
    syncSr := vs.foldl shiftSync s.syncSr, syncN := vs.foldl (fun n _ => countSync n) s.syncN, rxState := .syncing }

@[simp] theorem searched_rxState (vs : List Sym) (s : State) : (searched vs s).rxState = .syncing := rfl

@[simp] theorem searched_syncSr (vs : List Sym) (s : State) :
    (searched vs s).syncSr = vs.foldl shiftSync s.syncSr := rfl

@[simp] theorem searched_syncN (vs : List Sym) (s : State) :
    (searched vs s).syncN = vs.foldl (fun n _ => countSync n) s.syncN := rfl

theorem searched_searched (vs ws : List Sym) (s : State) : searched ws (searched vs s) = searched (vs ++ ws) s := by
  simp only [searched, List.foldl_append]

/-- A symbol that does not complete the preamble, in `Idle` or `Syncing`: the search's registers are empty in `Idle`. -/
theorem rxSymbol_searched {s : State} (hidle : s.rxState = .idle → s.syncSr = 0 ∧ s.syncN = 0)
    (hs : s.rxState = .idle ∨ s.rxState = .syncing) {v : Sym} (hv : shiftSync s.syncSr v ≠ syncWord) :
    exec (.rxSymbol v) s = .next (searched [v] s) := by
  rcases hs with hs | hs
  · obtain ⟨hsr, hn⟩ := hidle hs
    have hreg : shiftSync 0 v = v.setWidth 24 := by simp [shiftSync]
    simp only [exec, execRxSymbol, rxSymbol, hs, idleSymbol, searched, hsr, hn, List.foldl_cons, List.foldl_nil, hreg]
    rfl
  · simp only [exec, execRxSymbol, rxSymbol, hs, syncSymbol, if_neg (not_and_of_not_right _ hv)]
    simp only [searched, List.foldl_cons, List.foldl_nil, toOutcome_ok, ← hs]

/-- A search goes on over symbols among which 2 is never followed by 0. -/
theorem search_run {vs : List Sym} {u : Sym} {sr : BitVec 24} {s : State} (hs : s.rxState = .syncing)
    (hsr : s.syncSr = shiftSync sr u) (hvs : (u :: vs).IsChain fun a b => ¬ (a = 2 ∧ b = 0)) :
    execAll (vs.map Instr.rxSymbol) s = .next (searched vs s) := by
  induction vs generalizing u sr s with
  | nil => simp only [searched, List.foldl_nil, ← hs]; rfl
  | cons v vs ih =>
    obtain ⟨huv, hrest⟩ := List.isChain_cons_cons.1 hvs
    have hne : shiftSync s.syncSr v ≠ syncWord := by rw [hsr]; exact shiftSync_ne_syncWord huv sr
    have hfirst := rxSymbol_searched (fun h => absurd (hs.symm.trans h) (by decide)) (.inr hs) hne
    rw [List.map_cons, execAll_cons hfirst, ih (s := searched [v] s) rfl rfl hrest, searched_searched,
      List.singleton_append]

/-- The state after a preamble. -/
def preambleFound (s : State) : State :=
  { s with syncSr := syncWord, syncN := 12, rxState := .readingLength, symAcc := 0, symN := 0, copyN := 0 }

/-- The symbol that completes the preamble. -/
theorem rxSymbol_preambleFound {s : State} (hs : s.rxState = .syncing) {v : Sym} (hv : shiftSync s.syncSr v = syncWord)
    (hn : countSync s.syncN = 12) : exec (.rxSymbol v) s = .next (preambleFound s) := by
  simp only [exec, execRxSymbol, rxSymbol, hs, syncSymbol, hv, hn, preambleFound]
  rfl

/-- A preamble is found from every searching state. -/
theorem preamble_run {s : State} (h : Inv s) (hs : s.rxState = .idle ∨ s.rxState = .syncing) :
    execAll (byteRun [sync0, sync1, sync2]) s = .next (preambleFound s) := by
  have hfirst : exec (.rxSymbol 3) s = .next (searched [3] s) :=
    rxSymbol_searched h.idle hs (shiftSync_ne_syncWord_of_ne_zero (by decide) _)
  have hmid := search_run (vs := preambleSymbols.tail) (u := 3) (sr := s.syncSr) (s := searched [3] s) rfl rfl
    (by decide)
  rw [searched_searched] at hmid
  have hcount : ∀ n : Fin 13, countSync (preambleSymbols.foldl (fun n _ => countSync n) n) = 12 := by decide
  have hlast : exec (.rxSymbol 0) (searched preambleSymbols s) = .next (preambleFound (searched preambleSymbols s)) :=
    rxSymbol_preambleFound (searched_rxState _ _) (by rw [searched_syncSr, shiftSync_preamble])
      (by rw [searched_syncN, hcount])
  have hrun : byteRun [sync0, sync1, sync2] =
      Instr.rxSymbol 3 :: (preambleSymbols.tail.map Instr.rxSymbol ++ [Instr.rxSymbol 0]) := by
    rw [byteRun, symbols_preamble]; rfl
  rw [hrun, execAll_cons hfirst, execAll_append hmid, execAll_singleton]
  exact hlast

/-! ### Raw copies and logical bytes -/

/-- The receiver reads raw copies, and is between two of them. -/
structure BetweenCopies (s : State) : Prop where
  reading : s.rxState = .readingLength ∨ s.rxState = .readingBody
  symAcc : s.symAcc = 0
  symN : s.symN = 0

theorem rxSymbol_reading {s : State} (h : s.rxState = .readingLength ∨ s.rxState = .readingBody) (v : Sym) :
    exec (.rxSymbol v) s = toOutcome (byteSymbol v s) := by
  rcases h with h | h <;> simp only [exec, execRxSymbol, rxSymbol, h]

/-- The state in which `n` symbols of a raw copy have made `acc`. -/
def assembling (acc : Byte) (n : Fin 4) (s : State) : State := { s with symAcc := acc, symN := n }

/-- One of the first three symbols of a raw copy. -/
theorem rxSymbol_shifted {s : State} (h : s.rxState = .readingLength ∨ s.rxState = .readingBody) {n : Fin 4}
    (hn : n ≠ 3) (acc : Byte) (v : Sym) :
    exec (.rxSymbol v) (assembling acc n s) = .next (assembling (shiftByte acc v) (nextSymbol n) s) := by
  rw [rxSymbol_reading (s := assembling acc n s) h, byteSymbol_eq, if_pos (show (assembling acc n s).symN ≠ 3 from hn)]
  rfl

/-- The state with one more raw copy stored. -/
def copyRead (b : Byte) (s : State) : State :=
  { s with copies := s.copies.set s.copyN b, copyN := nextCopy s.copyN }

/-- What follows a raw copy (R175). -/
def afterCopy (b : Byte) (s : State) : Except Fault State :=
  if s.copyN ≠ 2 then .ok (copyRead b s)
  else if s.rxState = .readingLength then .ok (lengthCheck (copyRead b s))
  else bodyByte (copyRead b s)

/-- The fourth symbol of a raw copy. -/
theorem rxSymbol_copy {s : State} (h : s.rxState = .readingLength ∨ s.rxState = .readingBody) (acc : Byte) (v : Sym) :
    exec (.rxSymbol v) (assembling acc 3 s) = toOutcome (afterCopy (shiftByte acc v) (assembling 0 0 s)) := by
  rw [rxSymbol_reading (s := assembling acc 3 s) h, byteSymbol_eq,
    if_neg (not_not.2 (show (assembling acc 3 s).symN = 3 from rfl))]
  rfl

/-- Four symbols make a raw copy. -/
theorem copy_run {s : State} (h : BetweenCopies s) (b : Byte) :
    execAll (byteRun [b]) s = toOutcome (afterCopy b s) := by
  obtain ⟨hs, hacc, hn⟩ := h
  obtain ⟨v1, v2, v3, v4, hb⟩ : ∃ v1 v2 v3 v4, byteSymbols b = [v1, v2, v3, v4] := ⟨_, _, _, _, rfl⟩
  have hbyte : shiftByte (shiftByte (shiftByte (shiftByte 0 v1) v2) v3) v4 = b := by
    have := shiftByte_byteSymbols b
    rwa [hb] at this
  have hrun : byteRun [b] = [.rxSymbol v1, .rxSymbol v2, .rxSymbol v3, .rxSymbol v4] := by
    simp [byteRun, symbols, hb]
  have hstart : assembling 0 0 s = s := by rw [assembling, ← hacc, ← hn]
  rw [hrun, ← hstart, execAll_cons (rxSymbol_shifted hs (by decide) 0 v1),
    execAll_cons (rxSymbol_shifted hs (by decide) _ v2), execAll_cons (rxSymbol_shifted hs (by decide) _ v3),
    execAll_singleton]
  exact (rxSymbol_copy hs _ v4).trans (by rw [hbyte])

/-- Three equal copies have been read. -/
def tripleRead (b : Byte) (s : State) : State := { s with copies := ⟨b, b, b⟩, copyN := 0 }

/-- What follows three equal copies: the length check, or a body byte. -/
def afterTriple (b : Byte) (s : State) : Except Fault State :=
  if s.rxState = .readingLength then .ok (lengthCheck (tripleRead b s)) else bodyByte (tripleRead b s)

/-- Twelve symbols make three equal copies. -/
theorem triple_run {s : State} (h : BetweenCopies s) (hcopy : s.copyN = 0) (b : Byte) :
    execAll (byteRun (triple b)) s = toOutcome (afterTriple b s) := by
  have hrun : byteRun (triple b) = byteRun [b] ++ (byteRun [b] ++ byteRun [b]) := by
    rw [← byteRun_append, ← byteRun_append]; rfl
  have hnext {t : State} (ht : BetweenCopies t) (hn : t.copyN ≠ 2) :
      execAll (byteRun [b]) t = .next (copyRead b t) := by
    rw [copy_run ht, afterCopy, if_pos hn, toOutcome_ok]
  have hfirst : BetweenCopies (copyRead b s) := ⟨h.reading, h.symAcc, h.symN⟩
  have hsecond : BetweenCopies (copyRead b (copyRead b s)) := ⟨h.reading, h.symAcc, h.symN⟩
  have hone : (copyRead b s).copyN = 1 := by rw [copyRead, hcopy]; rfl
  have htwo : (copyRead b (copyRead b s)).copyN = 2 := by rw [copyRead, hone]; rfl
  have hall : copyRead b (copyRead b (copyRead b s)) = tripleRead b s := by
    simp [copyRead, tripleRead, hcopy, nextCopy, Copies.set]
  rw [hrun, execAll_append (hnext h (by rw [hcopy]; decide)), execAll_append (hnext hfirst (by rw [hone]; decide)),
    copy_run hsecond, afterCopy, if_neg (not_not.2 htwo), hall]
  rfl

/-! ### The body -/

/-- In `ReadingBody`, between two logical bytes: the body's bytes `done` have been read, and `todo` are to come. -/
structure ReadingFrame (done todo : List Byte) (s : State) : Prop where
  state : s.rxState = .readingBody
  symAcc : s.symAcc = 0
  symN : s.symN = 0
  copyN : s.copyN = 0
  length : s.rxLen.toNat = done.length + todo.length
  index : s.rxIdx = done.length
  /-- The running CRC will complete to zero. -/
  crc : crcFold s.rxCrc todo = 0
  /-- The bytes of the logical frame among `done` are in RXACC. -/
  stored : ∀ i, i < done.length → i < (s.rxLen - 2).toNat → some (s.rxAcc.read i) = done[i]?
  fits : (s.rxLen - 2).toNat ≤ bufSize s.cfg

theorem maj3_same (b : Byte) : maj3 b b b = b := by simp [maj3]

/-- The next body byte is stored and enters the running CRC. -/
theorem ReadingFrame.next {done todo : List Byte} {b : Byte} {s : State} (h : ReadingFrame done (b :: todo) s) :
    ReadingFrame (done ++ [b]) todo (bodyStored (tripleRead b s)) where
  state := h.state
  symAcc := h.symAcc
  symN := h.symN
  copyN := rfl
  length := by
    rw [List.length_append, List.length_singleton, Nat.add_right_comm, Nat.add_assoc]
    exact h.length
  index := by
    rw [List.length_append, ← h.index]
    rfl
  crc := by
    have hvote : (bodyStored (tripleRead b s)).rxCrc = crc16Update s.rxCrc b := by
      simp only [bodyStored, tripleRead, maj3_same]
    rw [hvote]
    exact h.crc
  stored := by
    intro i hi hframe
    have hidx := h.index
    rw [List.length_append, List.length_singleton] at hi
    have hacc : (bodyStored (tripleRead b s)).rxAcc =
        if s.rxIdx < (s.rxLen - 2).toNat then s.rxAcc.write s.rxIdx b else s.rxAcc := by
      simp only [bodyStored, tripleRead, maj3_same]
    change i < (s.rxLen - 2).toNat at hframe
    rw [hacc]
    by_cases hlast : i = done.length
    · subst hlast
      rw [if_pos (by omega), hidx, Memory.read_write_same, List.getElem?_append_right (Nat.le_refl _)]
      simp
    · rw [List.getElem?_append_left (by omega), ← h.stored i (by omega) hframe]
      split
      · rw [Memory.read_write_other _ (by omega)]
      · rfl
  fits := h.fits

/-- The body's last byte is followed by its completion, any other by the next byte. -/
theorem ReadingFrame.triple_run {done todo : List Byte} {b : Byte} {s : State} (h : ReadingFrame done (b :: todo) s) :
    execAll (byteRun (triple b)) s =
      toOutcome (if todo = [] then complete (bodyStored (tripleRead b s)) else .ok (bodyStored (tripleRead b s))) := by
  have hbody : afterTriple b s = bodyByte (tripleRead b s) := if_neg (by rw [h.state]; decide)
  have hlast : (tripleRead b s).rxIdx + 1 = (tripleRead b s).rxLen.toNat ↔ todo = [] := by
    have hlen := h.length
    have hidx := h.index
    rw [List.length_cons] at hlen
    rw [← List.length_eq_zero_iff]
    change s.rxIdx + 1 = s.rxLen.toNat ↔ _
    omega
  rw [Machine.triple_run ⟨.inr h.state, h.symAcc, h.symN⟩ h.copyN, hbody,
    bodyByte_eq (s := tripleRead b s) (fun hlt => lt_of_lt_of_le hlt h.fits)]
  simp only [hlast]

/-- A frame has been delivered to the slot: nothing was abandoned on the way. -/
structure Delivered (frame : List Byte) (s s' : State) : Prop where
  ready : s'.ready = true
  slotLen : s'.slotLen = BitVec.ofNat 8 frame.length
  slot : holds s'.slot frame
  trace : s'.trace = s.trace

/-- A whole body completes: its frame goes to the slot. -/
theorem ReadingFrame.complete {frame crc : List Byte} {s : State} (h : ReadingFrame (frame ++ crc) [] s)
    (hcrc : crc.length = 2) : ∃ s', complete s = .ok s' ∧ Delivered frame s s' := by
  have hlen : s.rxLen.toNat = frame.length + 2 := by
    rw [h.length, List.length_append, hcrc, List.length_nil, Nat.add_zero]
  have hcount : (s.rxLen - 2).toNat = frame.length := by rw [length_sub_two (by omega), hlen, Nat.add_sub_cancel]
  have hacc : holds s.rxAcc frame := by
    intro i hi
    rw [h.stored i (by rw [List.length_append]; omega) (by omega), List.getElem?_append_left hi]
  have hzero : s.rxCrc = 0 := h.crc
  have haccept := completeAccept_eq hcount.symm (hcount ▸ h.fits) hacc
  refine ⟨_, (if_pos hzero).trans haccept, rfl, ?_, Memory.holds_writeList s.slot frame, rfl⟩
  rw [← hcount, BitVec.ofNat_toNat, BitVec.setWidth_eq]

/-- The rest of a body is read, and its frame delivered. -/
theorem ReadingFrame.run {frame crc done todo : List Byte} {s : State} (h : ReadingFrame done todo s)
    (hbody : done ++ todo = frame ++ crc) (hcrc : crc.length = 2) (htodo : todo ≠ []) :
    ∃ s', execAll (byteRun (todo.flatMap triple)) s = .next s' ∧ Delivered frame s s' := by
  induction todo generalizing done s with
  | nil => exact absurd rfl htodo
  | cons b todo ih =>
    have hnext := h.next
    have hrun := h.triple_run
    rw [List.flatMap_cons, byteRun_append]
    by_cases hlast : todo = []
    · subst hlast
      rw [hbody] at hnext
      obtain ⟨s', hs', hdone⟩ := hnext.complete hcrc
      rw [if_pos rfl, hs', toOutcome_ok] at hrun
      exact ⟨s', execAll_append hrun _, ⟨hdone.ready, hdone.slotLen, hdone.slot, hdone.trace⟩⟩
    · rw [if_neg hlast, toOutcome_ok] at hrun
      obtain ⟨s', hs', hdone⟩ := ih hnext (by rw [List.append_assoc]; exact hbody) hlast
      exact ⟨s', (execAll_append hrun _).trans hs', ⟨hdone.ready, hdone.slotLen, hdone.slot, hdone.trace⟩⟩

/-! ### The whole emission -/

/-- The length byte of a legal frame is accepted, and its body is read from there. -/
theorem length_run {s : State} {frame : List Byte} (hmin : 4 ≤ frame.length) (hmax : frame.length ≤ bufSize s.cfg)
    (hbyte : frame.length + 2 < 256) :
    ∃ s', execAll (byteRun (triple (lengthByte frame))) (preambleFound s) = .next s' ∧
      ReadingFrame [] (body frame) s' ∧ s'.trace = s.trace := by
  have hlen : (lengthByte frame).toNat = frame.length + 2 := by
    rw [lengthByte, BitVec.toNat_ofNat, Nat.mod_eq_of_lt hbyte]
  have hcheck : afterTriple (lengthByte frame) (preambleFound s) =
      .ok (lengthAccept (tripleRead (lengthByte frame) (preambleFound s))) := by
    have hrange : lengthInRange s.cfg (lengthByte frame) = true := by
      rw [lengthInRange_iff, hlen, maxFrame]
      rw [bufSize_eq] at hmax
      omega
    have hequal : copiesEqual ⟨lengthByte frame, lengthByte frame, lengthByte frame⟩ = true := by
      simp [copiesEqual]
    have hstate : (preambleFound s).rxState = .readingLength := rfl
    rw [afterTriple, if_pos hstate, lengthCheck]
    simp only [tripleRead, preambleFound, hequal, hrange, if_true]
  refine ⟨lengthAccept (tripleRead (lengthByte frame) (preambleFound s)), ?_, ?_, rfl⟩
  · rw [Machine.triple_run (s := preambleFound s) ⟨.inl rfl, rfl, rfl⟩ rfl, hcheck, toOutcome_ok]
  · exact
      { state := rfl, symAcc := rfl, symN := rfl, copyN := rfl, index := rfl
        length := by
          rw [body_length, List.length_nil, Nat.zero_add]
          exact hlen
        crc := crcFold_body frame
        stored := fun i hi => absurd hi (Nat.not_lt_zero i)
        fits := by
          change (lengthByte frame - 2).toNat ≤ bufSize s.cfg
          rw [length_sub_two (by omega), hlen]
          omega }

/-- The symbols of one emission deliver its frame to a searching receiver. -/
theorem emission_run {s : State} (h : Inv s) (hs : s.rxState = .idle ∨ s.rxState = .syncing) {frame : List Byte}
    (hmin : 4 ≤ frame.length) (hmax : frame.length ≤ s.cfg.maxPayload + 4) :
    ∃ s', execAll (byteRun (emissionBytes frame)) s = .next s' ∧ Delivered frame s s' := by
  obtain ⟨-, -, hpayload, -⟩ := (configValid_iff _).1 h.config
  obtain ⟨s1, hlength, hreading, htrace⟩ := length_run (s := s) hmin hmax (by omega)
  obtain ⟨s', hbody, hdone⟩ := hreading.run (frame := frame) (crc := crcBytes (checksum frame)) rfl rfl
    (by rw [← List.length_pos_iff, body_length]; omega)
  refine ⟨s', ?_, ⟨hdone.ready, hdone.slotLen, hdone.slot, hdone.trace.trans htrace⟩⟩
  rw [emissionBytes, List.append_assoc, byteRun_append, execAll_append (preamble_run h hs), byteRun_append,
    execAll_append hlength, hbody]

end Sys2Proof.Machine
end

section
/-! The edges of one emission inside the tolerance: the decoder hands the receiver the emission's symbols one by one
(spec/40_symbol_codec.md R119, R125, R128), and what the receiver makes of a symbol does not depend on the decoder. -/

namespace Sys2Proof.Machine

/-! ### The receiver does not look at the decoder -/

/-- The same state with another content of the decoder's registers (spec/10_state.md R34). -/
def withDecoder (l : Option Time) (c : Fin 10) (s : State) : State := { s with decLast := l, decCount := c }

section
variable (l : Option Time) (c : Fin 10)

@[simp] theorem withDecoder_cfg (s : State) : (withDecoder l c s).cfg = s.cfg := rfl
@[simp] theorem withDecoder_rxState (s : State) : (withDecoder l c s).rxState = s.rxState := rfl
@[simp] theorem withDecoder_symN (s : State) : (withDecoder l c s).symN = s.symN := rfl
@[simp] theorem withDecoder_copyN (s : State) : (withDecoder l c s).copyN = s.copyN := rfl
@[simp] theorem withDecoder_rxLen (s : State) : (withDecoder l c s).rxLen = s.rxLen := rfl
@[simp] theorem withDecoder_rxCrc (s : State) : (withDecoder l c s).rxCrc = s.rxCrc := rfl
@[simp] theorem withDecoder_rxIdx (s : State) : (withDecoder l c s).rxIdx = s.rxIdx := rfl

theorem syncSymbol_withDecoder (v : Sym) (s : State) :
    syncSymbol v (withDecoder l c s) = withDecoder l c (syncSymbol v s) := by
  simp only [syncSymbol, apply_ite (withDecoder l c)]
  rfl

theorem lengthCheck_withDecoder (s : State) : lengthCheck (withDecoder l c s) = withDecoder l c (lengthCheck s) := by
  simp only [lengthCheck, apply_ite (withDecoder l c)]
  rfl

theorem writeBytes_withDecoder (a : ArrayName) (s : State) (i : Nat) (bytes : List Byte) :
    writeBytes a (withDecoder l c s) i bytes = (writeBytes a s i bytes).map (withDecoder l c) := by
  induction bytes generalizing s i with
  | nil => rfl
  | cons b bs ih =>
    by_cases hi : i < bufSize s.cfg
    · have hmove : (withDecoder l c s).withArray a (((withDecoder l c s).array a).write i b) =
          withDecoder l c (s.withArray a ((s.array a).write i b)) := by cases a <;> rfl
      rw [writeBytes, writeBytes, arrayWrite_eq hi, arrayWrite_eq (s := withDecoder l c s) hi, hmove]
      exact ih _ (i + 1)
    · have hfault := Nat.le_of_not_lt hi
      rw [writeBytes, writeBytes, arrayWrite_fault hfault, arrayWrite_fault (s := withDecoder l c s) hfault]
      rfl

theorem completeAccept_withDecoder (s : State) :
    completeAccept (withDecoder l c s) = (completeAccept s).map (withDecoder l c) := by
  have hread : readBytes .rxAcc (withDecoder l c s) 0 (s.rxLen - 2).toNat =
      readBytes .rxAcc s 0 (s.rxLen - 2).toNat :=
    readBytes_congr (s := withDecoder l c s) (t := s) rfl rfl 0 _
  rw [completeAccept, completeAccept, withDecoder_rxLen, hread]
  cases readBytes .rxAcc s 0 (s.rxLen - 2).toNat with
  | error f => rfl
  | ok bytes =>
    dsimp only
    rw [writeBytes_withDecoder]
    cases writeBytes .slot s 0 bytes <;> rfl

theorem complete_withDecoder (s : State) : complete (withDecoder l c s) = (complete s).map (withDecoder l c) := by
  rw [complete, complete, withDecoder_rxCrc]
  split
  · exact completeAccept_withDecoder l c s
  · rfl

theorem bodyByte_withDecoder {s : State} (h : Inv s) (hs : s.rxState = .readingBody) :
    bodyByte (withDecoder l c s) = (bodyByte s).map (withDecoder l c) := by
  obtain ⟨hrange, -, -⟩ := h.reading hs
  obtain ⟨hmin, hmax⟩ := (lengthInRange_iff _ _).1 hrange
  have hindex : s.rxIdx < (s.rxLen - 2).toNat → s.rxIdx < bufSize s.cfg := by
    rw [length_sub_two (by omega), show bufSize s.cfg = maxFrame s.cfg - 2 from rfl]
    omega
  have hstored : bodyStored (withDecoder l c s) = withDecoder l c (bodyStored s) := rfl
  rw [bodyByte_eq hindex, bodyByte_eq (s := withDecoder l c s) hindex, hstored, withDecoder_rxIdx, withDecoder_rxLen]
  split
  · exact complete_withDecoder l c (bodyStored s)
  · rfl

theorem byteSymbol_withDecoder {s : State} (h : Inv s) (hs : s.rxState = .readingLength ∨ s.rxState = .readingBody)
    (v : Sym) : byteSymbol v (withDecoder l c s) = (byteSymbol v s).map (withDecoder l c) := by
  have hcopy : copyStored v (withDecoder l c s) = withDecoder l c (copyStored v s) := rfl
  rw [byteSymbol_eq, byteSymbol_eq, withDecoder_symN, withDecoder_copyN, withDecoder_rxState, hcopy]
  split
  · rfl
  · split
    · rfl
    · split
      · rw [lengthCheck_withDecoder]; rfl
      · exact bodyByte_withDecoder l c (copyStored_inv h hs v) (hs.resolve_left ‹_›)

theorem rxSymbol_withDecoder {s : State} (h : Inv s) (v : Sym) :
    rxSymbol v (withDecoder l c s) = (rxSymbol v s).map (withDecoder l c) := by
  rw [rxSymbol, rxSymbol, withDecoder_rxState]
  cases hs : s.rxState with
  | idle => rfl
  | syncing => exact congrArg Except.ok (syncSymbol_withDecoder l c v s)
  | readingLength => exact byteSymbol_withDecoder l c h (.inl hs) v
  | readingBody => exact byteSymbol_withDecoder l c h (.inr hs) v
  | accepted => rfl

end

/-- What RX_SYMBOL does with any content of the decoder's registers, when it is done at all. -/
theorem exec_rxSymbol_withDecoder {s s1 : State} (h : Inv s) {v : Sym} (hv : exec (.rxSymbol v) s = .next s1)
    (l : Option Time) (c : Fin 10) :
    exec (.rxSymbol v) (withDecoder l c s) = .next (withDecoder l c s1) := by
  have hok : rxSymbol v s = .ok s1 := toOutcome_eq_next.1 hv
  exact toOutcome_eq_next.2 (by rw [rxSymbol_withDecoder l c h, hok]; rfl)

/-- A symbol taken from a state of the invariant: the receiver was not in `Accepted`, and the invariant stays. -/
theorem rxSymbol_taken {s s1 : State} (h : Inv s) {v : Sym} (hv : exec (.rxSymbol v) s = .next s1) :
    s.ready = false ∧ Inv s1 ∧ OnlyReceiver s s1 := by
  have hok : rxSymbol v s = .ok s1 := toOutcome_eq_next.1 hv
  have hready : s.ready = false := by
    refine ready_false_of_state h fun ha => ?_
    rw [rxSymbol, ha] at hok
    cases hok
  obtain ⟨s2, hs2, hinv⟩ := rxSymbol_inv h hready v
  rw [hok] at hs2
  cases hs2
  exact ⟨hready, hinv, rxSymbol_only hok⟩

/-! ### The edges of an emission -/

theorem waveEdges_append (w v : List Transition) : waveEdges (w ++ v) = waveEdges w ++ waveEdges v := by
  simp [waveEdges]

/-- `EDGE` at each transition of an emission after its first rise. -/
def followingEdges (T t : Nat) (vs : List Sym) : List Instr := waveEdges (playSymbols T t vs).tail

theorem waveEdges_play (T t : Nat) (vs : List Sym) :
    waveEdges (playSymbols T t vs) = .edge (BitVec.ofNat 32 t) :: followingEdges T t vs := by
  rw [followingEdges, playSymbols_head]
  rfl

/-- After the first rise come the symbol's other edges, the next symbol's first edge, and what follows that. -/
theorem followingEdges_cons (T t : Nat) (v : Sym) (vs : List Sym) :
    followingEdges T t (v :: vs) =
      (waveEdges (symWave T t v).tail ++ [.edge (BitVec.ofNat 32 (t + symDuration T v))]) ++
        followingEdges T (t + symDuration T v) vs := by
  have htail : (playSymbols T t (v :: vs)).tail = (symWave T t v).tail ++ playSymbols T (t + symDuration T v) vs := by
    rw [playSymbols, symWave_head]
    rfl
  rw [followingEdges, htail, waveEdges_append, waveEdges_play, List.append_assoc]
  rfl

/-- The trailer's fall. -/
theorem followingEdges_nil (T t : Nat) : followingEdges T t [] = [.edge (BitVec.ofNat 32 (t + T))] := rfl

/-- The decoder's registers with a window just opened at `t`. -/
def windowAt (t : Nat) : State → State := withDecoder (some (BitVec.ofNat 32 t)) 1

/-- When the receiver takes the symbols up to a delivery, the edges that follow a window's first do the same: each
symbol's window delivers it, and the trailer's fall meets a full slot. -/
theorem followingEdges_run {T t : Nat} {vs : List Sym} {s s' : State} (h : Inv s) (hp : s.txPhase ≠ .emitting)
    (hT : InTolerance s.cfg T) (hrun : execAll (vs.map Instr.rxSymbol) s = .next s') (hready : s'.ready = true) :
    ∃ l c, execAll (followingEdges T t vs) (windowAt t s) = .next (withDecoder l c s') := by
  induction vs generalizing s t with
  | nil =>
    cases hrun
    rw [followingEdges_nil, execAll_singleton]
    exact ⟨_, _, edge_ignored _ (.inr hready)⟩
  | cons v vs ih =>
    cases hv : exec (.rxSymbol v) s with
    | fault f => rw [List.map_cons, execAll, hv] at hrun; cases hrun
    | refused r => rw [List.map_cons, execAll, hv] at hrun; cases hrun
    | next s1 =>
      rw [List.map_cons, execAll_cons hv] at hrun
      obtain ⟨hempty, hinv, honly⟩ := rxSymbol_taken h hv
      have hopen : WindowOpen T t (windowAt t s) := ⟨hp, hempty, rfl, hT⟩
      have hsymbol : execAll (waveEdges (symWave T t v).tail ++ [.edge (BitVec.ofNat 32 (t + symDuration T v))])
          (windowAt t s) = .next (windowAt (t + symDuration T v) s1) :=
        (hopen.symbol rfl v).trans (exec_rxSymbol_withDecoder h hv _ _)
      rw [followingEdges_cons, execAll_append hsymbol]
      exact ih hinv (honly.txPhase ▸ hp) (honly.cfg ▸ hT) hrun

/-- Settles O52: the first rise opens a window, and the edges that follow deliver the frame that the symbols deliver. -/
theorem emittedEdgesDeliverTheFrame : Obligations.EmittedEdgesDeliverTheFrame := by
  intro s frame ts Ttx h hs hp hlast hmin hmax habove hbelow
  obtain ⟨s', hrun, hdone⟩ := emission_run h hs hmin hmax
  have hempty : s.ready = false := ready_false_of_state h (by rcases hs with hs | hs <;> simp [hs])
  have hfirst : exec (.edge (BitVec.ofNat 32 ts)) s = .next (windowAt ts s) := edge_opens hp hempty _ hlast
  obtain ⟨l, c, hfollow⟩ := followingEdges_run (t := ts) h hp (.of_valid h.config habove hbelow) hrun hdone.ready
  have hedges := waveEdges_play Ttx ts (symbols (emissionBytes frame))
  refine ⟨withDecoder l c s', ?_, hdone.ready, hdone.slotLen, hdone.slot, hdone.trace⟩
  change execAll (waveEdges (playSymbols Ttx ts (symbols (emissionBytes frame)))) s = _
  rw [hedges, execAll_cons hfirst, hfollow]

end Sys2Proof.Machine
end

section
/-! The CRC and the checksum of a frame, and the reference frames (spec/41_frame_transmitter.md R141,
R144, R150, R158). -/

namespace Sys2Proof.Machine

theorem crcShifts_eq_iterate (k : Nat) (c : Crc) : crcShifts k c = crcShift^[k] c := by
  induction k generalizing c with
  | zero => rfl
  | succ k ih => rw [crcShifts, ih, Function.iterate_succ_apply]

/-- Settles O26: `crcShifts 8` is the shift of R141 eight times. -/
theorem crcUpdateIsMsbFirst : Obligations.CrcUpdateIsMsbFirst := by
  refine ⟨fun c b s => ?_, by decide, by decide, by decide, by decide⟩
  have hupdate : crc16Update c b = crcShift^[8] (c ^^^ (b.setWidth 16 <<< 8)) := crcShifts_eq_iterate 8 _
  change execCrc16Update c b s = _
  rw [execCrc16Update, hupdate]
  rfl

theorem crcFold_append (c : Crc) (as bs : List Byte) : crcFold c (as ++ bs) = crcFold (crcFold c as) bs :=
  List.foldl_append

/-- Settles O27: the bytes before them only give the start value of the register that is fed its own two bytes. -/
theorem checksumCompletesToZero : Obligations.ChecksumCompletesToZero :=
  ⟨fun c bytes => (crcFold_append c bytes _).trans (crcFold_crcBytes (crcFold c bytes)), crcFold_body⟩

/-- The transitions of an emission, by its bytes (R150). -/
theorem playSymbols_symbols_length (T t : Nat) (bytes : List Byte) :
    (playSymbols T t (symbols bytes)).length = 8 * bytes.length + 2 * symbolSum bytes + 2 := by
  rw [playSymbols_length, symbols_length, symbolSum]
  omega

/-- Settles O31: duration and edges follow from the number of bytes and the sum of the symbol values. -/
theorem referenceEmissions : Obligations.ReferenceEmissions := by
  have hsum4 : symbolSum (emissionBytes [0xBE, 0xEF, 0x01, 0x05]) = 126 := by decide +kernel
  have hsum11 : symbolSum (emissionBytes
      [0xBE, 0xEF, 0x01, 0x06, 0x67, 0x65, 0x74, 0x64, 0x61, 0x74, 0x61]) = 243 := by decide +kernel
  refine ⟨by decide +kernel, emissionBytes_length _, ?_, ?_, by decide +kernel, emissionBytes_length _, ?_, ?_⟩
  · rw [emissionDuration, hsum4, emissionBytes_length]; rfl
  · rw [playSymbols_symbols_length, hsum4, emissionBytes_length]; rfl
  · rw [emissionDuration, hsum11, emissionBytes_length]; rfl
  · rw [playSymbols_symbols_length, hsum11, emissionBytes_length]; rfl

end Sys2Proof.Machine
end

section
/-! The TxEngine's operations one by one: EMIT_START, EMIT_END, BACKOFF_END, RX_DISARM and the backoff draw
(spec/41_frame_transmitter.md R151 to R153, R155, R156). -/

namespace Sys2Proof.Machine

/-- Settles O32: the latched bytes are read back, so EMIT_START answers `emitting`. -/
theorem emitStartPlaysTheLatchedFrame : Obligations.EmitStartPlaysTheLatchedFrame :=
  fun ts _ _ hlen hsize hh => congrArg toOutcome (emitStart_eq hlen hsize hh ts)

/-- With emissions left the end of an emission starts a backoff (R152). -/
theorem emitEnd_backoff {s : State} (hleft : 0 < s.txLeft.toNat) (t : Time) :
    emitEnd t s =
      { s with
        txLeft := s.txLeft - 1, txPhase := .backoff
        txNextT := t + BitVec.ofNat 32 s.drawBackoff, drawN := s.drawN + 1 } := if_pos hleft

/-- The end of the last emission ends the send (R152). -/
theorem emitEnd_off {s : State} (hleft : s.txLeft.toNat = 0) (t : Time) :
    emitEnd t s = { s with txPhase := .off, txBusy := false } := if_neg (by omega)

/-- Settles O33: enabled, EMIT_END is `emitEnd`, whose branch the emissions left decide. -/
theorem emitEndBacksOffOrEnds : Obligations.EmitEndBacksOffOrEnds := by
  refine fun t s hrange => ⟨fun hp ht hleft => ?_, fun hp ht hleft => ?_, fun hnot => ?_⟩
  · obtain ⟨hmin, hmax⟩ := backoffInRange_bounds hrange (Config.freeBackoff s.drawN)
    exact ⟨s.drawBackoff, hmin, hmax,
      (execEmitEnd_enabled hp ht).trans (congrArg Host.Outcome.next (emitEnd_backoff hleft t))⟩
  · have hzero : s.txLeft.toNat = 0 := by rw [hleft]; rfl
    exact (execEmitEnd_enabled hp ht).trans (congrArg Host.Outcome.next (emitEnd_off hzero t))
  · exact if_neg (not_and_or.2 hnot)

/-- Settles O34: enabled, BACKOFF_END is EMIT_START of the latched frame. -/
theorem backoffEndStartsTheSameFrame : Obligations.BackoffEndStartsTheSameFrame := by
  refine fun t s frame => ⟨fun hp ht hlen hsize hh => ?_, fun hnot => ?_⟩
  · exact (execBackoffEnd_enabled hp ht).trans (congrArg toOutcome (emitStart_eq hlen hsize hh t))
  · exact if_neg (not_and_or.2 hnot)

/-- A value of the backoff range is the image of its distance from the range's start. -/
theorem backoffInRange_sub {c : Config} {d : Nat} (hmin : c.backoffMinUs ≤ d) (hmax : d ≤ c.backoffMaxUs) :
    backoffInRange c (d - c.backoffMinUs) = d := by
  rw [backoffInRange, Nat.mod_eq_of_lt (by omega), Nat.add_sub_cancel' hmin]

/-- Settles O35: a draw is at most the width of the range past its start, and every such value is drawn. -/
theorem drawsFillTheBackoffRange : Obligations.DrawsFillTheBackoffRange :=
  fun _ hrange => ⟨backoffInRange_bounds hrange, fun _ hmin hmax => ⟨_, backoffInRange_sub hmin hmax⟩⟩

/-- Settles O36: RX_DISARM is `disarmed`, in both of its branches. -/
theorem rxDisarmKeepsAnAcceptedFrame : Obligations.RxDisarmKeepsAnAcceptedFrame := by
  intro s
  have hdisarm : exec .rxDisarm s = .next (disarmed s) := congrArg Host.Outcome.next (rxDisarm_eq s)
  rw [hdisarm]
  exact ⟨fun h => congrArg Host.Outcome.next (if_pos h), fun h => congrArg Host.Outcome.next (if_neg h)⟩

end Sys2Proof.Machine
end

section
/-! A frame sent and received: the symbols of an emission reach the slot (spec/41_frame_transmitter.md R145, R148,
spec/42_frame_receiver.md R173 to R182). -/

namespace Sys2Proof.Machine

/-- Settles O51: the receiver reads the preamble, the length and the body of the emission (`emission_run`). -/
theorem emittedSymbolsDeliverTheFrame : Obligations.EmittedSymbolsDeliverTheFrame := by
  intro s frame h hs hmin hmax
  obtain ⟨s', hrun, hdone⟩ := emission_run h hs hmin hmax
  exact ⟨s', hrun, hdone.ready, hdone.slotLen, hdone.slot, hdone.trace⟩

end Sys2Proof.Machine
end

section
/-! A send with nothing else to come: its emissions and backoffs alternate until none is left
(spec/41_frame_transmitter.md R151 to R155, spec/70_reset_and_hazards.md R275). -/

namespace Sys2Proof.Machine

/-- The instant on the model's clock at which the TxEngine steps next. -/
def State.dueAt (s : State) : Nat := s.instant s.txNextT

/-- A send of `data` with no turn to come, in the given phase, with `left` emissions after the present one. -/
structure Sending (c : Config) (data : List Byte) (phase : TxPhase) (left : Nat) (s : State) : Prop where
  cfg : s.cfg = c
  alone : s.inputs = []
  busy : s.txBusy = true
  phase : s.txPhase = phase
  count : data.length = s.txN.toNat
  frame : holds s.txBuf data
  left : s.txLeft.toNat = left

/-! ### The steps of a send -/

/-- The TxEngine's next time, `d` microseconds after its step. -/
theorem due_ofNat (t : Time) (d : Nat) : (t + BitVec.ofNat 32 d - t).toNat = d % 2 ^ 32 := by
  rw [BitVec.add_comm, BitVec.add_sub_cancel, BitVec.toNat_ofNat]

variable {c : Config} {data : List Byte} {left : Nat} {s : State}

/-- With nothing else to come a step is the end of the emission (R152). -/
theorem Sending.step_emitting (h : Sending c data .emitting left s) (hc : configValid c = true) :
    step s = .next (emitEnd s.txNextT (atTxStep s)) := by
  have hfetch : fetch s = .run (.emitEnd s.txNextT) (atTxStep s) :=
    (fetch_eq_fetchTx (by simp [h.phase]) (.inl h.alone)).trans (fetchTx_emitting h.phase)
  exact (step_of_run (h.cfg ▸ hc) hfetch).trans (execEmitEnd_enabled h.phase rfl)

/-- With nothing else to come the last emission's end is the end of the send. -/
theorem Sending.step_last (h : Sending c data .emitting 0 s) (hc : configValid c = true) :
    step s = .next { atTxStep s with txPhase := .off, txBusy := false } := by
  rw [h.step_emitting hc, emitEnd_off (s := atTxStep s) h.left]

/-- The state at the start of a backoff. -/
def backingOff (s : State) : State :=
  { atTxStep s with
    txLeft := s.txLeft - 1, txPhase := .backoff
    txNextT := s.txNextT + BitVec.ofNat 32 s.drawBackoff, drawN := s.drawN + 1 }

theorem Sending.step_resend (h : Sending c data .emitting (left + 1) s) (hc : configValid c = true) :
    step s = .next (backingOff s) := by
  have hleft : 0 < (atTxStep s).txLeft.toNat := by
    have : (atTxStep s).txLeft.toNat = left + 1 := h.left
    omega
  rw [h.step_emitting hc, emitEnd_backoff hleft]
  rfl

/-- A backoff counts one emission down and keeps the frame. -/
theorem Sending.backs_off (h : Sending c data .emitting (left + 1) s) :
    Sending c data .backoff left (backingOff s) where
  cfg := h.cfg
  alone := by simp [backingOff, atTxStep, h.alone, waitLess]
  busy := h.busy
  phase := rfl
  count := h.count
  frame := h.frame
  left := by
    have hone : (1 : Byte).toNat = 1 := rfl
    have hleft := h.left
    have := s.txLeft.isLt
    change (s.txLeft - 1).toNat = left
    rw [BitVec.toNat_sub, hone]
    omega

/-- A backoff ends after its draw, which is in the range and below the wrap of the time base (R155). -/
theorem Sending.backoff_dueAt (h : Sending c data .emitting left s) (hc : configValid c = true) :
    s.dueAt + c.backoffMinUs ≤ (backingOff s).dueAt ∧
      (backingOff s).dueAt ≤ s.dueAt + c.backoffMaxUs := by
  obtain ⟨-, -, -, -, hrange, hwrap⟩ := (configValid_iff c).1 hc
  obtain ⟨hmin, hmax⟩ := backoffInRange_bounds hrange (Config.freeBackoff s.drawN)
  have hdraw : s.drawBackoff = backoffInRange c (Config.freeBackoff s.drawN) := by rw [State.drawBackoff, h.cfg]
  have hdue : (backingOff s).dueAt = s.dueAt + s.drawBackoff % 2 ^ 32 :=
    congrArg (s.dueAt + ·) (due_ofNat s.txNextT s.drawBackoff)
  rw [hdue, hdraw, Nat.mod_eq_of_lt (by omega)]
  omega

/-- The state in which a backoff has ended and the same frame is emitted again. -/
def resending (data : List Byte) (s : State) : State := emitting data s.txNextT (atTxStep s)

/-- With nothing else to come the end of a backoff starts the same frame again (R153). -/
theorem Sending.step_backoff (h : Sending c data .backoff left s) (hc : configValid c = true)
    (hsize : data.length ≤ bufSize c) : step s = .next (resending data s) := by
  have hfetch : fetch s = .run (.backoffEnd s.txNextT) (atTxStep s) :=
    (fetch_eq_fetchTx (by simp [h.phase]) (.inl h.alone)).trans (fetchTx_backoff h.phase)
  have hstart : emitStart s.txNextT (atTxStep s) = .ok (resending data s) :=
    emitStart_eq (s := atTxStep s) h.count (h.cfg ▸ hsize) h.frame _
  exact (step_of_run (h.cfg ▸ hc) hfetch).trans
    ((execBackoffEnd_enabled (s := atTxStep s) h.phase rfl).trans (congrArg toOutcome hstart))

/-- An emission disarms the receiver and writes the phase, the next time and the trace; a send keeps the rest. -/
theorem sending_emitting (ts : Time) (hcfg : s.cfg = c) (halone : s.inputs = []) (hbusy : s.txBusy = true)
    (hcount : data.length = s.txN.toNat) (hframe : holds s.txBuf data) (hleft : s.txLeft.toNat = left) :
    Sending c data .emitting left (emitting data ts s) where
  cfg := (disarmed_cfg s).trans hcfg
  alone := by simp [emitting, ← rxDisarm_eq, halone]
  busy := (disarmed_txBusy s).trans hbusy
  phase := rfl
  count := by simp [emitting, ← rxDisarm_eq, hcount]
  frame := by simpa [emitting, ← rxDisarm_eq] using hframe
  left := by simp [emitting, ← rxDisarm_eq, hleft]

theorem Sending.resends (h : Sending c data .backoff left s) : Sending c data .emitting left (resending data s) :=
  sending_emitting _ h.cfg (by simp [atTxStep, h.alone, waitLess]) h.busy h.count h.frame h.left

/-- The time the TxEngine waits for the end of an emission: its duration, at the width of the time base (log 8). -/
def emissionWait (c : Config) (data : List Byte) : Nat := emissionDuration c.pulseUs (emissionBytes data) % 2 ^ 32

theorem emitting_dueAt (data : List Byte) (s : State) :
    (emitting data s.now s).dueAt = s.clock + emissionWait s.cfg data := by
  have hdue := due_ofNat s.now (emissionDuration s.cfg.pulseUs (emissionBytes data))
  simp only [State.dueAt, State.instant, emitting, disarmed_clock, disarmed_now, hdue, emissionWait]

theorem resending_dueAt (data : List Byte) (s : State) :
    (resending data s).dueAt = s.dueAt + emissionWait s.cfg data := emitting_dueAt data (atTxStep s)

/-- The number of transitions of one emission. -/
def emissionEdges (data : List Byte) : Nat := 8 * (emissionBytes data).length + 2 * symbolSum (emissionBytes data) + 2

theorem emitting_outTrace_length (data : List Byte) (ts : Time) (s : State) :
    (emitting data ts s).outTrace.length = s.outTrace.length + emissionEdges data := by
  rw [emitting, List.length_append, playSymbols_symbols_length, emissionEdges]

/-! ### A send from its first emission to its end -/

/-- After `k` steps a send is still busy: it emits after an even number of them and backs off after an odd one. -/
def BusyAt (data : List Byte) (k : Nat) (s : State) : Prop :=
  ∃ v, runSteps k s = .next v ∧ v.txBusy = true ∧ holds v.txBuf data ∧
    v.txPhase = if k % 2 = 0 then .emitting else .backoff

theorem runSteps_succ {s s1 : State} (h : step s = .next s1) (k : Nat) : runSteps (k + 1) s = runSteps k s1 := by
  rw [runSteps, h]

/-- After one resend the send goes on as it began, two steps later. -/
theorem BusyAt.resend {b e : State} {k : Nat} (hs : step s = .next b) (hb : step b = .next e) (h : BusyAt data k e) :
    BusyAt data (k + 2) s := by
  obtain ⟨v, hrun, hbusy, hframe, hphase⟩ := h
  refine ⟨v, ?_, hbusy, hframe, ?_⟩
  · rw [runSteps_succ hs, runSteps_succ hb, hrun]
  · rw [Nat.add_mod_right, hphase]

/-- The end of a send that still had `left` resends to do, each a backoff and an emission. -/
structure Sent (c : Config) (data : List Byte) (left : Nat) (s u : State) : Prop where
  phase : u.txPhase = .off
  idle : u.txBusy = false
  edges : u.outTrace.length = s.outTrace.length + left * emissionEdges data
  earliest : s.dueAt + left * (emissionWait c data + c.backoffMinUs) ≤ u.clock
  latest : u.clock ≤ s.dueAt + left * (emissionWait c data + c.backoffMaxUs)

/-- The end of the last emission. -/
theorem sent_last (c : Config) (data : List Byte) (s : State) :
    Sent c data 0 s { atTxStep s with txPhase := .off, txBusy := false } where
  phase := rfl
  idle := rfl
  edges := by rw [Nat.zero_mul, Nat.add_zero]; rfl
  earliest := by rw [Nat.zero_mul, Nat.add_zero]; exact le_refl s.dueAt
  latest := by rw [Nat.zero_mul, Nat.add_zero]; exact le_refl s.dueAt

/-- One resend more before the rest of a send. -/
theorem Sent.resend {u : State} (h : Sent c data left (resending data (backingOff s)) u)
    (hs : Sending c data .emitting (left + 1) s) (hc : configValid c = true) : Sent c data (left + 1) s u := by
  have hedges : (resending data (backingOff s)).outTrace.length = s.outTrace.length + emissionEdges data :=
    emitting_outTrace_length data _ _
  have hdue := resending_dueAt data (backingOff s)
  rw [hs.backs_off.cfg] at hdue
  obtain ⟨hmin, hmax⟩ := hs.backoff_dueAt hc
  obtain ⟨hphase, hidle, hsent, hearliest, hlatest⟩ := h
  refine ⟨hphase, hidle, ?_, ?_, ?_⟩ <;> rw [Nat.succ_mul] <;> omega

/-- A send ends after its resends, by induction on them: each is a backoff and an emission of the same frame. -/
theorem Sending.run (hc : configValid c = true) (hsize : data.length ≤ bufSize c)
    (h : Sending c data .emitting left s) :
    (∀ k, k ≤ 2 * left → BusyAt data k s) ∧ ∃ u, runSteps (2 * left + 1) s = .next u ∧ Sent c data left s u := by
  have hfirst : BusyAt data 0 s := ⟨s, rfl, h.busy, h.frame, h.phase⟩
  induction left generalizing s with
  | zero =>
    exact ⟨fun k hk => Nat.le_zero.1 hk ▸ hfirst, _, runSteps_succ (h.step_last hc) 0, sent_last c data s⟩
  | succ left ih =>
    have hbackoff := h.backs_off
    have hresend := hbackoff.resends
    have hstep := h.step_resend hc
    have hstep' := hbackoff.step_backoff hc hsize
    obtain ⟨hbusy, u, hrun, hsent⟩ := ih hresend ⟨_, rfl, hresend.busy, hresend.frame, hresend.phase⟩
    refine ⟨fun k hk => ?_, u, ?_, hsent.resend h hc⟩
    · match k with
      | 0 => exact hfirst
      | 1 => exact ⟨_, runSteps_succ hstep 0, hbackoff.busy, hbackoff.frame, hbackoff.phase⟩
      | k + 2 => exact (hbusy k (by omega)).resend hstep hstep'
    · rw [Nat.mul_succ, runSteps_succ hstep, runSteps_succ hstep', hrun]

/-- An accepted TX_SEND is the first emission of a send with `RESEND_COUNT` resends to do (R213). -/
theorem sending_txSend (h : Inv s) (halone : s.inputs = []) (hmax : data.length ≤ s.cfg.maxPayload + 4) :
    Sending s.cfg data .emitting s.cfg.resendCount (emitting data s.now (latched data s)) := by
  obtain ⟨-, -, hpayload, hresends, -, -⟩ := (configValid_iff s.cfg).1 h.config
  have hcount : (BitVec.ofNat 8 data.length).toNat = data.length := Nat.mod_eq_of_lt (by omega)
  have hleft : (BitVec.ofNat 8 s.cfg.resendCount).toNat = s.cfg.resendCount := Nat.mod_eq_of_lt (by omega)
  exact sending_emitting _ rfl halone rfl hcount.symm (Memory.holds_writeList s.txBuf data) hleft

end Sys2Proof.Machine

namespace Sys2Proof.Machine

/-- Settles O37: TX_SEND starts a send with `RESEND_COUNT` resends, and `Sending.run` counts its emissions and times. -/
theorem sendMakesOnePlusResendEmissions : Obligations.SendMakesOnePlusResendEmissions := by
  rintro s data r d h halone hidle hmin hmax rfl rfl
  obtain ⟨-, -, hpayload, -⟩ := (configValid_iff s.cfg).1 h.config
  have hfits : data.length ≤ bufSize s.cfg := hmax
  have hsend : txSend data s.now s = .ok (emitting data s.now (latched data s)) := by
    have hlegal : ¬ (data.length < txMin ∨ txMax s.cfg < data.length) := not_or.2 ⟨not_lt.2 hmin, not_lt.2 hmax⟩
    rw [txSend_eq hpayload, hidle, if_neg Bool.false_ne_true, if_neg hlegal]
  obtain ⟨hbusy, u, hrun, hsent⟩ := (sending_txSend h halone hmax).run h.config hfits
  have hedges : (emitting data s.now (latched data s)).outTrace.length = s.outTrace.length + emissionEdges data :=
    emitting_outTrace_length data _ _
  have hdue : (emitting data s.now (latched data s)).dueAt = s.clock + emissionWait s.cfg data :=
    emitting_dueAt data (latched data s)
  obtain ⟨hphase, hoff, htrace, hearliest, hlatest⟩ := hsent
  refine ⟨_, congrArg toOutcome hsend, hbusy, u, hrun, hphase, hoff, ?_, fun hwrap => ?_⟩
  · rw [htrace, hedges, playSymbols_symbols_length, Nat.add_mul, Nat.one_mul, emissionEdges]
    omega
  · rw [hdue, emissionWait, Nat.mod_eq_of_lt hwrap, Nat.mul_add] at hearliest hlatest
    rw [Nat.add_mul, Nat.one_mul]
    omega

end Sys2Proof.Machine
end

section
/-! The Frame Receiver's dispatch, abort and sync search, one operation at a time (spec/42_frame_receiver.md R171 to
R174). -/

namespace Sys2Proof.Machine

/-! ### RX_SYMBOL and RX_ABORT -/

theorem rxSymbol_idle {s : State} (h : s.rxState = .idle) (v : Sym) : rxSymbol v s = .ok (idleSymbol v s) := by
  simp only [rxSymbol, h]

theorem rxSymbol_syncing {s : State} (h : s.rxState = .syncing) (v : Sym) : rxSymbol v s = .ok (syncSymbol v s) := by
  simp only [rxSymbol, h]

theorem rxSymbol_accepted {s : State} (h : s.rxState = .accepted) (v : Sym) :
    rxSymbol v s = .error .symbolInAccepted := by
  simp only [rxSymbol, h]

/-- Settles O38: each state's procedure, one lemma a state. -/
theorem rxSymbolDispatchesOnTheState : Obligations.RxSymbolDispatchesOnTheState :=
  fun v _ => ⟨fun h => congrArg toOutcome (rxSymbol_idle h v), fun h => congrArg toOutcome (rxSymbol_syncing h v),
    fun h => rxSymbol_reading h v, fun h => congrArg toOutcome (rxSymbol_accepted h v)⟩

/-- In `Idle` the elements an abort clears are clear (R36 to R38, R41). -/
theorem rxAbort_idle {s : State} (h : Inv s) (hs : s.rxState = .idle) (r : AbortReason) :
    rxAbort r s = { s with trace := s.trace ++ [r] } := by
  obtain ⟨hsr, hn⟩ := h.idle hs
  obtain ⟨hacc, hsym, hcopy, hidx⟩ := h.searching (.inl hs)
  simp only [rxAbort, hs, hsr, hn, hacc, hsym, hcopy, hidx]

/-- Settles O40: the written-out state is `rxAbort`, which in `Idle` only records. -/
theorem rxAbortReturnsToIdle : Obligations.RxAbortReturnsToIdle :=
  ⟨fun _ _ => rfl, fun r _ h hs => congrArg Host.Outcome.next (rxAbort_idle h hs r)⟩

/-! ### The sync search -/

/-- Settles O41: the written-out state is `idleSymbol`. -/
theorem idleSymbolStartsTheSearch : Obligations.IdleSymbolStartsTheSearch := fun _ _ => rfl

/-- Settles O42: the two branches of `syncSymbol`, whose preamble is the word of R174. -/
theorem syncSymbolMatchesThePreamble : Obligations.SyncSymbolMatchesThePreamble :=
  fun _ s => ⟨countSync s.syncN, rfl, fun h => congrArg Host.Outcome.next (if_pos h),
    fun h => congrArg Host.Outcome.next (if_neg h)⟩

theorem countSync_ne_zero : ∀ n : Fin 13, countSync n ≠ 0 := by decide

/-- The first symbol of a preamble is shifted in: into an empty register in `Idle`, whatever it held there. -/
theorem preamble_first {s : State} (hs : s.rxState = .idle ∨ s.rxState = .syncing) :
    ∃ t sr, exec (.rxSymbol 3) s = .next t ∧ t.rxState = .syncing ∧ t.syncSr = shiftSync sr 3 ∧ t.syncN ≠ 0 ∧
      t.trace = s.trace := by
  rcases hs with hs | hs
  · exact ⟨idleSymbol 3 s, 0, congrArg toOutcome (rxSymbol_idle hs 3), rfl, rfl, by simp [idleSymbol], rfl⟩
  · have hstep : exec (.rxSymbol 3) s = .next (searched [3] s) :=
      rxSymbol_searched (fun h => absurd (hs.symm.trans h) (by decide)) (.inr hs)
        (shiftSync_ne_syncWord_of_ne_zero (by decide) _)
    exact ⟨searched [3] s, s.syncSr, hstep, rfl, rfl, countSync_ne_zero _, rfl⟩

/-- The other eleven symbols complete the preamble: the count reaches twelve from any number of symbols before them. -/
theorem preamble_rest {s : State} {sr : BitVec 24} (hs : s.rxState = .syncing) (hsr : s.syncSr = shiftSync sr 3)
    (hn : s.syncN ≠ 0) :
    execAll (preambleSymbols.tail.map Instr.rxSymbol ++ [Instr.rxSymbol 0]) s = .next (preambleFound s) := by
  have hcount : ∀ n : Fin 13, n ≠ 0 → countSync (preambleSymbols.tail.foldl (fun n _ => countSync n) n) = 12 := by
    decide
  have hword : shiftSync (searched preambleSymbols.tail s).syncSr 0 = syncWord := by
    rw [searched_syncSr, hsr]
    exact shiftSync_preamble sr
  rw [execAll_append (search_run hs hsr (by decide)), execAll_singleton]
  exact rxSymbol_preambleFound (searched_rxState _ _) hword (hcount _ hn)

/-- Settles O43: the first symbol leaves a search that the other eleven complete. -/
theorem preambleIsAlwaysFound : Obligations.PreambleIsAlwaysFound := by
  intro s hs
  obtain ⟨t, sr, hfirst, ht, htsr, htn, htrace⟩ := preamble_first hs
  exact ⟨preambleFound t, (execAll_cons hfirst _).trans (preamble_rest ht htsr htn), rfl, rfl, rfl, rfl, htrace⟩

end Sys2Proof.Machine
end

section
/-! The Frame Receiver's raw copies and length checks, one operation at a time (spec/42_frame_receiver.md R175 to
R178). -/

namespace Sys2Proof.Machine

/-! ### LENGTH_CHECK -/

theorem copiesEqual_iff (c : Copies) : copiesEqual c = true ↔ c.c0 = c.c1 ∧ c.c1 = c.c2 := by
  simp [copiesEqual]

theorem exec_lengthCheckEqual (s : State) : exec .lengthCheckEqual s =
    if copiesEqual s.copies then .next s
    else .next (rxAbort (.lenMismatch s.copies.c0 s.copies.c1 s.copies.c2) s) := rfl

theorem exec_lengthCheckRange (s : State) : exec .lengthCheckRange s =
    if lengthInRange s.cfg s.copies.c0 then .next s else .next (rxAbort (.lenRange s.copies.c0) s) := rfl

/-- Settles O45: each part is its check, and the check is the comparison the statement writes out. -/
theorem lengthChecksAbandonBadLengths : Obligations.LengthChecksAbandonBadLengths := by
  refine fun s => ⟨fun h => ?_, fun h => ?_, fun h => ?_, fun h => ?_⟩
  · rw [exec_lengthCheckEqual, if_pos ((copiesEqual_iff _).2 h)]
  · rw [exec_lengthCheckEqual, if_neg (h ∘ (copiesEqual_iff _).1)]
    rfl
  · rw [exec_lengthCheckRange, if_pos ((lengthInRange_iff _ _).2 h)]
  · have hout : ¬ (6 ≤ s.copies.c0.toNat ∧ s.copies.c0.toNat ≤ maxFrame s.cfg) := by rw [maxFrame]; omega
    rw [exec_lengthCheckRange, if_neg (hout ∘ (lengthInRange_iff _ _).1)]
    rfl

/-- Settles O46: the written-out state is `lengthAccept`; the example is evaluated. -/
theorem acceptedLengthStartsTheBody : Obligations.AcceptedLengthStartsTheBody := ⟨fun _ => rfl, by decide⟩

/-- Unequal copies: the whole check is its equality part. -/
theorem lengthCheck_unequal {s : State} (h : ¬ copiesEqual s.copies = true) :
    .next (lengthCheck s) = exec .lengthCheckEqual s := by
  rw [exec_lengthCheckEqual, lengthCheck, if_neg h, if_neg h]

/-- Equal copies of a bad length: the whole check is its range part. -/
theorem lengthCheck_outOfRange {s : State} (h : copiesEqual s.copies = true)
    (hrange : ¬ lengthInRange s.cfg s.copies.c0 = true) : .next (lengthCheck s) = exec .lengthCheckRange s := by
  rw [exec_lengthCheckRange, lengthCheck, if_pos h, if_neg hrange, if_neg hrange]

/-- Equal copies of a legal length: the whole check is the acceptance. -/
theorem lengthCheck_accepts {s : State} (h : copiesEqual s.copies = true)
    (hrange : lengthInRange s.cfg s.copies.c0 = true) : .next (lengthCheck s) = exec .lengthCheckAccept s := by
  rw [lengthCheck, if_pos h, if_pos hrange]
  rfl

/-! ### BYTE_SYMBOL -/

theorem nextSymbol_val : ∀ n : Fin 4, n ≠ 3 → (nextSymbol n).val = n.val + 1 := by decide

/-- A byte goes on. -/
theorem exec_byteSymbol_shifted {s : State} (hn : s.symN ≠ 3) (v : Sym) : exec (.byteSymbol v) s =
    .next { s with symAcc := shiftByte s.symAcc v, symN := nextSymbol s.symN } :=
  congrArg toOutcome ((byteSymbol_eq v s).trans (if_pos hn))

/-- A copy but the third is complete. -/
theorem exec_byteSymbol_copy {s : State} (hn : s.symN = 3) (hc : s.copyN ≠ 2) (v : Sym) :
    exec (.byteSymbol v) s = .next (copyStored v s) := by
  have hcopy : byteSymbol v s = .ok (copyStored v s) := by
    rw [byteSymbol_eq, if_neg (not_not.2 hn), if_pos hc]
  exact congrArg toOutcome hcopy

/-- The third copy is complete. -/
theorem exec_byteSymbol_third {s : State} (hn : s.symN = 3) (hc : s.copyN = 2) (v : Sym) :
    exec (.byteSymbol v) s =
      if s.rxState = .readingLength then .next (lengthCheck (copyStored v s)) else exec .bodyByte (copyStored v s) := by
  have hthird : byteSymbol v s =
      if s.rxState = .readingLength then .ok (lengthCheck (copyStored v s)) else bodyByte (copyStored v s) := by
    rw [byteSymbol_eq, if_neg (not_not.2 hn), if_neg (not_not.2 hc)]
  exact (congrArg toOutcome hthird).trans (apply_ite toOutcome _ _ _)

/-- Settles O44: `copyStored` puts the byte in the copy that `copy_n` counts; after the third, the three outcomes of the
length check. -/
theorem byteSymbolAssemblesCopies : Obligations.ByteSymbolAssemblesCopies := by
  rintro v s b rfl
  refine ⟨fun hn => ⟨nextSymbol s.symN, nextSymbol_val _ hn, exec_byteSymbol_shifted hn v⟩, fun hn hc => ?_,
    fun hn hc => ?_, fun s1 hs1 hn hc => ?_⟩
  · rw [exec_byteSymbol_copy hn (by rw [hc]; decide), copyStored, hc]
    rfl
  · rw [exec_byteSymbol_copy hn (by rw [hc]; decide), copyStored, hc]
    rfl
  · have hstored : copyStored v s = s1 := by
      rw [hs1, copyStored, hc]
      rfl
    have hcfg : s1.cfg = s.cfg := by rw [hs1]
    rw [exec_byteSymbol_third hn hc, hstored, ← copiesEqual_iff, ← hcfg]
    refine ⟨fun hlength => ?_, fun hbody => if_neg hbody⟩
    rw [if_pos hlength]
    exact ⟨lengthCheck_unequal, fun heq hrange => lengthCheck_outOfRange heq (hrange ∘ (lengthInRange_iff _ _).1),
      fun heq hmin hmax => lengthCheck_accepts heq ((lengthInRange_iff _ _).2 ⟨hmin, hmax⟩)⟩

end Sys2Proof.Machine
end

section
/-! The Frame Receiver's vote, body bytes and completion, one operation at a time (spec/42_frame_receiver.md R179 to
R183). -/

namespace Sys2Proof.Machine

/-! ### MAJ3 -/

theorem getLsbD_maj3 (a b c : Byte) (i : Nat) : (maj3 a b c).getLsbD i =
    (a.getLsbD i && b.getLsbD i || a.getLsbD i && c.getLsbD i || b.getLsbD i && c.getLsbD i) := by
  simp only [maj3, BitVec.getLsbD_or, BitVec.getLsbD_and]

/-- Two of three is what the vote's formula counts. -/
theorem majority_iff : ∀ x y z : Bool, (x && y || x && z || y && z) = true ↔ 2 ≤ x.toNat + y.toNat + z.toNat := by
  decide

/-- The vote does not depend on the order of the copies. -/
theorem maj3_rotate (a b c : Byte) : maj3 a b c = maj3 b c a := by
  simp only [maj3]
  ac_rfl

/-- Two equal copies carry the vote. -/
theorem maj3_twoEqual (b x : Byte) : maj3 b b x = b := by
  refine BitVec.eq_of_getLsbD_eq fun i _ => ?_
  rw [getLsbD_maj3]
  cases b.getLsbD i <;> rfl

/-- An error confined to one copy is corrected, whichever copy it is (R180). -/
theorem maj3_oneWrong (b x : Byte) : maj3 b b x = b ∧ maj3 b x b = b ∧ maj3 x b b = b := by
  have hfirst : maj3 x b b = b := (maj3_rotate x b b).trans (maj3_twoEqual b x)
  exact ⟨maj3_twoEqual b x, (maj3_rotate b x b).trans hfirst, hfirst⟩

/-- Settles O48: the vote bit by bit. -/
theorem majorityCorrectsOneCopy : Obligations.MajorityCorrectsOneCopy := by
  refine ⟨fun a b c s => ⟨maj3 a b c, rfl, rfl, fun i _ => ?_⟩, maj3_oneWrong, fun b x y i _ hx hy => ?_,
    by decide, by decide⟩
  · rw [getLsbD_maj3, majority_iff]
  · rw [getLsbD_maj3, hx, hy]
    cases b.getLsbD i <;> rfl

/-! ### COMPLETE -/

theorem complete_of_zero {s : State} (h : s.rxCrc = 0) : complete s = completeAccept s := if_pos h

theorem complete_of_ne_zero {s : State} (h : s.rxCrc ≠ 0) : complete s = .ok (completeDiscard s) := if_neg h

/-- A run of writes keeps the canonical form. -/
theorem Memory.wf_writeList {m : Memory} (h : m.wf = true) (i : Nat) (bytes : List Byte) :
    (m.writeList i bytes).wf = true := by
  induction bytes generalizing m i with
  | nil => exact h
  | cons b bs ih => exact ih (Memory.wf_write h i b) (i + 1)

/-- A run of writes leaves the bytes after it. -/
theorem Memory.read_writeList_after (m : Memory) {bytes : List Byte} {j : Nat} (h : bytes.length ≤ j) :
    (m.writeList 0 bytes).read j = m.read j := by
  rw [Memory.read_writeList, if_neg (by omega)]

/-- Settles O49: the frame RXACC holds is written to the slot from index 0 on. -/
theorem completeAcceptFillsTheSlot : Obligations.CompleteAcceptFillsTheSlot := by
  intro s frame hmin hmax hlen hacc
  have hcount : frame.length = (s.rxLen - 2).toNat := by rw [length_sub_two (by omega), hlen]
  have hlenByte : s.rxLen - 2 = BitVec.ofNat 8 frame.length := by
    rw [hcount, BitVec.ofNat_toNat, BitVec.setWidth_eq]
  have haccept := completeAccept_eq hcount (by rw [bufSize_eq]; omega) hacc
  rw [hlenByte] at haccept
  exact ⟨s.slot.writeList 0 frame, Memory.holds_writeList _ _, fun _ => Memory.read_writeList_after _,
    fun hwf => Memory.wf_writeList hwf _ _, congrArg toOutcome haccept⟩

/-- Settles O50: the written-out state is `rxAbort` with `CRC_FAIL`. -/
theorem completeDiscardDropsTheFrame : Obligations.CompleteDiscardDropsTheFrame := fun _ => rfl

/-! ### BODY_BYTE -/

/-- A byte of the logical frame is stored. -/
theorem bodyStored_frameByte {s : State} (h : s.rxIdx < (s.rxLen - 2).toNat) : bodyStored s =
    { s with
      rxCrc := crc16Update s.rxCrc (maj3 s.copies.c0 s.copies.c1 s.copies.c2)
      rxAcc := s.rxAcc.write s.rxIdx (maj3 s.copies.c0 s.copies.c1 s.copies.c2), rxIdx := s.rxIdx + 1 } := by
  simp only [bodyStored, if_pos h]

/-- A byte of the checksum only enters the running CRC. -/
theorem bodyStored_crcByte {s : State} (h : ¬ s.rxIdx < (s.rxLen - 2).toNat) : bodyStored s =
    { s with
      rxCrc := crc16Update s.rxCrc (maj3 s.copies.c0 s.copies.c1 s.copies.c2), rxIdx := s.rxIdx + 1 } := by
  simp only [bodyStored, if_neg h]

/-- BODY_BYTE for a legal length: the vote is stored, and the body completed at its last byte. -/
theorem exec_bodyByte {s : State} (hmin : 6 ≤ s.rxLen.toNat) (hmax : s.rxLen.toNat ≤ s.cfg.maxPayload + 6) :
    exec .bodyByte s =
      if s.rxIdx + 1 = s.rxLen.toNat then toOutcome (complete (bodyStored s)) else .next (bodyStored s) := by
  have hfits : s.rxIdx < (s.rxLen - 2).toNat → s.rxIdx < bufSize s.cfg := by
    rw [length_sub_two (by omega), bufSize_eq]
    omega
  exact (congrArg toOutcome (bodyByte_eq hfits)).trans (apply_ite toOutcome _ _ _)

/-- Settles O47: a byte of the frame is stored, a byte of the checksum is not, and the last one decides by the CRC. -/
theorem bodyByteVotesStoresAndCompletes : Obligations.BodyByteVotesStoresAndCompletes := by
  rintro s v crc hmin hmax rfl rfl
  have hcount : (s.rxLen - 2).toNat = s.rxLen.toNat - 2 := length_sub_two (by omega)
  rw [exec_bodyByte hmin hmax]
  refine ⟨fun hframe => ?_, fun hcrc hnext => ?_, fun hlast hzero => ?_, fun hlast hne => ?_⟩
  · refine ⟨s.rxAcc.write s.rxIdx (maj3 s.copies.c0 s.copies.c1 s.copies.c2), Memory.read_write_same _ _ _,
      fun a ha => Memory.read_write_other _ ha _, fun hwf => Memory.wf_write hwf _ _, ?_⟩
    rw [if_neg (by omega), bodyStored_frameByte (by omega)]
    rfl
  · rw [if_neg hnext, bodyStored_crcByte (by omega)]
    rfl
  · rw [if_pos hlast, bodyStored_crcByte (by omega), complete_of_zero hzero]
    rfl
  · rw [if_pos hlast, bodyStored_crcByte (by omega), complete_of_ne_zero hne]
    rfl

end Sys2Proof.Machine
end

section
/-! The host commands NOP, TX_SEND and RX_RECEIVE by their cases (spec/43_host_interface.md R212, R213, R215). -/

namespace Sys2Proof.Machine

/-- Settles O53: the meaning of NOP is the state itself. -/
theorem nopChangesNothing : Obligations.NopChangesNothing := fun _ => rfl

/-! ### TX_SEND -/

/-- While a send is in progress TX_SEND is only recorded, whatever its count (R238). -/
theorem exec_txSend_busy {s : State} (hbusy : s.txBusy = true) (data : List Byte) :
    exec (.txSend data) s = .next (s.recordContract (.txBusy data.length)) :=
  congrArg toOutcome (if_pos hbusy)

/-- An idle transmitter only records a count outside `[TX_MIN, TX_MAX]`. -/
theorem exec_txSend_badCount {s : State} {data : List Byte} (hidle : s.txBusy = false)
    (hbad : data.length < txMin ∨ txMax s.cfg < data.length) :
    exec (.txSend data) s = .next (s.recordContract (.txLen data.length)) := by
  have hsend : txSend data s.now s = .ok (s.recordContract (.txLen data.length)) := by
    rw [txSend, hidle, if_neg Bool.false_ne_true, if_pos hbad]
  exact congrArg toOutcome hsend

/-- An idle transmitter latches a frame of a legal count and starts its emission. -/
theorem exec_txSend_legal {s : State} {data : List Byte} (hcfg : s.cfg.maxPayload ≤ 249) (hidle : s.txBusy = false)
    (hmin : txMin ≤ data.length) (hmax : data.length ≤ txMax s.cfg) :
    exec (.txSend data) s = .next (emitting data s.now (latched data s)) := by
  have hlegal : ¬ (data.length < txMin ∨ txMax s.cfg < data.length) := not_or.2 ⟨not_lt.2 hmin, not_lt.2 hmax⟩
  have hsend : txSend data s.now s = .ok (emitting data s.now (latched data s)) := by
    rw [txSend_eq hcfg, hidle, if_neg Bool.false_ne_true, if_neg hlegal]
  exact congrArg toOutcome hsend

/-- Under an accepted frame only the decoder's window is dropped (R156). -/
theorem disarmed_of_accepted {s : State} (h : s.rxState = .accepted) :
    disarmed s = { s with decLast := none, decCount := 0 } := if_pos h

/-- In every other state the receiver abandons what it has (R156). -/
theorem disarmed_of_not_accepted {s : State} (h : s.rxState ≠ .accepted) :
    disarmed s = rxAbort .txMask { s with decLast := none, decCount := 0 } := if_neg h

/-- The emission of a frame latched now, over the state TX_SEND found: the receiver is disarmed as it would be without the
frame, and the waveform starts on the model's clock. -/
theorem emitting_latched (data : List Byte) (s : State) :
    emitting data s.now (latched data s) =
      { disarmed s with
        txBuf := s.txBuf.writeList 0 data, txN := BitVec.ofNat 8 data.length
        txLeft := BitVec.ofNat 8 s.cfg.resendCount, txBusy := true, txPhase := .emitting
        outTrace := s.outTrace ++ playSymbols s.cfg.pulseUs s.clock (symbols (emissionBytes data))
        txNextT := s.now + BitVec.ofNat 32 (emissionDuration s.cfg.pulseUs (emissionBytes data)) } := by
  have hinstant : (latched data s).instant s.now = s.clock := by simp [State.instant, latched]
  rw [emitting, hinstant]
  by_cases haccepted : s.rxState = .accepted
  · rw [disarmed_of_accepted haccepted, disarmed_of_accepted (s := latched data s) haccepted]
    rfl
  · rw [disarmed_of_not_accepted haccepted, disarmed_of_not_accepted (s := latched data s) haccepted]
    rfl

/-- Settles O54: busy comes first, then the count; a legal frame is written to TXBUF from index 0 on. -/
theorem txSendLatchesAndEmits : Obligations.TxSendLatchesAndEmits := by
  refine fun data s hcfg => ⟨fun hbusy => exec_txSend_busy hbusy data, fun hidle => exec_txSend_badCount hidle,
    fun hidle hmin hmax => ?_, fun href hidle hnow => ?_⟩
  · refine ⟨s.txBuf.writeList 0 data, Memory.holds_writeList _ _, fun _ => Memory.read_writeList_after _,
      fun hwf => Memory.wf_writeList hwf _ _, ?_⟩
    rw [exec_txSend_legal hcfg hidle hmin hmax, emitting_latched]
  · obtain ⟨-, -, hduration, -⟩ := referenceEmissions
    have hmax : 4 ≤ txMax s.cfg := Nat.le_add_left 4 s.cfg.maxPayload
    have hend : (1000 : Time) + BitVec.ofNat 32 (emissionDuration 100 (emissionBytes [0xBE, 0xEF, 0x01, 0x05])) = 74700 := by
      rw [hduration]
      rfl
    refine ⟨_, exec_txSend_legal hcfg hidle (le_refl 4) hmax, ?_⟩
    rw [emitting_latched, href, hnow]
    exact ⟨rfl, rfl, rfl, hend⟩

/-! ### RX_RECEIVE -/

/-- RX_RECEIVE of an empty slot only responds, with a count of zero. -/
theorem exec_rxReceive_empty {s : State} (hempty : s.ready = false) :
    exec .rxReceive s = .next (s.respond [0x00]) := by
  have hreceive : rxReceive s = .ok (s.respond [0x00]) := by rw [rxReceive, hempty, if_neg Bool.false_ne_true]
  exact congrArg toOutcome hreceive

/-- Settles O56: the frame is read and the block re-armed (`rearm`), which leaves the slot empty for the second command. -/
theorem rxReceiveEmptiesTheSlot : Obligations.RxReceiveEmptiesTheSlot := by
  refine fun s => ⟨exec_rxReceive_empty, fun bytes hready hcount hsize hheld => ?_⟩
  have hfirst : exec .rxReceive s = .next (rearm (s.respond (s.slotLen :: bytes))) :=
    congrArg toOutcome (rxReceive_full hready hcount hsize hheld)
  exact ⟨.unspecified s.drawN, s.drawN + 1, rearm (s.respond (s.slotLen :: bytes)), rfl, hfirst,
    exec_rxReceive_empty (rearm_ready _)⟩

end Sys2Proof.Machine
end

section
/-! The abort trace and the record of host-contract errors: what an edge that abandons a frame leaves alone, and what one
step adds (spec/60_exceptions.md R233, R236, R238). -/

namespace Sys2Proof.Machine

/-! ### An edge abandons a frame, or leaves the abort trace -/

/-- What the receiver shows is the same: the slot, `ready` and the abort trace. -/
structure SameShown (s s' : State) : Prop extends SameSlot s s' where
  ready : s'.ready = s.ready
  trace : s'.trace = s.trace

/-- What the Sampler may do to the abort trace: leave it, or end in RX_ABORT with nothing shown before. -/
def AbortsOrKeepsTrace (s s' : State) : Prop :=
  s'.trace = s.trace ∨ ∃ r t, SameShown s t ∧ s' = rxAbort r t

theorem SameShown.abortsOrKeepsTrace {s t u : State} (h : SameShown s t) (k : AbortsOrKeepsTrace t u) :
    AbortsOrKeepsTrace s u := by
  rcases k with hkeep | ⟨r, v, hshown, rfl⟩
  · exact .inl (hkeep.trans h.trace)
  · exact .inr ⟨r, v, ⟨⟨hshown.slot.trans h.slot, hshown.slotLen.trans h.slotLen⟩, hshown.ready.trans h.ready,
      hshown.trace.trans h.trace⟩, rfl⟩

theorem rxAbort_aborts (r : AbortReason) (s : State) : AbortsOrKeepsTrace s (rxAbort r s) :=
  .inr ⟨r, s, ⟨.refl s, rfl, rfl⟩, rfl⟩

theorem syncSymbol_trace (v : Sym) (s : State) : (syncSymbol v s).trace = s.trace := by
  unfold syncSymbol; dsimp only; split <;> rfl

theorem lengthCheck_abortsOrKeepsTrace (s : State) : AbortsOrKeepsTrace s (lengthCheck s) := by
  unfold lengthCheck
  split
  · split
    · exact .inl rfl
    · exact rxAbort_aborts _ s
  · exact rxAbort_aborts _ s

theorem complete_abortsOrKeepsTrace {s s' : State} (h : complete s = .ok s') : AbortsOrKeepsTrace s s' := by
  unfold complete at h
  split at h
  · obtain ⟨bytes, -, -, -, rfl⟩ := completeAccept_ok h
    exact .inl rfl
  · cases h; exact rxAbort_aborts _ s

theorem bodyByte_abortsOrKeepsTrace {s s' : State} (h : bodyByte s = .ok s') : AbortsOrKeepsTrace s s' := by
  have hstored : SameShown s (bodyStored s) := ⟨⟨rfl, rfl⟩, rfl, rfl⟩
  rw [bodyByte_eq (bodyByte_ok h)] at h
  split at h
  · exact hstored.abortsOrKeepsTrace (complete_abortsOrKeepsTrace h)
  · cases h; exact .inl hstored.trace

theorem byteSymbol_abortsOrKeepsTrace {v : Sym} {s s' : State} (h : byteSymbol v s = .ok s') :
    AbortsOrKeepsTrace s s' := by
  have hstored : SameShown s (copyStored v s) := ⟨⟨rfl, rfl⟩, rfl, rfl⟩
  rw [byteSymbol_eq] at h
  split at h
  · cases h; exact .inl rfl
  · split at h
    · cases h; exact .inl hstored.trace
    · split at h
      · cases h; exact hstored.abortsOrKeepsTrace (lengthCheck_abortsOrKeepsTrace _)
      · exact hstored.abortsOrKeepsTrace (bodyByte_abortsOrKeepsTrace h)

theorem rxSymbol_abortsOrKeepsTrace {v : Sym} {s s' : State} (h : rxSymbol v s = .ok s') :
    AbortsOrKeepsTrace s s' := by
  unfold rxSymbol at h
  split at h
  · cases h; exact .inl rfl
  · cases h; exact .inl (syncSymbol_trace v s)
  · exact byteSymbol_abortsOrKeepsTrace h
  · exact byteSymbol_abortsOrKeepsTrace h
  · cases h

theorem closeWindow_abortsOrKeepsTrace {c : Nat} {dt : Time} {s s' : State} (h : closeWindow c dt s = .ok s') :
    AbortsOrKeepsTrace s s' := by
  unfold closeWindow at h
  split at h
  · cases h; exact rxAbort_aborts _ s
  · split at h
    · cases h; exact rxAbort_aborts _ s
    · exact rxSymbol_abortsOrKeepsTrace h

/-- Only an edge that closes a window can reach RX_ABORT. -/
theorem decodeEdge_abortsOrKeepsTrace {t : Time} {s s' : State} (h : decodeEdge t s = .ok s') :
    AbortsOrKeepsTrace s s' := by
  unfold decodeEdge at h
  split at h
  · cases h; exact .inl rfl
  · dsimp only at h
    split at h
    · cases h; exact .inl rfl
    · split at h
      · cases h; exact .inl rfl
      · have hopened : SameShown s { s with decLast := some t, decCount := 1 } := ⟨⟨rfl, rfl⟩, rfl, rfl⟩
        exact hopened.abortsOrKeepsTrace (closeWindow_abortsOrKeepsTrace h)

theorem edge_abortsOrKeepsTrace {t : Time} {s s' : State} (h : edge t s = .ok s') : AbortsOrKeepsTrace s s' := by
  unfold edge at h
  split at h
  · cases h; exact .inl rfl
  · split at h
    · cases h; exact .inl rfl
    · exact decodeEdge_abortsOrKeepsTrace h

/-- Settles O20: an edge that changes the trace ends in RX_ABORT with nothing shown before; the transmitter, the response
port and the contract record are outside every edge's reach (`OnlyReceiver`). -/
theorem receiveErrorsAreInvisible : Obligations.ReceiveErrorsAreInvisible := by
  intro t s s' h htrace
  have hedge : edge t s = .ok s' := toOutcome_eq_next.1 h
  obtain ⟨l, c, honly⟩ := edge_only hedge
  rcases edge_abortsOrKeepsTrace hedge with hkeep | ⟨r, u, hshown, rfl⟩
  · exact absurd hkeep htrace
  · exact ⟨rfl, hshown.ready, hshown.slot, hshown.slotLen, honly.txPhase, honly.txBusy, honly.txBuf, honly.txN,
      honly.txLeft, honly.txNextT, honly.outTrace, honly.hostOut, honly.contract⟩

/-! ### What one step adds to the two records -/

/-- The second list is the first, or has one entry more at its end. -/
def AtMostOneMore {α : Type} (xs ys : List α) : Prop := ys = xs ∨ ∃ r, ys = xs ++ [r]

/-- At most one host-contract error and at most one abort are recorded, and none is removed. -/
structure RecordsAtMostOne (s s' : State) : Prop where
  contract : AtMostOneMore s.contract s'.contract
  trace : AtMostOneMore s.trace s'.trace

/-- The two records are the same. -/
structure SameRecords (s s' : State) : Prop where
  contract : s'.contract = s.contract
  trace : s'.trace = s.trace

theorem SameRecords.atMostOne {s s' : State} (h : SameRecords s s') : RecordsAtMostOne s s' :=
  ⟨.inl h.contract, .inl h.trace⟩

/-- Records that are the same before an operation do not count. -/
theorem SameRecords.recordsAtMostOne {s t u : State} (h : SameRecords s t) (k : RecordsAtMostOne t u) :
    RecordsAtMostOne s u := ⟨h.contract ▸ k.contract, h.trace ▸ k.trace⟩

theorem SameButTime.sameRecords {s s1 : State} (h : SameButTime s s1) : SameRecords s s1 := by
  rw [h]; exact ⟨rfl, rfl⟩

theorem AbortsOrKeepsTrace.atMostOneMore {s s' : State} (h : AbortsOrKeepsTrace s s') :
    AtMostOneMore s.trace s'.trace := by
  rcases h with hkeep | ⟨r, t, hshown, rfl⟩
  · exact .inl hkeep
  · exact .inr ⟨r, by rw [rxAbort_trace, hshown.trace]⟩

theorem edge_recordsAtMostOne {t : Time} {s s' : State} (h : edge t s = .ok s') : RecordsAtMostOne s s' := by
  obtain ⟨l, c, honly⟩ := edge_only h
  exact ⟨.inl honly.contract, (edge_abortsOrKeepsTrace h).atMostOneMore⟩

theorem recordContract_recordsAtMostOne (r : ContractRecord) (s : State) :
    RecordsAtMostOne s (s.recordContract r) := ⟨.inr ⟨r, rfl⟩, .inl rfl⟩

/-- An emission starts with RX_DISARM, which records the frame it abandons, if any (R156). -/
theorem emitting_recordsAtMostOne (frame : List Byte) (ts : Time) (s : State) :
    RecordsAtMostOne s (emitting frame ts s) := by
  refine ⟨.inl ?_, ?_⟩
  · show (disarmed s).contract = s.contract
    rw [← rxDisarm_eq, rxDisarm_contract]
  · show AtMostOneMore s.trace (disarmed s).trace
    rw [← rxDisarm_eq, rxDisarm_trace]
    split
    · exact .inl rfl
    · exact .inr ⟨.txMask, rfl⟩

/-- TX_SEND records a host-contract error, or what the emission it starts records. -/
theorem txSend_recordsAtMostOne {data : List Byte} {t : Time} {s s' : State} (h : txSend data t s = .ok s') :
    RecordsAtMostOne s s' := by
  rcases txSend_ok h with ⟨r, rfl⟩ | ⟨-, frame, rfl⟩
  · exact recordContract_recordsAtMostOne r s
  · have hlatched : SameRecords s (latched data s) := ⟨rfl, rfl⟩
    exact hlatched.recordsAtMostOne (emitting_recordsAtMostOne frame t _)

theorem rxReceive_sameRecords {s s' : State} (h : rxReceive s = .ok s') : SameRecords s s' := by
  rcases rxReceive_ok h with ⟨-, bytes, rfl⟩ | ⟨-, rfl⟩ <;> exact ⟨rfl, rfl⟩

theorem emitEnd_sameRecords (t : Time) (s : State) : SameRecords s (emitEnd t s) := by
  unfold emitEnd; split <;> exact ⟨rfl, rfl⟩

/-- Every operation a step can run records at most one entry of each kind. -/
theorem NextOp.exec_recordsAtMostOne {s s1 s' : State} {i : Instr} (hn : NextOp s i s1)
    (h : exec i s1 = .next s') : RecordsAtMostOne s1 s' := by
  cases hn with
  | edge => exact edge_recordsAtMostOne (toOutcome_eq_next.1 h)
  | command _ _ _ hcmd =>
    rcases hcmd with rfl | ⟨data, rfl⟩ | rfl | rfl | ⟨op, rfl⟩
    · cases h; exact SameRecords.atMostOne ⟨rfl, rfl⟩
    · exact txSend_recordsAtMostOne (toOutcome_eq_next.1 h)
    · cases h; exact SameRecords.atMostOne ⟨rfl, rfl⟩
    · exact (rxReceive_sameRecords (toOutcome_eq_next.1 h)).atMostOne
    · cases h; exact recordContract_recordsAtMostOne _ _
  | reset => cases h; exact SameRecords.atMostOne ⟨rfl, rfl⟩
  | emitEnd _ hs hp ht =>
    rw [hs.execEmitEnd_eq hp ht] at h
    cases h
    exact (emitEnd_sameRecords _ _).atMostOne
  | backoffEnd _ hs hp ht =>
    rw [hs.execBackoffEnd_eq hp ht] at h
    obtain ⟨frame, -, -, -, rfl⟩ := emitStart_ok (toOutcome_eq_next.1 h)
    exact emitting_recordsAtMostOne _ _ _

/-- A step is the passing of time, then at most one operation. -/
theorem step_recordsAtMostOne {s s' : State} (h : step s = .next s') : RecordsAtMostOne s s' := by
  by_cases hc : configValid s.cfg = true
  · rcases step_cases hc with ⟨i, s1, hn, hrun⟩ | ⟨s1, hsame, hidle⟩
    · exact hn.same.sameRecords.recordsAtMostOne (hn.exec_recordsAtMostOne (hrun ▸ h))
    · rw [hidle] at h
      cases h
      exact hsame.sameRecords.atMostOne
  · rw [step_of_invalid hc] at h
    cases h

/-- Settles O16: time leaves both records, and the operation that runs adds at most one entry to each. -/
theorem stepAddsAtMostOneRecord : Obligations.StepAddsAtMostOneRecord := fun _ _ h =>
  have hrecords := step_recordsAtMostOne h
  ⟨hrecords.contract, hrecords.trace⟩

end Sys2Proof.Machine
end

section
/-! Reset and durations (spec/70_reset_and_hazards.md R260, R261, R275; spec/10_state.md R56). -/

namespace Sys2Proof.Machine

/-! ### The duration of an emission -/

/-- The number of bytes an emission has after its preamble: three copies of the length byte and of each body byte. -/
theorem length_after_preamble (frame : List Byte) :
    (triple (lengthByte frame) ++ (body frame).flatMap triple).length = 3 * (frame.length + 2 + 1) := by
  rw [List.length_append, flatMap_triple_length, body_length]
  simp only [triple, List.length_cons, List.length_nil]
  omega

/-- The preamble's symbols sum to 18, whatever the frame. -/
theorem symbolSum_emissionBytes (frame : List Byte) :
    symbolSum (emissionBytes frame) = 18 + symbolSum (triple (lengthByte frame) ++ (body frame).flatMap triple) := by
  have hpreamble : symbolSum [sync0, sync1, sync2] = 18 := by decide
  rw [emissionBytes, List.append_assoc, symbolSum_append, hpreamble]

theorem symbolSum_emissionBytes_ge (frame : List Byte) : 18 ≤ symbolSum (emissionBytes frame) := by
  rw [symbolSum_emissionBytes]
  exact Nat.le_add_right _ _

/-- Each of the `3(L + 1)` bytes after the preamble contributes at most 12. -/
theorem symbolSum_emissionBytes_le (frame : List Byte) :
    symbolSum (emissionBytes frame) ≤ 18 + 36 * (frame.length + 2 + 1) := by
  have hrest := symbolSum_le (triple (lengthByte frame) ++ (body frame).flatMap triple)
  rw [length_after_preamble] at hrest
  rw [symbolSum_emissionBytes]
  omega

/-- Settles O30: the duration grows with the sum of the symbol values, which lies between the preamble's 18 and 12 for
every further byte more. -/
theorem emissionDurationBounds : Obligations.EmissionDurationBounds := by
  intro T frame
  have hleast := symbolSum_emissionBytes_ge frame
  have hmost := symbolSum_emissionBytes_le frame
  constructor
  · exact Nat.mul_le_mul_right T (by omega)
  · exact Nat.mul_le_mul_right T (by omega)

/-! ### RESET -/

/-- The cut trace: what is not after `t`, and a fall at `t` of a line that is high (R260). -/
theorem cutTrace_eq (w : List Transition) (t : Nat) :
    cutTrace w t = w.filter (fun e => decide (e.time ≤ t)) ++ (if levelAt w t = true then [⟨t, false⟩] else []) := by
  unfold cutTrace
  split
  · rfl
  · exact (List.append_nil _).symm

/-- The level at a time that no transition is after is the one the trace ends at. -/
theorem levelAt_of_past {w : List Transition} {t : Nat} (h : ∀ e ∈ w, e.time ≤ t) : levelAt w t = finalLevel w := by
  rw [levelAt_filter, List.filter_eq_self.2 fun e he => decide_eq_true (h e he)]

/-- The line is low at the instant its trace is cut. -/
theorem levelAt_cutTrace (w : List Transition) (t : Nat) : levelAt (cutTrace w t) t = false :=
  (levelAt_of_past fun _ => cutTrace_past).trans (cutTrace_low w t)

/-- `STATUS` is zero with the slot empty, no send under way and the receiver in `Idle`. -/
theorem status_eq_zero {s : State} (hready : s.ready = false) (hbusy : s.txBusy = false) (hidle : s.rxState = .idle) :
    s.status = 0x00 := by
  rw [State.status, hready, hbusy, hidle]
  rfl

@[simp] theorem resetBlock_txOut (d : ResetDraws) (s : State) : (resetBlock d s).txOut = false :=
  levelAt_cutTrace s.outTrace s.clock

@[simp] theorem resetBlock_status (d : ResetDraws) (s : State) : (resetBlock d s).status = 0x00 :=
  status_eq_zero rfl rfl rfl

/-- RESET cancels the pending TxEngine step. -/
@[simp] theorem resetBlock_txDue (d : ResetDraws) (s : State) : (resetBlock d s).txDue = none := rfl

/-- Nothing is scheduled after the instant of a RESET. -/
theorem resetBlock_past (d : ResetDraws) (s : State) :
    ∀ e ∈ (resetBlock d s).outTrace, e.time ≤ (resetBlock d s).clock := fun _ => cutTrace_past

/-- RESET as an operation: the block is reset with some draws for its unspecified elements. -/
theorem exec_reset (s : State) : ∃ d k, exec .reset s = .next { resetBlock d s with drawN := k } := ⟨_, _, rfl⟩

/-- Settles O60: the block takes its reset values with the model's draws for the unspecified ones, and the trace is cut
at the instant. -/
theorem resetInstructionResetsTheBlock : Obligations.ResetInstructionResetsTheBlock := by
  intro s
  obtain ⟨d, k, hexec⟩ := exec_reset s
  refine ⟨d.copies, d.rxLen, d.rxCrc, d.txNextT, d.now, d.rxAcc, d.slot, d.txBuf, k, _, hexec, ?_,
    resetBlock_txOut d s, resetBlock_status d s, resetBlock_txDue d s, resetBlock_past d s⟩
  rw [State.txOut, ← cutTrace_eq]
  rfl

/-! ### The state after reset -/

/-- Settles O59: each element has the value R56 gives it; the line and `STATUS` follow from them. -/
theorem resetStateIsIdleAndEmpty : Obligations.ResetStateIsIdleAndEmpty :=
  ⟨rfl, rfl, rfl, rfl, rfl, rfl, rfl, rfl, rfl, rfl, rfl, rfl, rfl, rfl, rfl, rfl, status_eq_zero rfl rfl rfl⟩

end Sys2Proof.Machine
end
